-- ==== Sys2Proof/Word.lean ====
section
/-! DEFINITION. The word types of the unit (00_scope.md R6, R7, R10): 8-bit bytes of memory, 16-bit
vertex components, 32-bit registers, addresses, counts and packed words; and the two access widths
of the memory port (20_memory.md R62). -/

namespace Sys2Proof

/-- One byte of the data memory (20_memory.md R60). -/
abbrev Byte := BitVec 8

/-- A vertex or anchor component, COMP_W = 16 bits, unsigned (R6). -/
abbrev Half := BitVec 16

/-- A register, address, count, index or packed word: 32 bits, unsigned (R7). -/
abbrev Word := BitVec 32

/-- The widths the memory port moves: 2 or 4 bytes and no other (20_memory.md R60, R62). -/
inductive Width where
  | half
  | word
deriving DecidableEq, Repr

end Sys2Proof
end

