-- ==== Sys2Proof/Config.lean ====
section
/-! DEFINITION. The fixed parameters of this hardware (00_scope.md R6, R7). The OPEN parameters of R8
(UNIT_BASE, MemOK, the initial memory) are no constants: State holds a value of each, so a claim over
all states is a claim over all of them (log 2, 3, 4). -/

namespace Sys2Proof.Config

/-- DELTA_BIAS, the bias of one axis delta (R6). -/
abbrev deltaBias : Int := 512

/-- DELTA_MAX, the largest delta a 10-bit field holds (R6). -/
abbrev deltaMax : Int := 1023

/-- PAD_WORD, the word REPACK writes to close a block (R6, 41_delta_datapath.md R127). -/
abbrev padWord : Word := 0x00000000#32

/-- The reset value of BLOCK_SIZE (R6, 10_state.md R27). -/
abbrev blockSizeReset : Word := 64#32

/-- The failure sentinel, -1 as s32 (10_state.md R29, 42_repack.md R152). -/
abbrev failureSentinel : Word := 0xFFFFFFFF#32

/-- The value of `b` before the first block starts, -1 (10_state.md R39, 42_repack.md R142). -/
abbrev noBlock : Word := 0xFFFFFFFF#32

/-- The size of the register window in bytes (10_state.md R20). -/
abbrev windowBytes : Nat := 0x40

/-- The number of byte addresses of the data memory (20_memory.md R60). -/
abbrev memoryBytes : Nat := 2 ^ 32

end Sys2Proof.Config
end

