-- ==== Sys2Proof/Syntax.lean ====
section
/-! DEFINITION. The command set (30_encoding.md R92): one constructor per row of the opcode table. A
command word has no operand field (R90), so no constructor has an argument: every operand is one of
the latches L[0..6] of the unit (R95), read by the meanings. -/

namespace Sys2Proof

/-- The four commands of 30_encoding.md R92. -/
inductive Instr where
  /-- SETBS: set the Block Size Register (40_block_size.md R110). -/
  | setbs
  /-- REPACK: block-anchored delta packing of a vertex array (42_repack.md R140). -/
  | repack
  /-- REMAP32: apply a remap table to a 32-bit index buffer in place (43_remap.md R170). -/
  | remap32
  /-- REMAPG: apply a remap table to a 16- or 32-bit index buffer in place (43_remap.md R171). -/
  | remapg
deriving DecidableEq, Repr

end Sys2Proof
end

