-- ==== Sys2Proof/WellFormed.lean ====
section
/-! DEFINITION. What makes a command word well formed (30_encoding.md R90 to R92): its RSV field is 0
and its OPC field is one of the four opcodes. A command carries no operand, so every `Instr` is well
formed; the checks are on words. -/

namespace Sys2Proof

/-- OPC, bits 7:0 of a command word (R90). -/
def opcField (w : Word) : BitVec 8 := w.extractLsb' 0 8

/-- RSV, bits 31:8 of a command word (R90). -/
def rsvField (w : Word) : BitVec 24 := w.extractLsb' 8 24

/-- The RSV field must be 0 (R91). -/
def rsvClear (w : Word) : Bool := rsvField w == 0#24

/-- The OPC field names one of the four commands (R92). -/
def opcKnown (w : Word) : Bool :=
  opcField w == 0x01#8 || opcField w == 0x02#8 || opcField w == 0x03#8 || opcField w == 0x04#8

/-- A command word is legal when both checks pass (R91, R92). -/
def wordWellFormed (w : Word) : Bool := rsvClear w && opcKnown w

/-- A command has no operand of its own that could be out of range (R90, R95): the check accepts each
constructor by name. -/
def Instr.wellFormed : Instr → Bool
  | .setbs => true
  | .repack => true
  | .remap32 => true
  | .remapg => true

end Sys2Proof
end

