-- ==== Sys2Proof/Decode.lean ====
section
/-! DEFINITION. The decoder of 30_encoding.md R93, total on 32-bit words and rejecting by name, and the
encoder of R92. -/

namespace Sys2Proof

/-- Why a word is no command: its RSV field is not 0 (R91), or its OPC field names none (R93). Both
are ILLEGAL_CMD to the unit (60_exceptions.md R202). -/
inductive DecodeError where
  | reservedBits
  | unknownOpcode
deriving DecidableEq, Repr

/-- The OPC field of each command (R92). -/
def opcOf : Instr → BitVec 8
  | .setbs => 0x01#8
  | .repack => 0x02#8
  | .remap32 => 0x03#8
  | .remapg => 0x04#8

/-- The command an OPC field names (R92). -/
def instrOfOpc (c : BitVec 8) : Option Instr :=
  if c = 0x01#8 then some .setbs
  else if c = 0x02#8 then some .repack
  else if c = 0x03#8 then some .remap32
  else if c = 0x04#8 then some .remapg
  else none

/-- R93: every word is one of the four commands or illegal. -/
def decode (w : Word) : Except DecodeError Instr :=
  if rsvField w = 0#24 then
    match instrOfOpc (opcField w) with
    | some i => .ok i
    | none => .error .unknownOpcode
  else .error .reservedBits

/-- The command word of a command: RSV 0 above its OPC (R90, R92). -/
def encode (i : Instr) : Word := (opcOf i).setWidth 32

/-- What the decoder reads from a row of the opcode table whose bits are `w`: the word's bits above
`nbits` are 0. -/
def decodeTableWord (nbits w : Nat) : Option Instr :=
  match decode (BitVec.ofNat 32 (w % 2 ^ nbits)) with
  | .ok i => some i
  | .error _ => none

end Sys2Proof
end

