-- ==== Sys2Proof/Machine/State.lean ====
section
/-! DEFINITION. The state of the machine as plain data: one DQBA unit (10_state.md), the data memory it
shares (20_memory.md R60), the OPEN parameters of the platform (00_scope.md R8), and the other agents
(R16): the host, the other instances, and the schedule that says who moves next (20_memory.md R74). -/

namespace Sys2Proof.Machine

/-- Three 16-bit components: a vertex latch or an anchor, k = 0 (x), 1 (y), 2 (z) (00_scope.md R15). -/
structure Vec3 where
  x : Half
  y : Half
  z : Half
deriving DecidableEq, Repr

/-- The sequencer phase PHASE (10_state.md R44). -/
inductive Phase where
  | idle
  | decode
  | sbWrite
  | rpCheck
  | rpRead (k : Fin 3)
  | rpBlock
  | rpAnchor (k : Fin 3)
  | rpEval
  | rpPack
  | rpRemap
  | rpPad
  | rmCheck
  | rmRdIdx
  | rmRdTbl
  | rmWrIdx
deriving DecidableEq, Repr

/-- The fields of STATUS (10_state.md R24). The reserved bits 7:4 and 31:12 read as 0 and are not
stored. -/
structure Status where
  /-- STATUS.BUSY, bit 0 (R25). -/
  busy : Bool
  /-- STATUS.DONE, bit 1 (R26). -/
  done : Bool
  /-- STATUS.ERR, bit 2 (R26). -/
  err : Bool
  /-- STATUS.CMD_LOST, bit 3 (R28). -/
  cmdLost : Bool
  /-- STATUS.ERRCODE, bits 11:8 (60_exceptions.md R200). -/
  errcode : BitVec 4
deriving DecidableEq, Repr

/-- One DQBA unit: its registers and its internal state (10_state.md R20 to R44). -/
structure Dqba where
  /-- UNIT_BASE of this unit's register window (00_scope.md R8, log 4); aligned to 0x40 in every machine of
  the spec (92_eei_decisions.md), which `Dqba.Inv` says. -/
  base : Word
  /-- STATUS (R24). -/
  status : Status
  /-- RESULT (R29). -/
  result : Word
  /-- BLOCK_SIZE (R27). -/
  blockSize : Word
  /-- ARG0 to ARG6 (R30). -/
  args : Vector Word 7
  /-- The block-anchor register ANCHOR (R40). -/
  anchor : Vec3
  /-- PHASE (R44). -/
  phase : Phase
  /-- LOPC, the accepted command word (R37). -/
  lopc : Word
  /-- L[0] to L[6], the latched operands (R37). -/
  latch : Vector Word 7
  /-- LBS, the latched block size (R38). -/
  lbs : Word
  /-- `i`, the vertex or element being processed (R39). -/
  i : Word
  /-- `p`, packed_index (R39). -/
  p : Word
  /-- `b`, block_index (R39). -/
  b : Word
  /-- The vertex latch V[0..2] (R41). -/
  v : Vec3
  /-- IV, the index value read (R42). -/
  iv : Word
  /-- TV, the remap-table entry read (R42). -/
  tv : Word
deriving DecidableEq, Repr

/-- A set of accesses the memory system refuses: those of this width whose address lies in lo..hi. A
list of these is MemOK (20_memory.md R66, log 3). -/
structure RefusedRange where
  lo : Nat
  hi : Nat
  width : Width
deriving DecidableEq, Repr

/-- The data memory: (address, byte) pairs in canonical form (`Memory.wf`). -/
abbrev Memory := List Host.Cell

/-- One step of the host or the platform (20_memory.md R78, 70_reset_and_hazards.md R230). -/
inductive HostAct where
  /-- A register-port read of `bytes` bytes at a host address (10_state.md R21). -/
  | regRead (addr : Word) (bytes : Nat)
  /-- A register-port write of `bytes` bytes at a host address (10_state.md R21). -/
  | regWrite (addr : Word) (bytes : Nat) (value : Word)
  /-- A read of `count` bytes of the data memory by the host's own means (10_state.md R35). -/
  | memRead (addr : Word) (count : Nat)
  /-- A write to the data memory by the host's own means (10_state.md R35). -/
  | memWrite (addr : Word) (bytes : List Byte)
  /-- The reset input of unit `k`: 0 is `unit`, k + 1 is `others[k]` (70_reset_and_hazards.md R230). -/
  | reset (k : Nat)
deriving DecidableEq, Repr

/-- One operation of an expanded host program (30_encoding.md R98): a 32-bit register write, a 32-bit
register read, or a branch on a bit of a register to another operation. -/
inductive HostOp where
  | wr (off : Nat) (value : Word)
  | rd (off : Nat)
  | bit (off : Nat) (n : Nat) (target : Nat)
deriving DecidableEq, Repr

/-- Who moves at a step (20_memory.md R74): unit `k` (0 is `unit`, k + 1 is `others[k]`), the host's
program, or a single host or platform action. -/
inductive Turn where
  | unit (k : Nat)
  | program
  | act (a : HostAct)
deriving DecidableEq, Repr

/-- The machine's state. -/
structure State where
  /-- The unit whose commands `exec` gives a meaning. -/
  unit : Dqba
  /-- The other DQBA instances on the same memory (60_exceptions.md R219, log 8). -/
  others : List Dqba
  /-- The data memory (20_memory.md R60). -/
  mem : Memory
  /-- MemOK as the accesses it refuses (20_memory.md R66, log 3). -/
  refused : List RefusedRange
  /-- The schedule: who moves at the next steps (20_memory.md R74, log 6). -/
  turns : List Turn
  /-- The host's program (30_encoding.md R97 to R100, log 11). -/
  program : List HostOp
  /-- The program operation that runs next. -/
  line : Nat
  /-- What host reads returned, oldest first (30_encoding.md R98, log 11). -/
  reads : List Nat
deriving DecidableEq, Repr

/-- Why a step stops the machine. The unit itself never stops: its errors are next states
(60_exceptions.md R206). -/
inductive Fault where
  /-- Raised by a meaning or the sequencer: the unit is busy in a phase its command does not have
  (or REMAPG is in its loop with a stride its start check refuses). No rule reaches such a state and
  none says what follows (10_state.md R44). Safe: the model stops (log 9). -/
  | noSuchPhase
  /-- Raised by a program operation whose offset lies outside the register window or whose bit number
  is above 31, which 30_encoding.md R98 gives no meaning. Safe: the model stops (log 11). -/
  | illFormedHostOp
deriving DecidableEq, Repr

/-- Why a step has no meaning. -/
inductive Refusal where
  /-- Raised by an arm of `exec` whose instruction has no meaning yet; no arm does. Safe. -/
  | notModelled (mnemonic : String)
deriving DecidableEq, Repr

/-- STATUS after reset: every field 0 (10_state.md R45). -/
def Status.reset : Status :=
  { busy := false, done := false, err := false, cmdLost := false, errcode := 0#4 }

/-- A unit after reset (10_state.md R45, 70_reset_and_hazards.md R230). LOPC, L, LBS, i, p, b, V, IV
and TV are unspecified there; the model names 0 (DESIGN CHOICE, log 5). UNIT_BASE is the platform's and
is no register. -/
def Dqba.afterReset (base : Word) : Dqba :=
  { base := base
    status := Status.reset
    result := 0#32
    blockSize := Config.blockSizeReset
    args := Vector.replicate 7 0#32
    anchor := { x := 0#16, y := 0#16, z := 0#16 }
    phase := .idle
    lopc := 0#32
    latch := Vector.replicate 7 0#32
    lbs := 0#32
    i := 0#32
    p := 0#32
    b := 0#32
    v := { x := 0#16, y := 0#16, z := 0#16 }
    iv := 0#32
    tv := 0#32 }

/-- The machine right after reset (10_state.md R45): the unit idle, memory with nothing listed. The OPEN
parameters and the other agents hold the values log 2, 3, 4, 6, 8 and 11 name. -/
def State.reset : State :=
  { unit := Dqba.afterReset 0#32
    others := []
    mem := []
    refused := []
    turns := []
    program := []
    line := 0
    reads := [] }

/-- Replace the unit. -/
def State.withUnit (s : State) (u : Dqba) : State := { s with unit := u }

/-- Replace the data memory. -/
def State.withMem (s : State) (m : Memory) : State := { s with mem := m }

/-- Replace the other instances. -/
def State.withOthers (s : State) (us : List Dqba) : State := { s with others := us }

/-- Replace the schedule. -/
def State.withTurns (s : State) (ts : List Turn) : State := { s with turns := ts }

/-- Move the host program to an operation. -/
def State.withLine (s : State) (n : Nat) : State := { s with line := n }

/-- Record the value a host read returned. -/
def State.logRead (s : State) (v : Nat) : State := { s with reads := s.reads ++ [v] }

end Sys2Proof.Machine
end

