-- ==== Sys2Proof/Machine/Flags.lean ====
section
/-! DEFINITION. STATUS: the word the host reads and every transition of its fields (10_state.md R24 to
R28, 60_exceptions.md R200, R205, R206). -/

namespace Sys2Proof.Machine

/-- The errors that end a command (60_exceptions.md R200). -/
inductive Error where
  | capacity
  | illegalCmd
  | badBlockSize
  | badStride
  | misaligned
  | busError
deriving DecidableEq, Repr

/-- The ERRCODE of an error (60_exceptions.md R200). -/
def Error.code : Error → BitVec 4
  | .capacity => 1#4
  | .illegalCmd => 2#4
  | .badBlockSize => 3#4
  | .badStride => 4#4
  | .misaligned => 5#4
  | .busError => 6#4

/-- STATUS as a register read gives it: each field at its bits, every other bit 0 (10_state.md R24). -/
def Status.word (st : Status) : Word :=
  (BitVec.ofBool st.busy).setWidth 32 |||
    (BitVec.ofBool st.done).setWidth 32 <<< 1 |||
    (BitVec.ofBool st.err).setWidth 32 <<< 2 |||
    (BitVec.ofBool st.cmdLost).setWidth 32 <<< 3 |||
    st.errcode.setWidth 32 <<< 8

/-- Acceptance sets BUSY and clears every other field (10_state.md R23). -/
def Status.accepted : Status :=
  { busy := true, done := false, err := false, cmdLost := false, errcode := 0#4 }

/-- A CMD write while BUSY sets CMD_LOST and nothing else (10_state.md R23, R28). -/
def Status.lost (st : Status) : Status := { st with cmdLost := true }

/-- Successful completion: BUSY 0, DONE 1, ERR and ERRCODE 0 (60_exceptions.md R205, log 14). -/
def Status.completed (st : Status) : Status :=
  { st with busy := false, done := true, err := false, errcode := 0#4 }

/-- Error completion: BUSY 0, DONE 1, ERR 1, ERRCODE the code (60_exceptions.md R206). -/
def Status.failed (st : Status) (e : Error) : Status :=
  { st with busy := false, done := true, err := true, errcode := e.code }

end Sys2Proof.Machine
end

