-- ==== Sys2Proof/Machine/Ops.lean ====
section
/-! DEFINITION. The operations the meanings share: bytes of the data memory (20_memory.md R60, R61), the
memory port with its admission check (R66), the end of a command by completion or by error
(60_exceptions.md R205, R206), and the acceptance of a command (10_state.md R23). -/

namespace Sys2Proof.Machine

/-! ## Three-component values -/

/-- Component `k` (00_scope.md R15). -/
def Vec3.get (v : Vec3) : Fin 3 → Half
  | 0 => v.x
  | 1 => v.y
  | 2 => v.z

/-- Replace component `k`. -/
def Vec3.set (v : Vec3) (k : Fin 3) (h : Half) : Vec3 :=
  match k with
  | 0 => { v with x := h }
  | 1 => { v with y := h }
  | 2 => { v with z := h }

/-! ## The data memory -/

/-- What a byte that no cell lists reads as (DESIGN CHOICE, log 2: the initial contents are OPEN,
00_scope.md R8). -/
def Memory.unlisted : Byte := 0#8

/-- The canonical form: addresses strictly rising, each below 2^32, no cell equal to what an unlisted
address reads as. -/
abbrev Memory.wf (m : Memory) : Prop :=
  m.Pairwise (fun c d => c.1 < d.1) ∧
    ∀ c ∈ m, c.1 < Config.memoryBytes ∧ c.2 ≠ Memory.unlisted

/-- The byte at an address. -/
def Memory.readByte : Memory → Nat → Byte
  | [], _ => Memory.unlisted
  | (k, b) :: rest, a => if k = a then b else Memory.readByte rest a

/-- Remove an address, so that it reads as unlisted. -/
def Memory.erase (m : Memory) (a : Nat) : Memory := m.filter (fun c => c.1 ≠ a)

/-- Put a cell before the first cell with a larger address. -/
def Memory.insert : Memory → Nat → Byte → Memory
  | [], a, v => [(a, v)]
  | (k, b) :: rest, a, v =>
    if a < k then (a, v) :: (k, b) :: rest else (k, b) :: Memory.insert rest a v

/-- Write one byte, keeping the canonical form. -/
def Memory.writeByte (m : Memory) (a : Nat) (v : Byte) : Memory :=
  if v = Memory.unlisted then m.erase a else (m.erase a).insert a v

/-- `n` bytes from address `a` up, each address mod 2^32 (20_memory.md R61, R64). -/
def Memory.readBytes (m : Memory) (a : Nat) : Nat → List Byte
  | 0 => []
  | n + 1 => m.readByte (a % Config.memoryBytes) :: m.readBytes (a + 1) n

/-- Write bytes from address `a` up, each address mod 2^32 (20_memory.md R61, R64). -/
def Memory.writeBytes (m : Memory) (a : Nat) : List Byte → Memory
  | [] => m
  | v :: vs => (m.writeByte (a % Config.memoryBytes) v).writeBytes (a + 1) vs

/-- The number little-endian bytes stand for: the first is bits 7:0 (20_memory.md R61). -/
def leValue : List Byte → Nat
  | [] => 0
  | v :: vs => v.toNat + 256 * leValue vs

/-- The low `n` bytes of a number, least significant first (20_memory.md R61). -/
def leBytes : Nat → Nat → List Byte
  | 0, _ => []
  | n + 1, v => BitVec.ofNat 8 v :: leBytes n (v / 256)

/-- The bytes an access moves (20_memory.md R62). -/
def Width.bytes : Width → Nat
  | .half => 2
  | .word => 4

/-- MemRead's value: `w` bytes at `a`, little-endian, widened with zeros to 32 bits (00_scope.md R12). -/
def Memory.load (m : Memory) (a : Word) (w : Width) : Word :=
  BitVec.ofNat 32 (leValue (m.readBytes a.toNat (Width.bytes w)))

/-- MemWrite's effect: the low bits of `v` to `w` bytes at `a`, little-endian (00_scope.md R12). -/
def Memory.store (m : Memory) (a : Word) (w : Width) (v : Word) : Memory :=
  m.writeBytes a.toNat (leBytes (Width.bytes w) v.toNat)

/-! ## Admission -/

/-- One range refuses the access. -/
def RefusedRange.hits (r : RefusedRange) (a : Word) (w : Width) : Bool :=
  r.width == w && decide (r.lo ≤ a.toNat) && decide (a.toNat ≤ r.hi)

/-- MemOK(addr, n): no range of the list refuses the access (20_memory.md R66, log 3). -/
def memOK (rs : List RefusedRange) (a : Word) (w : Width) : Bool := !rs.any (fun r => r.hits a w)

/-! ## The end of a command -/

/-- Move the sequencer to a phase (00_scope.md R13). -/
def State.goto (s : State) (ph : Phase) : State := s.withUnit { s.unit with phase := ph }

/-- `complete(r)`: successful completion in one step (60_exceptions.md R205). RESULT receives a REPACK's
`p`; the other commands complete with none and leave RESULT unchanged. -/
def complete (r : Option Word) (s : State) : State :=
  s.withUnit
    { s.unit with
      phase := .idle
      status := s.unit.status.completed
      result := r.getD s.unit.result }

/-- RESULT after an error: the failure sentinel for REPACK, unchanged for every other command and for
an illegal word (42_repack.md R152, 60_exceptions.md R206). -/
def failureResult (cmd : Option Instr) (old : Word) : Word :=
  match cmd with
  | some .repack => Config.failureSentinel
  | some .setbs => old
  | some .remap32 => old
  | some .remapg => old
  | none => old

/-- `raise E`: error completion in one step (60_exceptions.md R206). This is all the unit has for an
exception: no state is saved, no handler runs, and there is no return from it (R206, R212). -/
def raiseError (cmd : Option Instr) (e : Error) (s : State) : State :=
  s.withUnit
    { s.unit with
      phase := .idle
      status := s.unit.status.failed e
      result := failureResult cmd s.unit.result }

/-! ## The memory port -/

/-- A read by the unit: admitted, it hands the value on; refused, the command ends with BUS_ERROR and
nothing is read (20_memory.md R66, 60_exceptions.md R208). -/
def portRead (cmd : Instr) (a : Word) (w : Width) (s : State) (next : Word → State) : State :=
  if memOK s.refused a w then next (s.mem.load a w) else raiseError (some cmd) .busError s

/-- A write by the unit: admitted, it is performed and the state with it handed on; refused, the command
ends with BUS_ERROR and nothing is written (20_memory.md R66, 60_exceptions.md R208). -/
def portWrite (cmd : Instr) (a : Word) (w : Width) (v : Word) (s : State) (next : State → State) :
    State :=
  if memOK s.refused a w then next (s.withMem (s.mem.store a w v)) else raiseError (some cmd) .busError s

/-! ## Acceptance of a command -/

/-- A CMD write while BUSY is 0 is accepted: the word, the operands and the block size are latched and
the sequencer goes to DECODE (10_state.md R23, R37, R38). -/
def Dqba.accept (u : Dqba) (w : Word) : Dqba :=
  { u with
    lopc := w
    latch := u.args
    lbs := u.blockSize
    status := Status.accepted
    phase := .decode }

/-- A CMD write: accepted while BUSY is 0, dropped while BUSY is 1 (10_state.md R23). -/
def Dqba.writeCmd (u : Dqba) (w : Word) : Dqba :=
  if u.status.busy then { u with status := u.status.lost } else u.accept w

end Sys2Proof.Machine
end

