-- ==== Sys2Proof/Machine/Operands.lean ====
section
/-! DEFINITION. The operands each command reads from the latches (30_encoding.md R95) and the element
addresses computed from them (20_memory.md R65). -/

namespace Sys2Proof.Machine

/-! ## Operands: the latch each command reads (R95) -/

/-- SETBS `size` = L[0]. -/
abbrev Dqba.sbSize (u : Dqba) : Word := u.latch[0]

/-- REPACK, REMAP32, REMAPG `n` = L[0]. -/
abbrev Dqba.count (u : Dqba) : Word := u.latch[0]

/-- REPACK `in` = L[1]. -/
abbrev Dqba.rpIn (u : Dqba) : Word := u.latch[1]

/-- REPACK `anc` = L[2]. -/
abbrev Dqba.rpAnc (u : Dqba) : Word := u.latch[2]

/-- REPACK `pk` = L[3]. -/
abbrev Dqba.rpPk (u : Dqba) : Word := u.latch[3]

/-- REPACK `rm` = L[4]. -/
abbrev Dqba.rpRm (u : Dqba) : Word := u.latch[4]

/-- REPACK `stride` = L[5], a count of 16-bit components. -/
abbrev Dqba.rpStride (u : Dqba) : Word := u.latch[5]

/-- REPACK `max` = L[6], a count of slots. -/
abbrev Dqba.rpMax (u : Dqba) : Word := u.latch[6]

/-- REMAP32, REMAPG `idx` = L[1]. -/
abbrev Dqba.rmIdx (u : Dqba) : Word := u.latch[1]

/-- REMAP32, REMAPG `tbl` = L[2]. -/
abbrev Dqba.rmTbl (u : Dqba) : Word := u.latch[2]

/-- REMAPG `istride` = L[3], in bytes. -/
abbrev Dqba.rmStride (u : Dqba) : Word := u.latch[3]

/-- The access width a legal `istride` selects: 2 or 4 bytes, nothing else (43_remap.md R172). -/
def strideWidth (istride : Word) : Option Width :=
  if istride = 2#32 then some .half else if istride = 4#32 then some .word else none

/-- An address is a multiple of `n` (20_memory.md R63). -/
def aligned (a : Word) (n : Nat) : Bool := a.toNat % n == 0

/-! ## Element addresses: integers reduced mod 2^32 (20_memory.md R64, R65) -/

/-- Component `k` of input vertex `i`. -/
def Dqba.inputAddr (u : Dqba) (i k : Nat) : Word :=
  BitVec.ofNat 32 (u.rpIn.toNat + 2 * (i * u.rpStride.toNat + k))

/-- Component `k` of anchor `b`. -/
def Dqba.anchorAddr (u : Dqba) (b k : Nat) : Word :=
  BitVec.ofNat 32 (u.rpAnc.toNat + 2 * (3 * b + k))

/-- Packed slot `p`. -/
def Dqba.packedAddr (u : Dqba) (p : Nat) : Word := BitVec.ofNat 32 (u.rpPk.toNat + 4 * p)

/-- Remap-out entry of vertex `i`. -/
def Dqba.remapAddr (u : Dqba) (i : Nat) : Word := BitVec.ofNat 32 (u.rpRm.toNat + 4 * i)

/-- Index element `i` of width `w`. -/
def Dqba.indexAddr (u : Dqba) (w : Width) (i : Nat) : Word :=
  BitVec.ofNat 32 (u.rmIdx.toNat + Width.bytes w * i)

/-- Remap-table entry for index value `v`. -/
def Dqba.tableAddr (u : Dqba) (v : Nat) : Word := BitVec.ofNat 32 (u.rmTbl.toNat + 4 * v)

end Sys2Proof.Machine
end

