-- ==== Sys2Proof/Machine/Datapath.lean ====
section
/-! DEFINITION. The delta datapath (41_delta_datapath.md): the saturating subtractor, the range
comparator, the overflow detector, the word packer, and the inverse of the packer that R131 states. -/

namespace Sys2Proof.Machine

/-- `clamp(v, lo, hi)` (00_scope.md R10). -/
def clamp (v lo hi : Int) : Int := if v < lo then lo else if hi < v then hi else v

/-- SUB16S, the 16-bit saturating subtractor: the exact difference clamped to the s16 range (R121). -/
def sub16s (c a : Half) : Int := clamp ((c.toNat : Int) - (a.toNat : Int)) (-32768) 32767

/-- DELTA, the biased delta of one axis (R122). -/
def delta (c a : Half) : Int := Config.deltaBias + sub16s c a

/-- INRANGE, the range comparator of one axis (R123). -/
def inRange (d : Int) : Bool := decide (0 ≤ d) && decide (d ≤ Config.deltaMax)

/-- OVF, the overflow detector of one vertex: some axis is out of range (R125). -/
def ovf (v a : Vec3) : Bool :=
  !(inRange (delta v.x a.x) && inRange (delta v.y a.y) && inRange (delta v.z a.z))

/-- One delta as a 32-bit value before it is shifted into its field (R126). -/
def fieldWord (d : Int) : Word := BitVec.ofNat 32 d.toNat

/-- PACKW, the packed word of three deltas (R126). -/
def packw (dx dy dz : Int) : Word :=
  (fieldWord dx <<< 22) ||| (fieldWord dy <<< 12) ||| (fieldWord dz <<< 2)

/-- The word of a vertex against an anchor, used when OVF is false (R120, 42_repack.md R148). -/
def vertexWord (v a : Vec3) : Word := packw (delta v.x a.x) (delta v.y a.y) (delta v.z a.z)

/-- The x, y and z fields of a packed word, bits 31:22, 21:12 and 11:2 (R126). -/
def xField (w : Word) : BitVec 10 := w.extractLsb' 22 10

/-- See `xField`. -/
def yField (w : Word) : BitVec 10 := w.extractLsb' 12 10

/-- See `xField`. -/
def zField (w : Word) : BitVec 10 := w.extractLsb' 2 10

/-- The inverse of the packer on one axis: anchor component plus field minus 512 (R131). The unit never
decodes; the external decoder does. -/
def decodeAxis (a : Half) (f : BitVec 10) : Int := (a.toNat : Int) + (f.toNat : Int) - Config.deltaBias

end Sys2Proof.Machine
end

