-- ==== Sys2Proof/Machine/BlockSize.lean ====
section
/-! DEFINITION. SETBS (40_block_size.md R110). -/

namespace Sys2Proof.Machine

/-- Phase SB_WRITE: BLOCK_SIZE takes the operand unchanged and the command completes (R110). -/
def setBlockSize (s : State) : State :=
  complete none (s.withUnit { s.unit with blockSize := s.unit.sbSize })

/-- SETBS, one unit step: DECODE goes to SB_WRITE (30_encoding.md R93), SB_WRITE is R110. -/
def execSetbs (s : State) : Host.Outcome State Fault Refusal :=
  match s.unit.phase with
  | .decode => .next (s.goto .sbWrite)
  | .sbWrite => .next (setBlockSize s)
  | .idle | .rpCheck | .rpRead _ | .rpBlock | .rpAnchor _ | .rpEval | .rpPack | .rpRemap | .rpPad
  | .rmCheck | .rmRdIdx | .rmRdTbl | .rmWrIdx => .fault .noSuchPhase

end Sys2Proof.Machine
end

