-- ==== Sys2Proof/Machine/Remap.lean ====
section
/-! DEFINITION. REMAP32 and REMAPG (43_remap.md R170, R171): the steps they share, with the command and
the element width as arguments, and one meaning each. Each phase is one unit step (log 1). -/

namespace Sys2Proof.Machine

/-- The loop starts: element 0, phase RM_CHECK. -/
def remapBegin (s : State) : State := s.withUnit { s.unit with i := 0#32, phase := .rmCheck }

/-- RM_CHECK: the command completes when every element is done; RESULT unchanged (R170, R171). -/
def remapCheck (s : State) : State :=
  if s.unit.i = s.unit.count then complete none s else s.goto .rmRdIdx

/-- RM_RDIDX: the index value of element `i`, widened with zeros, into IV (R170, R171). -/
def remapReadIndex (cmd : Instr) (w : Width) (s : State) : State :=
  let u := s.unit
  portRead cmd (u.indexAddr w u.i.toNat) w s fun x => s.withUnit { u with iv := x, phase := .rmRdTbl }

/-- RM_RDTBL: the table entry of IV into TV, without a range check (R173). -/
def remapReadTable (cmd : Instr) (s : State) : State :=
  let u := s.unit
  portRead cmd (u.tableAddr u.iv.toNat) .word s fun x =>
    s.withUnit { u with tv := x, phase := .rmWrIdx }

/-- The value written back: the whole entry to a 32-bit element, its low 16 bits to a 16-bit one
(R174). -/
def narrow (w : Width) (tv : Word) : Word :=
  match w with
  | .half => (tv.setWidth 16).setWidth 32
  | .word => tv

/-- RM_WRIDX: the entry over the index, then the next element (R170, R171, R174). -/
def remapWriteIndex (cmd : Instr) (w : Width) (s : State) : State :=
  let u := s.unit
  portWrite cmd (u.indexAddr w u.i.toNat) w (narrow w u.tv) s fun t =>
    t.withUnit { t.unit with i := u.i + 1#32, phase := .rmCheck }

/-- REMAP32_START: the alignment check (R170). -/
def remap32Start (s : State) : State :=
  if !aligned s.unit.rmIdx 4 || !aligned s.unit.rmTbl 4 then raiseError (some .remap32) .misaligned s
  else remapBegin s

/-- REMAPG_START: the stride check, then the alignment check (R171, R172). -/
def remapgStart (s : State) : State :=
  match strideWidth s.unit.rmStride with
  | none => raiseError (some .remapg) .badStride s
  | some w =>
    if !aligned s.unit.rmIdx (Width.bytes w) || !aligned s.unit.rmTbl 4 then
      raiseError (some .remapg) .misaligned s
    else remapBegin s

/-- REMAP32, one unit step (R170). -/
def execRemap32 (s : State) : Host.Outcome State Fault Refusal :=
  match s.unit.phase with
  | .decode => .next (remap32Start s)
  | .rmCheck => .next (remapCheck s)
  | .rmRdIdx => .next (remapReadIndex .remap32 .word s)
  | .rmRdTbl => .next (remapReadTable .remap32 s)
  | .rmWrIdx => .next (remapWriteIndex .remap32 .word s)
  | .idle | .sbWrite | .rpCheck | .rpRead _ | .rpBlock | .rpAnchor _ | .rpEval | .rpPack | .rpRemap
  | .rpPad => .fault .noSuchPhase

/-- An access of REMAPG's loop at the width its stride selects. The start check has refused every other
stride, so a loop phase with one is a state no rule reaches (R172, log 9). -/
def atStride (s : State) (f : Width → State) : Host.Outcome State Fault Refusal :=
  match strideWidth s.unit.rmStride with
  | some w => .next (f w)
  | none => .fault .noSuchPhase

/-- REMAPG, one unit step (R171). -/
def execRemapg (s : State) : Host.Outcome State Fault Refusal :=
  match s.unit.phase with
  | .decode => .next (remapgStart s)
  | .rmCheck => .next (remapCheck s)
  | .rmRdIdx => atStride s fun w => remapReadIndex .remapg w s
  | .rmRdTbl => .next (remapReadTable .remapg s)
  | .rmWrIdx => atStride s fun w => remapWriteIndex .remapg w s
  | .idle | .sbWrite | .rpCheck | .rpRead _ | .rpBlock | .rpAnchor _ | .rpEval | .rpPack | .rpRemap
  | .rpPad => .fault .noSuchPhase

end Sys2Proof.Machine
end

