-- ==== Sys2Proof/Machine/Repack.lean ====
section
/-! DEFINITION. REPACK (42_repack.md R140), one definition per phase of its pseudocode. Each phase is one
unit step and none is folded into the next (log 1). -/

namespace Sys2Proof.Machine

/-- `raise E` in REPACK: RESULT takes the failure sentinel (R152). -/
def repackFail (e : Error) (s : State) : State := raiseError (some .repack) e s

/-- The phase after the read of component `k` (R144). -/
def afterRead : Fin 3 → Phase
  | 0 => .rpRead 1
  | 1 => .rpRead 2
  | 2 => .rpBlock

/-- The phase after the store of anchor component `k` (R146). -/
def afterAnchor : Fin 3 → Phase
  | 0 => .rpAnchor 1
  | 1 => .rpAnchor 2
  | 2 => .rpEval

/-- `p mod BS == 0`: slot `p` is the first of a block (R145, R149). -/
def Dqba.atBlockStart (u : Dqba) : Bool := u.p.toNat % u.lbs.toNat == 0

/-- REPACK_START, from DECODE: the start checks, then the counters (R141, R142). -/
def repackStart (s : State) : State :=
  let u := s.unit
  if u.lbs.toInt ≤ 0 then repackFail .badBlockSize s
  else if !aligned u.rpIn 2 || !aligned u.rpAnc 2 then repackFail .misaligned s
  else if !aligned u.rpPk 4 || !aligned u.rpRm 4 then repackFail .misaligned s
  else s.withUnit { u with i := 0#32, p := 0#32, b := Config.noBlock, phase := .rpCheck }

/-- RP_CHECK: success when every vertex is packed, CAPACITY when no slot is left (R151, R143). -/
def repackCheck (s : State) : State :=
  let u := s.unit
  if u.i = u.count then complete (some u.p) s
  else if u.rpMax.toNat ≤ u.p.toNat then repackFail .capacity s
  else s.goto (.rpRead 0)

/-- RP_READ(k): component `k` of vertex `i` into the vertex latch (R144). -/
def repackRead (k : Fin 3) (s : State) : State :=
  let u := s.unit
  portRead .repack (u.inputAddr u.i.toNat k) .half s fun c =>
    s.withUnit { u with v := u.v.set k (c.setWidth 16), phase := afterRead k }

/-- RP_BLOCK: at the first slot of a block, `b` advances and ANCHOR takes the vertex (R145,
41_delta_datapath.md R129). -/
def repackBlock (s : State) : State :=
  let u := s.unit
  if u.atBlockStart then s.withUnit { u with b := u.b + 1#32, anchor := u.v, phase := .rpAnchor 0 }
  else s.goto .rpEval

/-- RP_ANCHOR(k): component `k` of ANCHOR to the anchors buffer (R146). -/
def repackAnchor (k : Fin 3) (s : State) : State :=
  let u := s.unit
  portWrite .repack (u.anchorAddr u.b.toNat k) .half ((u.anchor.get k).setWidth 32) s fun t =>
    t.goto (afterAnchor k)

/-- RP_EVAL: OVF selects padding or packing (R147). -/
def repackEval (s : State) : State :=
  if ovf s.unit.v s.unit.anchor then s.goto .rpPad else s.goto .rpPack

/-- RP_PACK: the vertex's word to slot `p` (R148). -/
def repackPack (s : State) : State :=
  let u := s.unit
  portWrite .repack (u.packedAddr u.p.toNat) .word (vertexWord u.v u.anchor) s fun t =>
    t.goto .rpRemap

/-- RP_REMAP: `p` to the remap entry of vertex `i`, then both advance (R148). -/
def repackRemap (s : State) : State :=
  let u := s.unit
  portWrite .repack (u.remapAddr u.i.toNat) .word u.p s fun t =>
    t.withUnit { t.unit with p := u.p + 1#32, i := u.i + 1#32, phase := .rpCheck }

/-- RP_PAD: the block closed, the vertex is retried; else one padding word, capacity permitting (R149,
R150). -/
def repackPad (s : State) : State :=
  let u := s.unit
  if u.atBlockStart then s.goto .rpCheck
  else if u.rpMax.toNat ≤ u.p.toNat then repackFail .capacity s
  else
    portWrite .repack (u.packedAddr u.p.toNat) .word Config.padWord s fun t =>
      t.withUnit { t.unit with p := u.p + 1#32 }

/-- REPACK, one unit step (R140). -/
def execRepack (s : State) : Host.Outcome State Fault Refusal :=
  match s.unit.phase with
  | .decode => .next (repackStart s)
  | .rpCheck => .next (repackCheck s)
  | .rpRead k => .next (repackRead k s)
  | .rpBlock => .next (repackBlock s)
  | .rpAnchor k => .next (repackAnchor k s)
  | .rpEval => .next (repackEval s)
  | .rpPack => .next (repackPack s)
  | .rpRemap => .next (repackRemap s)
  | .rpPad => .next (repackPad s)
  | .idle | .sbWrite | .rmCheck | .rmRdIdx | .rmRdTbl | .rmWrIdx => .fault .noSuchPhase

end Sys2Proof.Machine
end

