-- ==== Sys2Proof/Machine/Dispatch.lean ====
section
/-! DEFINITION. The meaning of each command: one unit step of it in the phase the sequencer is in. -/

namespace Sys2Proof.Machine

def exec (i : Instr) (s : State) : Host.Outcome State Fault Refusal :=
  match i with
  | .setbs => Sys2Proof.Machine.execSetbs s
  | .repack => Sys2Proof.Machine.execRepack s
  | .remap32 => Sys2Proof.Machine.execRemap32 s
  | .remapg => Sys2Proof.Machine.execRemapg s

end Sys2Proof.Machine
end

