-- ==== Sys2Proof/Machine/RegisterWindow.lean ====
section
/-! DEFINITION. The register window of one unit as the host sees it (10_state.md R20 to R31). -/

namespace Sys2Proof.Machine

/-- The registers of the window (R20). -/
inductive Reg where
  | cmd
  | status
  | result
  | blockSize
  | arg (k : Fin 7)
  | anchorXY
  | anchorZ
deriving DecidableEq, Repr

/-- The byte offset of a register (R20). -/
def Reg.offset : Reg → Nat
  | .cmd => 0x00
  | .status => 0x04
  | .result => 0x08
  | .blockSize => 0x0C
  | .arg k => 0x10 + 4 * k.val
  | .anchorXY => 0x2C
  | .anchorZ => 0x30

/-- The register at an offset; none at the reserved offsets and at offsets that are no multiple of 4
(R20, R22). -/
def regAt (off : Nat) : Option Reg :=
  match off with
  | 0x00 => some .cmd
  | 0x04 => some .status
  | 0x08 => some .result
  | 0x0C => some .blockSize
  | 0x10 => some (.arg 0)
  | 0x14 => some (.arg 1)
  | 0x18 => some (.arg 2)
  | 0x1C => some (.arg 3)
  | 0x20 => some (.arg 4)
  | 0x24 => some (.arg 5)
  | 0x28 => some (.arg 6)
  | 0x2C => some .anchorXY
  | 0x30 => some .anchorZ
  | _ => none

/-- What a 32-bit read of a register returns: CMD 0 (R23), STATUS (R24), RESULT (R29), BLOCK_SIZE (R27),
ARGk (R30), ANCHOR_XY and ANCHOR_Z (R31). -/
def Dqba.readReg (u : Dqba) : Reg → Word
  | .cmd => 0#32
  | .status => u.status.word
  | .result => u.result
  | .blockSize => u.blockSize
  | .arg k => u.args[k]
  | .anchorXY => u.anchor.y.setWidth 32 <<< 16 ||| u.anchor.x.setWidth 32
  | .anchorZ => u.anchor.z.setWidth 32

/-- What a 32-bit write of a register does: CMD starts a command or loses it (R23), ARGk takes the value
(R30), every other register ignores it (R21). -/
def Dqba.writeReg (u : Dqba) (r : Reg) (v : Word) : Dqba :=
  match r with
  | .cmd => u.writeCmd v
  | .arg k => { u with args := u.args.set k v }
  | .status => u
  | .result => u
  | .blockSize => u
  | .anchorXY => u
  | .anchorZ => u

/-- A register-port read of `bytes` bytes at an offset: any access but an aligned 32-bit one returns 0,
and so does a reserved offset (R21, R22). -/
def Dqba.windowRead (u : Dqba) (off bytes : Nat) : Word :=
  if bytes = 4 then
    match regAt off with
    | some r => u.readReg r
    | none => 0#32
  else 0#32

/-- A register-port write of `bytes` bytes at an offset: any access but an aligned 32-bit one is ignored,
and so is a reserved offset (R21, R22). -/
def Dqba.windowWrite (u : Dqba) (off bytes : Nat) (v : Word) : Dqba :=
  if bytes = 4 then
    match regAt off with
    | some r => u.writeReg r v
    | none => u
  else u

/-- The offset a host address has in this unit's window of 0x40 bytes at UNIT_BASE, if it lies there
(R20). UNIT_BASE is aligned to 0x40 (92_eei_decisions.md), so the window does not wrap. -/
def Dqba.offsetOf (u : Dqba) (a : Word) : Option Nat :=
  if (a - u.base).toNat < Config.windowBytes then some (a - u.base).toNat else none

end Sys2Proof.Machine
end

