-- ==== Sys2Proof/Machine/HostAgent.lean ====
section
/-! DEFINITION. The host as an agent (20_memory.md R78): single actions on the register windows, the
memory and the reset inputs, and the operations of a host program (30_encoding.md R98). -/

namespace Sys2Proof.Machine

/-! ## The host's bus -/

/-- The value the unit whose window holds the address returns; none where no unit's window does. -/
def readWindows (a : Word) (bytes : Nat) : List Dqba → Option Word
  | [] => none
  | u :: us =>
    match u.offsetOf a with
    | some off => some (u.windowRead off bytes)
    | none => readWindows a bytes us

/-- The write reaches the first unit whose window holds the address, and no other (log 12). -/
def writeWindows (a : Word) (bytes : Nat) (v : Word) : List Dqba → List Dqba
  | [] => []
  | u :: us =>
    match u.offsetOf a with
    | some off => u.windowWrite off bytes v :: us
    | none => u :: writeWindows a bytes v us

/-- A host register read: the value is recorded and nothing else changes (10_state.md R21). An address
in no window is no access to a DQBA (log 12). -/
def State.busRead (s : State) (a : Word) (bytes : Nat) : State :=
  match readWindows a bytes (s.unit :: s.others) with
  | some v => s.logRead v.toNat
  | none => s

/-- A host register write. -/
def State.busWrite (s : State) (a : Word) (bytes : Nat) (v : Word) : State :=
  match s.unit.offsetOf a with
  | some off => s.withUnit (s.unit.windowWrite off bytes v)
  | none => s.withOthers (writeWindows a bytes v s.others)

/-! ## Reset -/

/-- The reset input of a unit (70_reset_and_hazards.md R230): its state takes the reset values, its
window stays where it is, a command in flight is abandoned (R231). -/
def Dqba.doReset (u : Dqba) : Dqba := Dqba.afterReset u.base

/-- Reset of unit `k`: memory, the other units and the host keep their state (R232, 60_exceptions.md
R219). -/
def State.resetUnit (s : State) : Nat → State
  | 0 => s.withUnit s.unit.doReset
  | k + 1 => s.withOthers (s.others.modify k Dqba.doReset)

/-! ## Single actions -/

/-- One host or platform action (20_memory.md R78). Host accesses to the data memory are atomic steps
and are not subject to the unit's MemOK (R66, R74, log 13). -/
def hostAct (a : HostAct) (s : State) : State :=
  match a with
  | .regRead addr bytes => s.busRead addr bytes
  | .regWrite addr bytes v => s.busWrite addr bytes v
  | .memRead addr n => s.logRead (leValue (s.mem.readBytes addr.toNat n))
  | .memWrite addr vs => s.withMem (s.mem.writeBytes addr.toNat vs)
  | .reset k => s.resetUnit k

/-! ## Programs -/

/-- An operation the spec gives a meaning: its offset lies in the window, its bit number in a 32-bit
register (30_encoding.md R98). -/
def HostOp.wellFormed : HostOp → Bool
  | .wr off _ => decide (off < Config.windowBytes)
  | .rd off => decide (off < Config.windowBytes)
  | .bit off n _ => decide (off < Config.windowBytes) && decide (n < 32)

/-- The host address of an offset of the unit's window (30_encoding.md R98). -/
def State.windowAddr (s : State) (off : Nat) : Word := s.unit.base + BitVec.ofNat 32 off

/-- The effect of one well-formed operation (30_encoding.md R98). `wr` and `rd` go on to the next line,
`bit` to its target when the bit is 1. -/
def hostOp (op : HostOp) (s : State) : State :=
  match op with
  | .wr off v => (s.busWrite (s.windowAddr off) 4 v).withLine (s.line + 1)
  | .rd off => (s.busRead (s.windowAddr off) 4).withLine (s.line + 1)
  | .bit off n target =>
    if (s.unit.windowRead off 4).getLsbD n then s.withLine target else s.withLine (s.line + 1)

/-- The host runs the next line of its program; after the last line it has ended and does nothing
(30_encoding.md R98). An operation that is not well formed stops the model (log 11). -/
def hostLine (s : State) : Host.Outcome State Fault Refusal :=
  match s.program[s.line]? with
  | some op => if op.wellFormed then .next (hostOp op s) else .fault .illFormedHostOp
  | none => .next s

end Sys2Proof.Machine
end

