-- ==== Sys2Proof/Machine/Sequencer.lean ====
section
/-! DEFINITION. One step of a unit (30_encoding.md R93) and of the whole machine: whose turn it is and
what that agent does (20_memory.md R74, 60_exceptions.md R219). -/

namespace Sys2Proof.Machine

/-- An accepted word that is no command: ILLEGAL_CMD, no memory access, RESULT, BLOCK_SIZE and ANCHOR
unchanged (30_encoding.md R93, 60_exceptions.md R202). -/
def illegalCommand (s : State) : State := raiseError none .illegalCmd s

/-- One step of the unit: while BUSY the sequencer runs one phase of the accepted command (10_state.md
R25), and an idle unit takes no step (60_exceptions.md R221, log 7). -/
def unitStep (s : State) : Host.Outcome State Fault Refusal :=
  if s.unit.status.busy then
    match decode s.unit.lopc with
    | .ok i => exec i s
    | .error _ => if s.unit.phase = .decode then .next (illegalCommand s) else .fault .noSuchPhase
  else .next s

/-- Apply a function to the next state, if there is one. -/
def mapNext (f : State → State) :
    Host.Outcome State Fault Refusal → Host.Outcome State Fault Refusal
  | .next s => .next (f s)
  | .fault r => .fault r
  | .refused r => .refused r

/-- Exchange `unit` with `others[k]`; the state as it is where there is no such instance. Applied twice
it changes nothing. -/
def State.swapWith (s : State) (k : Nat) : State :=
  match s.others[k]? with
  | some u => { s with unit := u, others := s.others.set k s.unit }
  | none => s

/-- One step of unit `k`: the same step over the instance's own registers and the shared memory
(60_exceptions.md R219). A number that names no unit takes no step. -/
def stepUnit (k : Nat) (s : State) : Host.Outcome State Fault Refusal :=
  match k with
  | 0 => unitStep s
  | k + 1 =>
    if k < s.others.length then mapNext (fun t => t.swapWith k) (unitStep (s.swapWith k))
    else .next s

/-- What the agent whose turn it is does. -/
def takeTurn (t : Turn) (s : State) : Host.Outcome State Fault Refusal :=
  match t with
  | .unit k => stepUnit k s
  | .program => hostLine s
  | .act a => .next (hostAct a s)

/-- Who moves when the schedule is used up: the unit while it has a pending step, then any other busy
instance, then the host's program; else no agent moves (70_reset_and_hazards.md R243, log 6). -/
def defaultTurn (s : State) : Option Turn :=
  if s.unit.status.busy then some (.unit 0)
  else
    match s.others.findIdx? (fun u => u.status.busy) with
    | some k => some (.unit (k + 1))
    | none => if s.line < s.program.length then some .program else none

/-- One step of the machine: the schedule's next turn, or the default when it is used up. -/
def machineStep (s : State) : Host.Outcome State Fault Refusal :=
  match s.turns with
  | t :: rest => takeTurn t (s.withTurns rest)
  | [] =>
    match defaultTurn s with
    | some t => takeTurn t s
    | none => .next s

/-- The unit as it stands right after a CMD write of `w` that found it idle, and next to move: what a
host's CMD write does, taken whatever the unit was doing (10_state.md R23, log 10). -/
def State.withCommand (s : State) (w : Word) : State :=
  (s.withUnit (s.unit.accept w)).withTurns (.unit 0 :: s.turns)

end Sys2Proof.Machine
end

