-- ==== Sys2Proof/Machine/Assembler.lean ====
section
/-! DEFINITION. The host-side programs of 30_encoding.md R97 to R100: command mnemonics, host register
operations, labels and pseudo-instructions, and their expansion to the operations a host agent runs.
Lines are given as terms, with labels numbered; their text form is not modelled (log 11). What R98 leaves
open about labels is log 18. -/

namespace Sys2Proof.Machine

/-- One line of a program (R97 to R99). -/
inductive AsmLine where
  | setbs (size : Word)
  | repack (n inp anc pk rm stride max : Word)
  | remap32 (n idx tbl : Word)
  | remapg (n idx tbl istride : Word)
  | wr (off : Nat) (value : Word)
  | rd (off : Nat)
  | cmd (word : Word)
  | bit (off n label : Nat)
  | label (name : Nat)
  | remap16 (n idx tbl : Word)
  | remapg32 (n idx tbl : Word)
  | wait
  | nop
deriving DecidableEq, Repr

/-- One `wr ARGk` per operand in operand order from `k` up (R100). -/
def argWrites (k : Nat) : List Word → List HostOp
  | [] => []
  | v :: vs => .wr (0x10 + 4 * k) v :: argWrites (k + 1) vs

/-- A command line: the operand writes, then the CMD write of the command's word (R100). -/
def commandOps (i : Instr) (operands : List Word) : List HostOp :=
  argWrites 0 operands ++ [.wr Reg.cmd.offset (encode i)]

/-- The operations of a line that stands at operation `here`, given where each label stands (R98 to
R100). -/
def AsmLine.ops (labels : Nat → Nat) (here : Nat) : AsmLine → List HostOp
  | .setbs size => commandOps .setbs [size]
  | .repack n inp anc pk rm stride max => commandOps .repack [n, inp, anc, pk, rm, stride, max]
  | .remap32 n idx tbl => commandOps .remap32 [n, idx, tbl]
  | .remapg n idx tbl istride => commandOps .remapg [n, idx, tbl, istride]
  | .wr off v => [.wr off v]
  | .rd off => [.rd off]
  | .cmd w => [.wr Reg.cmd.offset w]
  | .bit off n l => [.bit off n (labels l)]
  | .label _ => []
  | .remap16 n idx tbl => commandOps .remapg [n, idx, tbl, 2#32]
  | .remapg32 n idx tbl => commandOps .remapg [n, idx, tbl, 4#32]
  | .wait => [.bit Reg.status.offset 0 here]
  | .nop => []

/-- How many operations a line expands to; no label decides it. -/
def AsmLine.size (l : AsmLine) : Nat := (l.ops (fun _ => 0) 0).length

/-- The operation a label names: the one its next line starts at (R98). DESIGN CHOICE (log 18), where R98
is silent: of two labels with one name the first counts, and a label with no line after it names the
position past the last operation, so a branch to it ends the program. -/
def labelAt (here : Nat) : List AsmLine → Nat → Option Nat
  | [], _ => none
  | l :: ls, name => if l = .label name then some here else labelAt (here + l.size) ls name

/-- Expand lines from operation `here` on. -/
def expandFrom (labels : Nat → Nat) (here : Nat) : List AsmLine → List HostOp
  | [] => []
  | l :: ls => l.ops labels here ++ expandFrom labels (here + l.size) ls

/-- The label a line branches to, if it does. -/
def AsmLine.target : AsmLine → Option Nat
  | .bit _ _ l => some l
  | .setbs _ | .repack _ _ _ _ _ _ _ | .remap32 _ _ _ | .remapg _ _ _ _ | .wr _ _ | .rd _ | .cmd _
  | .label _ | .remap16 _ _ _ | .remapg32 _ _ _ | .wait | .nop => none

/-- Every branch names a label of the program. -/
def labelsDefined (prog : List AsmLine) : Bool :=
  prog.all fun l =>
    match l.target with
    | some name => (labelAt 0 prog name).isSome
    | none => true

/-- Where the labels of a program stand; 0 for a name that is no label of it, which `assemble` refuses. -/
def labelsOf (prog : List AsmLine) (name : Nat) : Nat := (labelAt 0 prog name).getD 0

/-- The operations of a program (R98). DESIGN CHOICE (log 18): a program with a branch that names no label
of it has no expansion, where R98 is silent. -/
def assemble (prog : List AsmLine) : Option (List HostOp) :=
  if labelsDefined prog then some (expandFrom (labelsOf prog) 0 prog) else none

end Sys2Proof.Machine
end

