-- ==== Sys2Proof/Safety.lean ====
section
/-! DEFINITION. The words the statements use: legal states and the invariant of the sequencer, the access
and the store of one unit step, the effect of a store byte by byte, the end of a command, runs of
the machine, the packing and remapping as functions on lists and memories, and the buffers of a command. -/

namespace Sys2Proof.Machine

/-! ## Legal states -/

/-- The legal states of STATUS (10_state.md R24), with the codes 60_exceptions.md R200 produces. -/
abbrev Status.legal (st : Status) : Prop :=
  ¬(st.busy = true ∧ st.done = true) ∧ (st.err = true → st.done = true) ∧
    (st.errcode ≠ 0#4 ↔ st.err = true) ∧ st.errcode.toNat ≤ 6

/-- Operands and block size REPACK's start checks let through (42_repack.md R141). -/
abbrev Dqba.repackLegal (u : Dqba) : Prop :=
  0 < u.lbs.toInt ∧ u.rpIn.toNat % 2 = 0 ∧ u.rpAnc.toNat % 2 = 0 ∧ u.rpPk.toNat % 4 = 0 ∧
    u.rpRm.toNat % 4 = 0

/-- Operands REMAP32's start check lets through (43_remap.md R170). -/
abbrev Dqba.remap32Legal (u : Dqba) : Prop := u.rmIdx.toNat % 4 = 0 ∧ u.rmTbl.toNat % 4 = 0

/-- Operands REMAPG's start checks let through (43_remap.md R171, R172). -/
abbrev Dqba.remapgLegal (u : Dqba) : Prop :=
  (u.rmStride = 2#32 ∨ u.rmStride = 4#32) ∧ u.rmIdx.toNat % u.rmStride.toNat = 0 ∧
    u.rmTbl.toNat % 4 = 0

/-- A remap command in its loop: one of the two, with operands its start check let through. -/
abbrev Dqba.remapLegal (u : Dqba) : Prop :=
  (u.lopc = encode .remap32 ∧ u.remap32Legal) ∨ (u.lopc = encode .remapg ∧ u.remapgLegal)

/-- How many blocks of `bs` slots the slots below `p` touch. -/
def blocksBelow (p bs : Nat) : Nat := (p + bs - 1) / bs

/-- A REPACK in its loop: the accepted word is REPACK's and its start checks passed. -/
abbrev Dqba.repackRunning (u : Dqba) : Prop := u.lopc = encode .repack ∧ u.repackLegal

/-- Blocks started so far are those the slots below `p` touch (42_repack.md R153). -/
abbrev Dqba.blocksStarted (u : Dqba) : Prop :=
  (u.b + 1#32).toNat = blocksBelow u.p.toNat u.lbs.toNat

/-- Inside an attempt before the block test: vertex and slot are in range, and no more slots are used
than closing a block before each vertex would take (42_repack.md R155). -/
abbrev Dqba.attempt (u : Dqba) : Prop :=
  u.i.toNat < u.count.toNat ∧ u.p.toNat < u.rpMax.toNat ∧ u.i.toNat ≤ u.p.toNat ∧
    u.p.toNat ≤ u.i.toNat * u.lbs.toNat

/-- Inside an attempt after the block test: the current block is the one slot `p` lies in, and a vertex
that starts it is its anchor (R145, R153). -/
abbrev Dqba.attemptInBlock (u : Dqba) : Prop :=
  u.attempt ∧ u.b.toNat = u.p.toNat / u.lbs.toNat ∧
    (u.p.toNat % u.lbs.toNat = 0 → u.anchor = u.v)

/-- What holds of the counters, the block and the operands in each phase: the phase belongs to the
accepted command, and the counters stand where the pseudocode can have brought them. -/
def Dqba.phaseInv (u : Dqba) : Prop :=
  match u.phase with
  | .idle => True
  | .decode => True
  | .sbWrite => u.lopc = encode .setbs
  | .rpCheck =>
    u.repackRunning ∧ u.blocksStarted ∧ u.i.toNat ≤ u.count.toNat ∧ u.p.toNat ≤ u.rpMax.toNat ∧
      u.i.toNat ≤ u.p.toNat ∧
      ((u.i.toNat = 0 ∧ u.p.toNat = 0) ∨
        (0 < u.i.toNat ∧ u.p.toNat ≤ (u.i.toNat - 1) * u.lbs.toNat + 1) ∨
        (u.i.toNat < u.count.toNat ∧ u.p.toNat % u.lbs.toNat = 0 ∧
          u.p.toNat ≤ u.i.toNat * u.lbs.toNat))
  | .rpRead _ => u.repackRunning ∧ u.blocksStarted ∧ u.attempt
  | .rpBlock => u.repackRunning ∧ u.blocksStarted ∧ u.attempt
  | .rpAnchor _ => u.repackRunning ∧ u.attemptInBlock ∧ u.p.toNat % u.lbs.toNat = 0
  | .rpEval => u.repackRunning ∧ u.attemptInBlock
  | .rpPack => u.repackRunning ∧ u.attemptInBlock ∧ ovf u.v u.anchor = false
  | .rpRemap => u.repackRunning ∧ u.attemptInBlock ∧ ovf u.v u.anchor = false
  | .rpPad =>
    u.repackRunning ∧ u.blocksStarted ∧ u.i.toNat < u.count.toNat ∧ u.p.toNat ≤ u.rpMax.toNat ∧
      u.i.toNat ≤ u.p.toNat ∧ 0 < u.p.toNat ∧ u.p.toNat ≤ u.i.toNat * u.lbs.toNat ∧
      ovf u.v u.anchor = true
  | .rmCheck => u.remapLegal ∧ u.i.toNat ≤ u.count.toNat
  | .rmRdIdx => u.remapLegal ∧ u.i.toNat < u.count.toNat
  | .rmRdTbl => u.remapLegal ∧ u.i.toNat < u.count.toNat
  | .rmWrIdx => u.remapLegal ∧ u.i.toNat < u.count.toNat

/-- UNIT_BASE is aligned to the window's size (92_eei_decisions.md, the OPEN parameters). -/
abbrev Dqba.baseAligned (u : Dqba) : Prop := u.base.toNat % Config.windowBytes = 0

/-- The invariant of one unit: its window is aligned, STATUS is legal, PHASE is IDLE exactly when BUSY is 0
(10_state.md R24, R44), and the phase's own invariant holds. -/
def Dqba.Inv (u : Dqba) : Prop :=
  u.baseAligned ∧ u.status.legal ∧ (u.phase = .idle ↔ u.status.busy = false) ∧ u.phaseInv

/-- The invariant of the machine: memory is canonical and every unit's invariant holds. -/
def State.Inv (s : State) : Prop := s.mem.wf ∧ s.unit.Inv ∧ ∀ u ∈ s.others, u.Inv

/-! ## The access of one unit step -/

/-- The access a REPACK step makes, none in a phase that makes none (42_repack.md R140). -/
def Dqba.repackAccess (u : Dqba) : Option (Word × Width) :=
  match u.phase with
  | .rpRead k => some (u.inputAddr u.i.toNat k, .half)
  | .rpAnchor k => some (u.anchorAddr u.b.toNat k, .half)
  | .rpPack => some (u.packedAddr u.p.toNat, .word)
  | .rpRemap => some (u.remapAddr u.i.toNat, .word)
  | .rpPad =>
    if u.p.toNat % u.lbs.toNat = 0 ∨ u.rpMax.toNat ≤ u.p.toNat then none
    else some (u.packedAddr u.p.toNat, .word)
  | .idle | .decode | .sbWrite | .rpCheck | .rpBlock | .rpEval | .rmCheck | .rmRdIdx | .rmRdTbl
  | .rmWrIdx => none

/-- The access a remap step with elements of width `w` makes (43_remap.md R170, R171). -/
def Dqba.remapAccess (u : Dqba) (w : Width) : Option (Word × Width) :=
  match u.phase with
  | .rmRdIdx => some (u.indexAddr w u.i.toNat, w)
  | .rmRdTbl => some (u.tableAddr u.iv.toNat, .word)
  | .rmWrIdx => some (u.indexAddr w u.i.toNat, w)
  | .idle | .decode | .sbWrite | .rpCheck | .rpRead _ | .rpBlock | .rpAnchor _ | .rpEval | .rpPack
  | .rpRemap | .rpPad | .rmCheck => none

/-- The access a step of a command makes. -/
def unitAccess (i : Instr) (u : Dqba) : Option (Word × Width) :=
  match i with
  | .setbs => none
  | .repack => u.repackAccess
  | .remap32 => u.remapAccess .word
  | .remapg => (strideWidth u.rmStride).bind u.remapAccess

/-- The phase is one whose access is a read. -/
def Phase.reads : Phase → Bool
  | .rpRead _ | .rmRdIdx | .rmRdTbl => true
  | .idle | .decode | .sbWrite | .rpCheck | .rpBlock | .rpAnchor _ | .rpEval | .rpPack | .rpRemap
  | .rpPad | .rmCheck | .rmWrIdx => false

/-- Address `x` is one of the `n` bytes from `a` up, mod 2^32. -/
def inBytes (a n x : Nat) : Prop := ∃ j < n, x = (a + j) % 2 ^ 32

/-- Address `x` is a byte the step of the command stores to. -/
def unitStores (i : Instr) (u : Dqba) (x : Nat) : Prop :=
  ∃ a w, unitAccess i u = some (a, w) ∧ u.phase.reads = false ∧ inBytes a.toNat (Width.bytes w) x

/-! ## The effect of a step, spelled out -/

/-- The registers hold what the spec says they hold after reset (10_state.md R45). Nothing is said of the
latches, counters and temporaries, whose values are log 5. -/
abbrev Dqba.holdsResetValues (u : Dqba) : Prop :=
  u.blockSize = 64#32 ∧ u.status.word = 0#32 ∧ u.result = 0#32 ∧ (∀ k : Fin 7, u.args[k] = 0#32) ∧
    u.anchor = ⟨0#16, 0#16, 0#16⟩ ∧ u.phase = .idle

/-- `m'` is `m` with the 16-bit value `v` stored at `a`, low byte first (20_memory.md R61). -/
def storesHalf (m m' : Memory) (a : Word) (v : Half) : Prop :=
  ∀ x, m'.readByte x =
    if x = a.toNat then v.extractLsb' 0 8
    else if x = (a.toNat + 1) % 2 ^ 32 then v.extractLsb' 8 8
    else m.readByte x

/-- `m'` is `m` with the 32-bit value `v` stored at `a`, low byte first (20_memory.md R61). -/
def storesWord (m m' : Memory) (a : Word) (v : Word) : Prop :=
  ∀ x, m'.readByte x =
    if x = a.toNat then v.extractLsb' 0 8
    else if x = (a.toNat + 1) % 2 ^ 32 then v.extractLsb' 8 8
    else if x = (a.toNat + 2) % 2 ^ 32 then v.extractLsb' 16 8
    else if x = (a.toNat + 3) % 2 ^ 32 then v.extractLsb' 24 8
    else m.readByte x

/-- The 16-bit value at `a`, low byte first (20_memory.md R61). -/
def halfAt (m : Memory) (a : Word) : Half :=
  (m.readByte a.toNat).setWidth 16 ||| (m.readByte ((a.toNat + 1) % 2 ^ 32)).setWidth 16 <<< 8

/-- The 32-bit value at `a`, low byte first (20_memory.md R61). -/
def wordAt (m : Memory) (a : Word) : Word :=
  (m.readByte a.toNat).setWidth 32 |||
    (m.readByte ((a.toNat + 1) % 2 ^ 32)).setWidth 32 <<< 8 |||
    (m.readByte ((a.toNat + 2) % 2 ^ 32)).setWidth 32 <<< 16 |||
    (m.readByte ((a.toNat + 3) % 2 ^ 32)).setWidth 32 <<< 24

/-- `t` differs from `s` in nothing but the unit. -/
def onlyUnit (s t : State) : Prop := t = { s with unit := t.unit }

/-- `t` differs from `s` in nothing but the unit and memory. -/
def onlyUnitAndMem (s t : State) : Prop := t = { s with unit := t.unit, mem := t.mem }

/-- The unit after a command that ended with ERRCODE `code` (60_exceptions.md R206) and RESULT `r`. -/
def Dqba.endedWithError (u : Dqba) (code : BitVec 4) (r : Word) : Dqba :=
  { u with
    phase := .idle
    status := { busy := false, done := true, err := true, cmdLost := u.status.cmdLost, errcode := code }
    result := r }

/-- The unit after a command that ended successfully (60_exceptions.md R205) with RESULT `r`. -/
def Dqba.endedWell (u : Dqba) (r : Word) : Dqba :=
  { u with
    phase := .idle
    status := { busy := false, done := true, err := false, cmdLost := u.status.cmdLost, errcode := 0#4 }
    result := r }

/-- The RESULT an error leaves: the sentinel for REPACK, the old value otherwise (42_repack.md R152,
60_exceptions.md R206). -/
def errorResult (i : Instr) (u : Dqba) : Word := if i = .repack then 0xFFFFFFFF#32 else u.result

/-! ## Runs -/

/-- `k` steps of the machine. -/
def runSteps (k : Nat) (s : State) : Host.Outcome State Fault Refusal := Host.Core.run Sys2Proof.core k s

/-- An accepted command about to be decoded, with the schedule used up: by log 6 nobody else moves before
the command ends, so the host writes nothing meanwhile (20_memory.md R78). -/
abbrev accepted (i : Instr) (s : State) : Prop :=
  s.turns = [] ∧ s.unit.status.busy = true ∧ s.unit.phase = .decode ∧ s.unit.lopc = encode i

/-- Whose turn the next step is: the schedule's head, or the default when it is used up. -/
def State.nextTurn (s : State) : Option Turn :=
  match s.turns with
  | t :: _ => some t
  | [] => defaultTurn s

/-- How many accesses the unit performs before its command ends, in at most `k` steps of the machine: each
step that is the unit's and whose access MemOK admits counts one (20_memory.md R66). -/
def accessesIn (i : Instr) : Nat → State → Nat
  | 0, _ => 0
  | k + 1, s =>
    if s.unit.phase = .idle then 0
    else
      (if s.nextTurn = some (.unit 0) then
        match unitAccess i s.unit with
        | some (a, w) => if memOK s.refused a w then 1 else 0
        | none => 0
      else 0) +
      (match step s with
        | .next t => accessesIn i k t
        | .fault _ => 0
        | .refused _ => 0)

/-- Within how many steps a command ends from wherever it is (42_repack.md R161, 70_reset_and_hazards.md
R242), counting the steps that make no access too (log 1). -/
def stepBound (u : Dqba) : Nat :=
  match decode u.lopc with
  | .ok .setbs => 2
  | .ok .repack => 18 * u.count.toNat + u.rpMax.toNat + 2
  | .ok .remap32 => 4 * u.count.toNat + 2
  | .ok .remapg => 4 * u.count.toNat + 2
  | .error _ => 1

/-! ## What another agent cannot see -/

/-- The unit with the state no rule lets the host read replaced by fixed values (10_state.md R43). -/
def Dqba.visible (u : Dqba) : Dqba :=
  { u with
    lopc := 0#32
    latch := Vector.replicate 7 0#32
    lbs := 0#32
    i := 0#32
    p := 0#32
    b := 0#32
    v := { x := 0#16, y := 0#16, z := 0#16 }
    iv := 0#32
    tv := 0#32 }

/-- The unit with the latches, counters and temporaries of another (10_state.md R37 to R42). -/
def Dqba.withInternals (u src : Dqba) : Dqba :=
  { u with
    lopc := src.lopc
    latch := src.latch
    lbs := src.lbs
    i := src.i
    p := src.p
    b := src.b
    v := src.v
    iv := src.iv
    tv := src.tv }

/-- The machine with every unit's unreadable state replaced by fixed values. -/
def State.visible (s : State) : State :=
  { s with unit := s.unit.visible, others := s.others.map Dqba.visible }

/-! ## Packing as a function on vertices -/

/-- What packing produces from a slot on: the words of the slots, the anchors of the blocks started, and
the slot of each vertex. -/
structure Packed where
  words : List Word
  anchors : List Vec3
  slots : List Nat
deriving DecidableEq, Repr

/-- Put the output of one vertex before the output of the rest. -/
def Packed.after (r : Packed) (ws : List Word) (as : List Vec3) (slot : Nat) : Packed :=
  { words := ws ++ r.words, anchors := as ++ r.anchors, slots := slot :: r.slots }

/-- The source's algorithm on a list of vertices, from slot `p` with current anchor `a`; none when the
capacity `max` runs out (42_repack.md R140). -/
def packVertices (bs max : Nat) : List Vec3 → Nat → Vec3 → Option Packed
  | [], _, _ => some { words := [], anchors := [], slots := [] }
  | v :: vs, p, a =>
    if max ≤ p then none
    else if p % bs = 0 then
      (packVertices bs max vs (p + 1) v).map fun r => r.after [vertexWord v v] [v] p
    else if ovf v a then
      if max ≤ p + (bs - p % bs) then none
      else
        (packVertices bs max vs (p + (bs - p % bs) + 1) v).map fun r =>
          r.after (List.replicate (bs - p % bs) 0#32 ++ [vertexWord v v]) [v] (p + (bs - p % bs))
    else (packVertices bs max vs (p + 1) a).map fun r => r.after [vertexWord v a] [] p

/-- The vertex REPACK reads as vertex `i` (20_memory.md R65). -/
def vertexAt (s : State) (i : Nat) : Vec3 :=
  { x := halfAt s.mem (s.unit.inputAddr i 0)
    y := halfAt s.mem (s.unit.inputAddr i 1)
    z := halfAt s.mem (s.unit.inputAddr i 2) }

/-- The vertices of a REPACK, in input order. -/
def inputVertices (s : State) : List Vec3 := (List.range s.unit.count.toNat).map (vertexAt s)

/-- A byte of the input vertices a REPACK reads. -/
def inputByte (s : State) (x : Nat) : Prop :=
  ∃ i < s.unit.count.toNat, ∃ k < 3, inBytes (s.unit.inputAddr i k).toNat 2 x

/-- A byte of the first `n` packed slots. -/
def packedByte (s : State) (n x : Nat) : Prop := inBytes s.unit.rpPk.toNat (4 * n) x

/-- A byte of the first `n` anchors. -/
def anchorByte (s : State) (n x : Nat) : Prop := inBytes s.unit.rpAnc.toNat (6 * n) x

/-- A byte of the first `n` remap-out entries. -/
def remapByte (s : State) (n x : Nat) : Prop := inBytes s.unit.rpRm.toNat (4 * n) x

/-- How many blocks the capacity of a REPACK touches (42_repack.md R157). -/
def maxBlocks (s : State) : Nat := blocksBelow s.unit.rpMax.toNat s.unit.lbs.toNat

/-- The host's duties for a REPACK whose result it relies on (20_memory.md R78, R80): the operands pass
the start checks, no output buffer wraps onto itself, the four buffers are pairwise disjoint, and
the memory system admits their accesses. -/
structure RepackBuffers (s : State) : Prop where
  legal : s.unit.repackLegal
  packedFits : 4 * s.unit.rpMax.toNat ≤ 2 ^ 32
  anchorsFit : 6 * maxBlocks s ≤ 2 ^ 32
  remapFits : 4 * s.unit.count.toNat ≤ 2 ^ 32
  packedAnchors : ∀ x, packedByte s s.unit.rpMax.toNat x → ¬ anchorByte s (maxBlocks s) x
  packedRemap : ∀ x, packedByte s s.unit.rpMax.toNat x → ¬ remapByte s s.unit.count.toNat x
  anchorsRemap : ∀ x, anchorByte s (maxBlocks s) x → ¬ remapByte s s.unit.count.toNat x
  inputApart : ∀ x, inputByte s x → ¬ packedByte s s.unit.rpMax.toNat x ∧
    ¬ anchorByte s (maxBlocks s) x ∧ ¬ remapByte s s.unit.count.toNat x
  inputAdmitted : ∀ i < s.unit.count.toNat, ∀ k < 3,
    memOK s.refused (s.unit.inputAddr i k) .half = true
  packedAdmitted : ∀ p < s.unit.rpMax.toNat, memOK s.refused (s.unit.packedAddr p) .word = true
  anchorsAdmitted : ∀ b < maxBlocks s, ∀ k < 3, memOK s.refused (s.unit.anchorAddr b k) .half = true
  remapAdmitted : ∀ i < s.unit.count.toNat, memOK s.refused (s.unit.remapAddr i) .word = true

/-! ## Remapping as a function on memory -/

/-- One element rewritten: its index read, the table entry of it read, the index written
(43_remap.md R175). -/
def remapElement (u : Dqba) (w : Width) (m : Memory) (i : Nat) : Memory :=
  m.store (u.indexAddr w i) w
    (narrow w (m.load (u.tableAddr (m.load (u.indexAddr w i) w).toNat) .word))

/-- Elements 0 to n - 1 rewritten in order (43_remap.md R175). -/
def remapElements (u : Dqba) (w : Width) (m : Memory) (n : Nat) : Memory :=
  (List.range n).foldl (remapElement u w) m

/-- The duties for a remap whose values the host relies on (43_remap.md R177, R178): the index buffer does
not wrap onto itself and no table entry the elements name overlaps it. -/
structure RemapBuffers (s : State) (w : Width) : Prop where
  fits : Width.bytes w * s.unit.count.toNat ≤ 2 ^ 32
  tableApart : ∀ i < s.unit.count.toNat, ∀ x,
    inBytes (s.unit.tableAddr (s.mem.load (s.unit.indexAddr w i) w).toNat).toNat 4 x →
      ¬ inBytes s.unit.rmIdx.toNat (Width.bytes w * s.unit.count.toNat) x

end Sys2Proof.Machine
end

