-- ==== Sys2Proof/Certificates/Slice0/Obligations.lean ====
section
/-! DEFINITION. The statements for the provers, from the numbered rules of spec/. -/

open Sys2Proof Sys2Proof.Machine

/-! ## Commands and their words -/

/-- 30_encoding.md R92: the command set, word by word. -/
def Obligations.CommandWordsDecodeAsTheTableSays : Prop :=
  decode 0x00000001#32 = .ok .setbs ∧ decode 0x00000002#32 = .ok .repack ∧
    decode 0x00000003#32 = .ok .remap32 ∧ decode 0x00000004#32 = .ok .remapg ∧
    ∀ w i, decode w = .ok i → w = 1#32 ∨ w = 2#32 ∨ w = 3#32 ∨ w = 4#32

/-- Decoding an encoded command gives it back, and no other word decodes to it. -/
def Obligations.DecodeAndEncodeAgree : Prop :=
  (∀ i, decode (encode i) = .ok i) ∧ ∀ w i, decode w = .ok i → w = encode i

/-- 60_exceptions.md R202: an accepted word that is none of the four ends at decode with code 2. Memory,
RESULT, BLOCK_SIZE and ANCHOR are as they were. -/
def Obligations.OtherWordsEndAsIllegalCommands : Prop :=
  ∀ s : State, s.unit.status.busy = true → s.unit.phase = .decode →
    (∀ n : Nat, 1 ≤ n → n ≤ 4 → s.unit.lopc ≠ BitVec.ofNat 32 n) →
    unitStep s = .next { s with unit := s.unit.endedWithError 2#4 s.unit.result }

/-- A step of the machine runs the command whose word the busy unit holds, when the unit is next to move:
by the schedule, or because the schedule is used up. -/
def Obligations.StepRunsTheDecodedCommand : Prop :=
  ∀ (s : State) (i : Instr), s.unit.status.busy = true → decode s.unit.lopc = .ok i →
    (s.turns = [] → step s = exec i s) ∧
    ∀ rest, s.turns = .unit 0 :: rest → step s = exec i { s with turns := rest }

/-- 60_exceptions.md R221: a unit with BUSY = 0 takes no step. -/
def Obligations.IdleUnitTakesNoStep : Prop :=
  ∀ s : State, s.unit.status.busy = false →
    unitStep s = .next s ∧ ∀ rest, s.turns = .unit 0 :: rest → step s = .next { s with turns := rest }

/-! ## The register window -/

/-- 10_state.md R21, at the unit's register port and for a host read in the window of any instance. -/
def Obligations.RegisterPortAcceptsOnlyAlignedWords : Prop :=
  (∀ (u : Dqba) (off bytes : Nat) (v : Word), bytes ≠ 4 ∨ off % 4 ≠ 0 →
    u.windowRead off bytes = 0#32 ∧ u.windowWrite off bytes v = u) ∧
  (∀ (u : Dqba) (off : Nat) (v : Word),
    off = 0x04 ∨ off = 0x08 ∨ off = 0x0C ∨ off = 0x2C ∨ off = 0x30 → u.windowWrite off 4 v = u) ∧
  (∀ u : Dqba, u.windowRead 0x00 4 = 0#32) ∧
  ∀ (s : State) (u : Dqba) (off bytes : Nat), u ∈ s.unit :: s.others → off < 0x40 →
    hostAct (.regRead (u.base + BitVec.ofNat 32 off) bytes) s =
      { s with reads := (hostAct (.regRead (u.base + BitVec.ofNat 32 off) bytes) s).reads }

/-- 10_state.md R22. -/
def Obligations.ReservedOffsetsReadZeroAndIgnoreWrites : Prop :=
  ∀ (u : Dqba) (off bytes : Nat) (v : Word), off = 0x34 ∨ off = 0x38 ∨ off = 0x3C →
    u.windowRead off bytes = 0#32 ∧ u.windowWrite off bytes v = u

/-- 10_state.md R20, R24, R27, R29: where each field stands in the word a read of STATUS returns, and that
0x08 reads RESULT and 0x0C reads BLOCK_SIZE. -/
def Obligations.StatusWordHoldsItsFields : Prop :=
  ∀ u : Dqba,
    (u.windowRead 0x04 4).getLsbD 0 = u.status.busy ∧ (u.windowRead 0x04 4).getLsbD 1 = u.status.done ∧
    (u.windowRead 0x04 4).getLsbD 2 = u.status.err ∧ (u.windowRead 0x04 4).getLsbD 3 = u.status.cmdLost ∧
    (u.windowRead 0x04 4).extractLsb' 4 4 = 0#4 ∧
    (u.windowRead 0x04 4).extractLsb' 8 4 = u.status.errcode ∧
    (u.windowRead 0x04 4).extractLsb' 12 20 = 0#20 ∧
    u.windowRead 0x08 4 = u.result ∧ u.windowRead 0x0C 4 = u.blockSize

/-- 10_state.md R23: a CMD write is accepted or dropped, an accepted word is decoded at the unit's next
step, and CMD reads 0. -/
def Obligations.CmdWriteIsAcceptedOrDropped : Prop :=
  ∀ (u : Dqba) (w : Word),
    (u.status.busy = false →
      u.windowWrite 0x00 4 w =
        { u with
          lopc := w
          latch := u.args
          lbs := u.blockSize
          status := { busy := true, done := false, err := false, cmdLost := false, errcode := 0#4 }
          phase := .decode }) ∧
    (u.status.busy = true →
      u.windowWrite 0x00 4 w = { u with status := { u.status with cmdLost := true } }) ∧
    u.windowRead 0x00 4 = 0#32 ∧
    ∀ (s : State) (i : Instr), u.status.busy = false → decode w = .ok i →
      unitStep { s with unit := u.windowWrite 0x00 4 w } = exec i { s with unit := u.windowWrite 0x00 4 w }

/-- 10_state.md R30: an ARG register reads 0 after reset and then what the host last wrote, no unit step
writes one, acceptance copies them, and a write while a command runs changes nothing of that command. -/
def Obligations.ArgRegistersBelongToTheHost : Prop :=
  (∀ (u : Dqba) (k : Fin 7) (v : Word),
    (u.windowWrite (0x10 + 4 * k) 4 v).windowRead (0x10 + 4 * k) 4 = v ∧
    (∀ j : Fin 7, j ≠ k →
      (u.windowWrite (0x10 + 4 * k) 4 v).windowRead (0x10 + 4 * j) 4 = u.windowRead (0x10 + 4 * j) 4) ∧
    u.windowWrite (0x10 + 4 * k) 4 v = { u with args := u.args.set k v }) ∧
  (∀ k : Fin 7, State.reset.unit.windowRead (0x10 + 4 * k) 4 = 0#32) ∧
  (∀ s t : State, unitStep s = .next t → t.unit.args = s.unit.args) ∧
  (∀ (u : Dqba) (w : Word), u.status.busy = false → (u.windowWrite 0x00 4 w).latch = u.args) ∧
  ∀ (s : State) (as : Vector Word 7),
    unitStep { s with unit := { s.unit with args := as } } =
      mapNext (fun t => { t with unit := { t.unit with args := as } }) (unitStep s)

/-- 10_state.md R31: the anchor registers show ANCHOR, whatever the unit is doing, and ignore writes. -/
def Obligations.AnchorRegistersShowTheAnchor : Prop :=
  ∀ (u : Dqba) (v : Word),
    (u.windowRead 0x2C 4).extractLsb' 0 16 = u.anchor.x ∧
    (u.windowRead 0x2C 4).extractLsb' 16 16 = u.anchor.y ∧
    (u.windowRead 0x30 4).extractLsb' 0 16 = u.anchor.z ∧
    (u.windowRead 0x30 4).extractLsb' 16 16 = 0#16 ∧
    u.windowWrite 0x2C 4 v = u ∧ u.windowWrite 0x30 4 v = u

/-- 60_exceptions.md R213: a CMD write while BUSY sets CMD_LOST, and the command in flight takes the same
step with it as without it. -/
def Obligations.DroppedCommandLeavesTheCommandInFlightAlone : Prop :=
  ∀ (s : State) (w : Word), s.unit.status.busy = true →
    s.unit.windowWrite 0x00 4 w = { s.unit with status := { s.unit.status with cmdLost := true } } ∧
    unitStep { s with unit := s.unit.windowWrite 0x00 4 w } =
      mapNext (fun t => { t with unit := { t.unit with status := { t.unit.status with cmdLost := true } } })
        (unitStep s)

/-- 10_state.md R20, 92_eei_decisions.md (UNIT_BASE aligned to 0x40): a host write at an address of the unit's
window of 0x40 bytes reaches that register and nothing else, a read there returns it, and an aligned
window does not wrap. That an address outside every window has no effect is log 12, the model's choice: a
write outside the window leaves the unit and memory alone, and no read changes anything. -/
def Obligations.HostAddressesReachTheWindow : Prop :=
  (∀ (s : State) (off bytes : Nat) (v : Word), off < 0x40 →
    hostAct (.regWrite (s.unit.base + BitVec.ofNat 32 off) bytes v) s =
      { s with unit := s.unit.windowWrite off bytes v } ∧
    hostAct (.regRead (s.unit.base + BitVec.ofNat 32 off) bytes) s =
      { s with reads := s.reads ++ [(s.unit.windowRead off bytes).toNat] }) ∧
  (∀ (s : State) (off : Nat), s.unit.base.toNat % 0x40 = 0 → off < 0x40 →
    (s.unit.base + BitVec.ofNat 32 off).toNat = s.unit.base.toNat + off) ∧
  (∀ (s : State) (a : Word) (bytes : Nat) (v : Word), 0x40 ≤ (a - s.unit.base).toNat →
    (hostAct (.regWrite a bytes v) s).unit = s.unit ∧ (hostAct (.regWrite a bytes v) s).mem = s.mem) ∧
  ∀ (s : State) (a : Word) (bytes : Nat), hostAct (.regRead a bytes) s =
    { s with reads := (hostAct (.regRead a bytes) s).reads }

/-! ## SETBS -/

/-- 40_block_size.md R110: the word 1 is SETBS, its operand is ARG0 as latched at acceptance; it stores any
value unchanged, completes without error, and leaves RESULT, ANCHOR, ARG0 to ARG6 and memory alone. -/
def Obligations.SetbsStoresAnyValue : Prop :=
  decode 0x00000001#32 = .ok .setbs ∧
  (∀ u : Dqba, u.status.busy = false → (u.windowWrite 0x00 4 1#32).latch[0] = u.args[0]) ∧
  ∀ s : State,
    (s.unit.phase = .decode → exec .setbs s = .next { s with unit := { s.unit with phase := .sbWrite } }) ∧
    (s.unit.phase = .sbWrite →
      exec .setbs s =
        .next { s with
          unit := { s.unit with
            blockSize := s.unit.latch[0]
            phase := .idle
            status := { busy := false, done := true, err := false, cmdLost := s.unit.status.cmdLost, errcode := 0#4 } } })

/-! ## REPACK, step by step -/

/-- 42_repack.md R141, R142: the start checks in their order, whatever `n` is, and the initial counters. -/
def Obligations.RepackChecksThenInitialises : Prop :=
  ∀ s : State, s.unit.phase = .decode →
    (s.unit.lbs.toInt ≤ 0 →
      exec .repack s = .next { s with unit := s.unit.endedWithError 3#4 0xFFFFFFFF#32 }) ∧
    (0 < s.unit.lbs.toInt →
      s.unit.latch[1].toNat % 2 = 1 ∨ s.unit.latch[2].toNat % 2 = 1 ∨ s.unit.latch[3].toNat % 4 ≠ 0 ∨
        s.unit.latch[4].toNat % 4 ≠ 0 →
      exec .repack s = .next { s with unit := s.unit.endedWithError 5#4 0xFFFFFFFF#32 }) ∧
    (0 < s.unit.lbs.toInt → s.unit.latch[1].toNat % 2 = 0 → s.unit.latch[2].toNat % 2 = 0 →
      s.unit.latch[3].toNat % 4 = 0 → s.unit.latch[4].toNat % 4 = 0 →
      exec .repack s =
        .next { s with
          unit := { s.unit with i := 0#32, p := 0#32, b := 0xFFFFFFFF#32, phase := .rpCheck } })

/-- 42_repack.md R143, R151: at RP_CHECK the command completes with RESULT = `p` when `i = n`, fails with
CAPACITY when `p >= max` (unsigned), and else starts reading the vertex. -/
def Obligations.RepackCheckEndsFailsOrReads : Prop :=
  ∀ s : State, s.unit.phase = .rpCheck →
    (s.unit.i = s.unit.latch[0] → exec .repack s = .next { s with unit := s.unit.endedWell s.unit.p }) ∧
    (s.unit.i ≠ s.unit.latch[0] → s.unit.latch[6].toNat ≤ s.unit.p.toNat →
      exec .repack s = .next { s with unit := s.unit.endedWithError 1#4 0xFFFFFFFF#32 }) ∧
    (s.unit.i ≠ s.unit.latch[0] → s.unit.p.toNat < s.unit.latch[6].toNat →
      exec .repack s = .next { s with unit := { s.unit with phase := .rpRead 0 } })

/-- 42_repack.md R144: the three component reads, in order, at `in + 2*(i*stride + k)`. -/
def Obligations.RepackReadsTheVertex : Prop :=
  ∀ (s : State) (a : Word),
    (s.unit.phase = .rpRead 0 →
      a = BitVec.ofNat 32
        (s.unit.latch[1].toNat + 2 * (s.unit.i.toNat * s.unit.latch[5].toNat + 0)) →
      memOK s.refused a .half = true →
      exec .repack s =
        .next { s with
          unit := { s.unit with v := { s.unit.v with x := halfAt s.mem a }, phase := .rpRead 1 } }) ∧
    (s.unit.phase = .rpRead 1 →
      a = BitVec.ofNat 32
        (s.unit.latch[1].toNat + 2 * (s.unit.i.toNat * s.unit.latch[5].toNat + 1)) →
      memOK s.refused a .half = true →
      exec .repack s =
        .next { s with
          unit := { s.unit with v := { s.unit.v with y := halfAt s.mem a }, phase := .rpRead 2 } }) ∧
    (s.unit.phase = .rpRead 2 →
      a = BitVec.ofNat 32
        (s.unit.latch[1].toNat + 2 * (s.unit.i.toNat * s.unit.latch[5].toNat + 2)) →
      memOK s.refused a .half = true →
      exec .repack s =
        .next { s with
          unit := { s.unit with v := { s.unit.v with z := halfAt s.mem a }, phase := .rpBlock } })

/-- 42_repack.md R145, 41_delta_datapath.md R129: at the first slot of a block `b` advances and ANCHOR takes
the vertex; elsewhere both stay. -/
def Obligations.RepackStartsABlockAtItsFirstSlot : Prop :=
  ∀ s : State, s.unit.phase = .rpBlock →
    (s.unit.p.toNat % s.unit.lbs.toNat = 0 →
      exec .repack s =
        .next { s with
          unit := { s.unit with b := s.unit.b + 1#32, anchor := s.unit.v, phase := .rpAnchor 0 } }) ∧
    (s.unit.p.toNat % s.unit.lbs.toNat ≠ 0 →
      exec .repack s = .next { s with unit := { s.unit with phase := .rpEval } })

/-- 42_repack.md R146: the three anchor writes, in order, at `anc + 2*(3*b + k)`, then the evaluation. -/
def Obligations.RepackStoresTheAnchor : Prop :=
  ∀ (s : State) (a : Word),
    (s.unit.phase = .rpAnchor 0 →
      a = BitVec.ofNat 32 (s.unit.latch[2].toNat + 2 * (3 * s.unit.b.toNat + 0)) →
      memOK s.refused a .half = true →
      ∃ m, storesHalf s.mem m a s.unit.anchor.x ∧
        exec .repack s = .next { s with mem := m, unit := { s.unit with phase := .rpAnchor 1 } }) ∧
    (s.unit.phase = .rpAnchor 1 →
      a = BitVec.ofNat 32 (s.unit.latch[2].toNat + 2 * (3 * s.unit.b.toNat + 1)) →
      memOK s.refused a .half = true →
      ∃ m, storesHalf s.mem m a s.unit.anchor.y ∧
        exec .repack s = .next { s with mem := m, unit := { s.unit with phase := .rpAnchor 2 } }) ∧
    (s.unit.phase = .rpAnchor 2 →
      a = BitVec.ofNat 32 (s.unit.latch[2].toNat + 2 * (3 * s.unit.b.toNat + 2)) →
      memOK s.refused a .half = true →
      ∃ m, storesHalf s.mem m a s.unit.anchor.z ∧
        exec .repack s = .next { s with mem := m, unit := { s.unit with phase := .rpEval } })

/-- 42_repack.md R147: the vertex latch against the block-anchor register, in exact
integers, selects padding or packing. -/
def Obligations.RepackOverflowSelectsPadding : Prop :=
  ∀ s : State, s.unit.phase = .rpEval →
    exec .repack s =
      .next { s with
        unit := { s.unit with
          phase :=
            if (-512 ≤ (s.unit.v.x.toNat : Int) - s.unit.anchor.x.toNat ∧
                (s.unit.v.x.toNat : Int) - s.unit.anchor.x.toNat ≤ 511) ∧
              (-512 ≤ (s.unit.v.y.toNat : Int) - s.unit.anchor.y.toNat ∧
                (s.unit.v.y.toNat : Int) - s.unit.anchor.y.toNat ≤ 511) ∧
              (-512 ≤ (s.unit.v.z.toNat : Int) - s.unit.anchor.z.toNat ∧
                (s.unit.v.z.toNat : Int) - s.unit.anchor.z.toNat ≤ 511)
            then .rpPack else .rpPad } }

/-- 42_repack.md R148: the word to slot `p`, then `p` to the remap entry of vertex `i`, then both advance. -/
def Obligations.RepackPacksThenRecordsTheSlot : Prop :=
  ∀ (s : State) (a : Word), memOK s.refused a .word = true →
    (s.unit.phase = .rpPack → a = BitVec.ofNat 32 (s.unit.latch[3].toNat + 4 * s.unit.p.toNat) →
      ∃ m, storesWord s.mem m a (vertexWord s.unit.v s.unit.anchor) ∧
        exec .repack s = .next { s with mem := m, unit := { s.unit with phase := .rpRemap } }) ∧
    (s.unit.phase = .rpRemap → a = BitVec.ofNat 32 (s.unit.latch[4].toNat + 4 * s.unit.i.toNat) →
      ∃ m, storesWord s.mem m a s.unit.p ∧
        exec .repack s =
          .next { s with
            mem := m
            unit := { s.unit with p := s.unit.p + 1#32, i := s.unit.i + 1#32, phase := .rpCheck } })

/-- 42_repack.md R149, R150: at a block boundary the same vertex is retried; else a padding word 0 goes to
slot `p`, or CAPACITY ends the command. -/
def Obligations.RepackPadsThenRetries : Prop :=
  ∀ s : State, s.unit.phase = .rpPad →
    (s.unit.p.toNat % s.unit.lbs.toNat = 0 →
      exec .repack s = .next { s with unit := { s.unit with phase := .rpCheck } }) ∧
    (s.unit.p.toNat % s.unit.lbs.toNat ≠ 0 → s.unit.latch[6].toNat ≤ s.unit.p.toNat →
      exec .repack s = .next { s with unit := s.unit.endedWithError 1#4 0xFFFFFFFF#32 }) ∧
    (s.unit.p.toNat % s.unit.lbs.toNat ≠ 0 → s.unit.p.toNat < s.unit.latch[6].toNat →
      ∀ a, a = BitVec.ofNat 32 (s.unit.latch[3].toNat + 4 * s.unit.p.toNat) →
      memOK s.refused a .word = true →
      ∃ m, storesWord s.mem m a 0#32 ∧
        exec .repack s = .next { s with mem := m, unit := { s.unit with p := s.unit.p + 1#32 } })

/-! ## Errors and frames of every command -/

/-- 60_exceptions.md R208: the access MemOK refuses is not performed and ends the command with code 6; RESULT
takes the sentinel for REPACK and stays for the others. -/
def Obligations.RefusedAccessEndsTheCommand : Prop :=
  ∀ (i : Instr) (s : State) (a : Word) (w : Width),
    unitAccess i s.unit = some (a, w) → memOK s.refused a w = false →
    exec i s = .next { s with unit := s.unit.endedWithError 6#4 (errorResult i s.unit) }

/-- What a unit step of each command leaves unchanged: everything outside the unit and memory, the ARG
registers, the latches and UNIT_BASE; BLOCK_SIZE but by SETBS; RESULT, ANCHOR, `p`, `b` and V but by
REPACK; IV and TV but by the remap commands; `i` by SETBS; STATUS while the command goes on, and
CMD_LOST always. -/
def Obligations.UnitStepFrame : Prop :=
  ∀ (i : Instr) (s t : State), exec i s = .next t →
    onlyUnitAndMem s t ∧
    t.unit.base = s.unit.base ∧ t.unit.args = s.unit.args ∧ t.unit.lopc = s.unit.lopc ∧
    t.unit.latch = s.unit.latch ∧ t.unit.lbs = s.unit.lbs ∧
    t.unit.status.cmdLost = s.unit.status.cmdLost ∧
    (t.unit.phase ≠ .idle → t.unit.status = s.unit.status ∧ t.unit.result = s.unit.result) ∧
    (i ≠ .setbs → t.unit.blockSize = s.unit.blockSize) ∧
    (i ≠ .repack → t.unit.result = s.unit.result ∧ t.unit.anchor = s.unit.anchor ∧
      t.unit.p = s.unit.p ∧ t.unit.b = s.unit.b ∧ t.unit.v = s.unit.v) ∧
    (i = .setbs ∨ i = .repack → t.unit.iv = s.unit.iv ∧ t.unit.tv = s.unit.tv) ∧
    (i = .setbs → t.unit.i = s.unit.i ∧ t.mem = s.mem)

/-- A unit step changes no byte of memory but those it stores to, at the address the meaning computes: an
anchor component, a packed slot, a remap entry or an index element. -/
def Obligations.UnitStepStoresOnlyAtItsAddress : Prop :=
  ∀ (i : Instr) (s t : State) (x : Nat), exec i s = .next t → ¬ unitStores i s.unit x →
    t.mem.readByte x = s.mem.readByte x

/-- 20_memory.md R72: the step that ends a command sets DONE and writes no memory, and no other step changes
STATUS, so every write precedes DONE. -/
def Obligations.EndingStepWritesNothing : Prop :=
  ∀ (i : Instr) (s t : State), exec i s = .next t →
    (t.unit.phase = .idle →
      t.mem = s.mem ∧ t.unit.status.busy = false ∧ t.unit.status.done = true) ∧
    (t.unit.phase ≠ .idle → t.unit.status = s.unit.status)

/-- 20_memory.md R63: every access of a unit in a state its rules reach is naturally aligned. -/
def Obligations.UnitAccessesAreAligned : Prop :=
  ∀ (i : Instr) (u : Dqba) (a : Word) (w : Width), u.Inv → decode u.lopc = .ok i →
    unitAccess i u = some (a, w) → a.toNat % Width.bytes w = 0

/-! ## The delta datapath -/

/-- 41_delta_datapath.md R121: the exact difference, saturated to -32768..32767. -/
def Obligations.SubtractorSaturates : Prop :=
  ∀ c a : Half,
    (-32768 ≤ (c.toNat : Int) - a.toNat → (c.toNat : Int) - a.toNat ≤ 32767 →
      sub16s c a = (c.toNat : Int) - a.toNat) ∧
    ((c.toNat : Int) - a.toNat < -32768 → sub16s c a = -32768) ∧
    (32767 < (c.toNat : Int) - a.toNat → sub16s c a = 32767)

/-- 41_delta_datapath.md R124. -/
def Obligations.SaturationChangesNoRangeDecision : Prop :=
  ∀ c a : Half,
    (inRange (delta c a) = true ↔ -512 ≤ (c.toNat : Int) - a.toNat ∧ (c.toNat : Int) - a.toNat ≤ 511) ∧
    (inRange (delta c a) = true → delta c a = 512 + ((c.toNat : Int) - a.toNat))

/-- 41_delta_datapath.md R126: the fields of a packed word, its low bits, and injectivity. -/
def Obligations.PackedWordLayout : Prop :=
  ∀ dx dy dz : Int, inRange dx = true → inRange dy = true → inRange dz = true →
    ((packw dx dy dz).extractLsb' 22 10).toNat = dx.toNat ∧
    ((packw dx dy dz).extractLsb' 12 10).toNat = dy.toNat ∧
    ((packw dx dy dz).extractLsb' 2 10).toNat = dz.toNat ∧
    (packw dx dy dz).extractLsb' 0 2 = 0#2 ∧
    ∀ ex ey ez : Int, inRange ex = true → inRange ey = true → inRange ez = true →
      packw dx dy dz = packw ex ey ez → dx = ex ∧ dy = ey ∧ dz = ez

/-- 41_delta_datapath.md R130: against itself a vertex has the delta 512 on every axis, never overflows, and
its word is 0x80200800. -/
def Obligations.FirstVertexOfABlockNeverOverflows : Prop :=
  ∀ v : Vec3, delta v.x v.x = 512 ∧ delta v.y v.y = 512 ∧ delta v.z v.z = 512 ∧ ovf v v = false ∧
    vertexWord v v = packw 512 512 512 ∧ packw 512 512 512 = 0x80200800#32

/-- 41_delta_datapath.md R128: a real vertex encodes to the padding word exactly at displacement -512 on
every axis. -/
def Obligations.ZeroWordCanBeAVertex : Prop :=
  ∀ v a : Vec3, ovf v a = false →
    (vertexWord v a = 0#32 ↔
      (v.x.toNat : Int) = a.x.toNat - 512 ∧ (v.y.toNat : Int) = a.y.toNat - 512 ∧
        (v.z.toNat : Int) = a.z.toNat - 512)

/-- 41_delta_datapath.md R131: the anchor and the fields of a vertex's word give the vertex back, and it lies
within -512..511 of the anchor. -/
def Obligations.PackedWordDecodesToItsVertex : Prop :=
  ∀ v a : Vec3, ovf v a = false →
    decodeAxis a.x (xField (vertexWord v a)) = v.x.toNat ∧
    decodeAxis a.y (yField (vertexWord v a)) = v.y.toNat ∧
    decodeAxis a.z (zField (vertexWord v a)) = v.z.toNat ∧
    -512 ≤ (v.x.toNat : Int) - a.x.toNat ∧ (v.x.toNat : Int) - a.x.toNat ≤ 511 ∧
    -512 ≤ (v.y.toNat : Int) - a.y.toNat ∧ (v.y.toNat : Int) - a.y.toNat ≤ 511 ∧
    -512 ≤ (v.z.toNat : Int) - a.z.toNat ∧ (v.z.toNat : Int) - a.z.toNat ≤ 511

/-! ## REMAP32 and REMAPG, step by step -/

/-- 43_remap.md R170, 60_exceptions.md R207: REMAP32 refuses misaligned bases, even for `n` = 0, and else
starts at element 0. -/
def Obligations.Remap32ChecksAlignment : Prop :=
  ∀ s : State, s.unit.phase = .decode →
    (s.unit.latch[1].toNat % 4 ≠ 0 ∨ s.unit.latch[2].toNat % 4 ≠ 0 →
      exec .remap32 s = .next { s with unit := s.unit.endedWithError 5#4 s.unit.result }) ∧
    (s.unit.latch[1].toNat % 4 = 0 → s.unit.latch[2].toNat % 4 = 0 →
      exec .remap32 s = .next { s with unit := { s.unit with i := 0#32, phase := .rmCheck } })

/-- 43_remap.md R172, R171, 60_exceptions.md R209: REMAPG refuses a stride other than 2 and 4 first, then
misaligned bases, and else starts at element 0. -/
def Obligations.RemapgChecksStrideThenAlignment : Prop :=
  ∀ s : State, s.unit.phase = .decode →
    (s.unit.latch[3] ≠ 2#32 → s.unit.latch[3] ≠ 4#32 →
      exec .remapg s = .next { s with unit := s.unit.endedWithError 4#4 s.unit.result }) ∧
    (s.unit.latch[3] = 2#32 ∨ s.unit.latch[3] = 4#32 →
      s.unit.latch[1].toNat % s.unit.latch[3].toNat ≠ 0 ∨ s.unit.latch[2].toNat % 4 ≠ 0 →
      exec .remapg s = .next { s with unit := s.unit.endedWithError 5#4 s.unit.result }) ∧
    (s.unit.latch[3] = 2#32 ∨ s.unit.latch[3] = 4#32 →
      s.unit.latch[1].toNat % s.unit.latch[3].toNat = 0 → s.unit.latch[2].toNat % 4 = 0 →
      exec .remapg s = .next { s with unit := { s.unit with i := 0#32, phase := .rmCheck } })

/-- 43_remap.md R170: one element of REMAP32, step by step: end or go on, index read, table read without a
range check, index write. -/
def Obligations.Remap32RewritesAnElement : Prop :=
  ∀ s : State,
    (s.unit.phase = .rmCheck → s.unit.i = s.unit.latch[0] →
      exec .remap32 s = .next { s with unit := s.unit.endedWell s.unit.result }) ∧
    (s.unit.phase = .rmCheck → s.unit.i ≠ s.unit.latch[0] →
      exec .remap32 s = .next { s with unit := { s.unit with phase := .rmRdIdx } }) ∧
    (∀ a, s.unit.phase = .rmRdIdx → a = BitVec.ofNat 32 (s.unit.latch[1].toNat + 4 * s.unit.i.toNat) →
      memOK s.refused a .word = true →
      exec .remap32 s = .next { s with unit := { s.unit with iv := wordAt s.mem a, phase := .rmRdTbl } }) ∧
    (∀ a, s.unit.phase = .rmRdTbl → a = BitVec.ofNat 32 (s.unit.latch[2].toNat + 4 * s.unit.iv.toNat) →
      memOK s.refused a .word = true →
      exec .remap32 s = .next { s with unit := { s.unit with tv := wordAt s.mem a, phase := .rmWrIdx } }) ∧
    (∀ a, s.unit.phase = .rmWrIdx → a = BitVec.ofNat 32 (s.unit.latch[1].toNat + 4 * s.unit.i.toNat) →
      memOK s.refused a .word = true →
      ∃ m, storesWord s.mem m a s.unit.tv ∧
        exec .remap32 s =
          .next { s with mem := m, unit := { s.unit with i := s.unit.i + 1#32, phase := .rmCheck } })

/-- 43_remap.md R171, R174: one 16-bit element of REMAPG: the index widened with zeros, the table entry, its
low 16 bits written back. -/
def Obligations.RemapgRewritesA16BitElement : Prop :=
  ∀ s : State, s.unit.latch[3] = 2#32 →
    (s.unit.phase = .rmCheck → s.unit.i = s.unit.latch[0] →
      exec .remapg s = .next { s with unit := s.unit.endedWell s.unit.result }) ∧
    (s.unit.phase = .rmCheck → s.unit.i ≠ s.unit.latch[0] →
      exec .remapg s = .next { s with unit := { s.unit with phase := .rmRdIdx } }) ∧
    (∀ a, s.unit.phase = .rmRdIdx → a = BitVec.ofNat 32 (s.unit.latch[1].toNat + 2 * s.unit.i.toNat) →
      memOK s.refused a .half = true →
      exec .remapg s =
        .next { s with unit := { s.unit with iv := (halfAt s.mem a).setWidth 32, phase := .rmRdTbl } }) ∧
    (∀ a, s.unit.phase = .rmRdTbl → a = BitVec.ofNat 32 (s.unit.latch[2].toNat + 4 * s.unit.iv.toNat) →
      memOK s.refused a .word = true →
      exec .remapg s = .next { s with unit := { s.unit with tv := wordAt s.mem a, phase := .rmWrIdx } }) ∧
    (∀ a, s.unit.phase = .rmWrIdx → a = BitVec.ofNat 32 (s.unit.latch[1].toNat + 2 * s.unit.i.toNat) →
      memOK s.refused a .half = true →
      ∃ m, storesHalf s.mem m a (s.unit.tv.extractLsb' 0 16) ∧
        exec .remapg s =
          .next { s with mem := m, unit := { s.unit with i := s.unit.i + 1#32, phase := .rmCheck } })

/-- 43_remap.md R176: with `istride` = 4, REMAPG takes in every phase the step REMAP32 takes. -/
def Obligations.RemapgWithStrideFourIsRemap32 : Prop :=
  ∀ s : State, s.unit.latch[3] = 4#32 → exec .remapg s = exec .remap32 s

/-! ## Memory, reset, the other agents -/

/-- 20_memory.md R61: little-endian accesses of 2 and 4 bytes, addresses mod 2^32, and a 2-byte read of the
low half of a stored 4-byte element. -/
def Obligations.AccessesAreLittleEndian : Prop :=
  ∀ (m : Memory) (a v : Word),
    storesWord m (m.store a .word v) a v ∧ storesHalf m (m.store a .half v) a (v.extractLsb' 0 16) ∧
    m.load a .word = wordAt m a ∧ m.load a .half = (halfAt m a).setWidth 32 ∧
    (m.store a .word v).load a .word = v ∧
    (m.store a .word v).load a .half = (v.extractLsb' 0 16).setWidth 32

/-- 10_state.md R45: what the spec says every register holds after reset. -/
def Obligations.ResetLeavesTheSpecifiedValues : Prop := State.reset.unit.holdsResetValues

/-- 70_reset_and_hazards.md R230, R231, R232, 60_exceptions.md R219: reset of any instance at any point, a
command in flight or not: its registers take the values of R45, memory, the other instances and every
other agent keep theirs. -/
def Obligations.ResetAbandonsTheCommandAndKeepsMemory : Prop :=
  (∀ (s : State) (rest : List Turn), s.turns = .act (.reset 0) :: rest →
    ∃ t, step s = .next t ∧ t = { s with turns := rest, unit := t.unit } ∧
      t.unit.holdsResetValues ∧ t.unit.base = s.unit.base) ∧
  ∀ (s : State) (rest : List Turn) (k : Nat) (u : Dqba), s.turns = .act (.reset (k + 1)) :: rest →
    s.others[k]? = some u →
    ∃ t v, step s = .next t ∧ t = { s with turns := rest, others := t.others } ∧
      t.others.length = s.others.length ∧ t.others[k]? = some v ∧ v.holdsResetValues ∧
      v.base = u.base ∧ ∀ j, j ≠ k → t.others[j]? = s.others[j]?

/-- 60_exceptions.md R219, 40_block_size.md R112: a step of one instance changes no register of another. -/
def Obligations.InstancesShareNoRegister : Prop :=
  ∀ (k : Nat) (s t : State), stepUnit k s = .next t →
    t.others.length = s.others.length ∧ (k ≠ 0 → t.unit = s.unit) ∧
    (∀ j, k ≠ j + 1 → t.others[j]? = s.others[j]?) ∧
    t = { s with unit := t.unit, others := t.others, mem := t.mem }

/-- 10_state.md R35, 20_memory.md R60, R64: the host's own memory accesses move bytes at addresses mod 2^32
and touch no unit (that they are one step of any length is log 13, the model's choice). -/
def Obligations.HostMemoryAccessesMoveBytes : Prop :=
  ∀ (s : State) (a : Word) (vs : List Byte), vs.length ≤ 2 ^ 32 →
    hostAct (.memWrite a vs) s = { s with mem := (hostAct (.memWrite a vs) s).mem } ∧
    (∀ (j : Nat) (h : j < vs.length),
      (hostAct (.memWrite a vs) s).mem.readByte ((a.toNat + j) % 2 ^ 32) = vs[j]) ∧
    (∀ x, ¬ inBytes a.toNat vs.length x →
      (hostAct (.memWrite a vs) s).mem.readByte x = s.mem.readByte x) ∧
    hostAct (.memRead a vs.length) (hostAct (.memWrite a vs) s) =
      { hostAct (.memWrite a vs) s with reads := s.reads ++ [leValue vs] }

/-- Who writes each host-visible register: over every step of every agent, RESULT changes only at the end of
a REPACK, BLOCK_SIZE only by SETBS, ANCHOR only at a block start of REPACK, and each of them by reset
of this unit (10_state.md R27, R29, R40). -/
def Obligations.OnlyTheirCommandsWriteTheRegisters : Prop :=
  ∀ s t : State, step s = .next t → (∀ rest, s.turns ≠ .act (.reset 0) :: rest) →
    (t.unit.result ≠ s.unit.result →
      s.unit.status.busy = true ∧ s.unit.lopc = encode .repack ∧ t.unit.phase = .idle ∧
        (t.unit.status.err = false → s.unit.phase = .rpCheck ∧ t.unit.result = s.unit.p) ∧
        (t.unit.status.err = true → t.unit.result = 0xFFFFFFFF#32)) ∧
    (t.unit.blockSize ≠ s.unit.blockSize →
      s.unit.status.busy = true ∧ s.unit.lopc = encode .setbs ∧ s.unit.phase = .sbWrite ∧
        t.unit.blockSize = s.unit.latch[0]) ∧
    (t.unit.anchor ≠ s.unit.anchor →
      s.unit.status.busy = true ∧ s.unit.lopc = encode .repack ∧ s.unit.phase = .rpBlock ∧
        s.unit.p.toNat % s.unit.lbs.toNat = 0 ∧ t.unit.anchor = s.unit.v)

/-! ## Host programs -/

/-- 30_encoding.md R98: what each program operation on the window does. -/
def Obligations.ProgramOperationsActOnTheWindow : Prop :=
  ∀ (s : State) (off : Nat), off < 0x40 →
    (∀ v, s.program[s.line]? = some (.wr off v) →
      hostLine s = .next { s with unit := s.unit.windowWrite off 4 v, line := s.line + 1 }) ∧
    (s.program[s.line]? = some (.rd off) →
      hostLine s =
        .next { s with reads := s.reads ++ [(s.unit.windowRead off 4).toNat], line := s.line + 1 }) ∧
    ∀ n target, n < 32 → s.program[s.line]? = some (.bit off n target) →
      hostLine s =
        .next { s with line := if (s.unit.windowRead off 4).getLsbD n then target else s.line + 1 }

/-- 30_encoding.md R99, R100, R98: the expansion of command lines and pseudo-instructions, and of the
primitive lines. -/
def Obligations.CommandLinesExpandToRegisterWrites : Prop :=
  ∀ (labels : Nat → Nat) (here : Nat) (n inp anc pk rm stride max : Word),
    (AsmLine.setbs n).ops labels here = [.wr 0x10 n, .wr 0x00 1#32] ∧
    (AsmLine.repack n inp anc pk rm stride max).ops labels here =
      [.wr 0x10 n, .wr 0x14 inp, .wr 0x18 anc, .wr 0x1C pk, .wr 0x20 rm, .wr 0x24 stride, .wr 0x28 max,
        .wr 0x00 2#32] ∧
    (AsmLine.remap32 n inp anc).ops labels here =
      [.wr 0x10 n, .wr 0x14 inp, .wr 0x18 anc, .wr 0x00 3#32] ∧
    (AsmLine.remapg n inp anc stride).ops labels here =
      [.wr 0x10 n, .wr 0x14 inp, .wr 0x18 anc, .wr 0x1C stride, .wr 0x00 4#32] ∧
    (AsmLine.remap16 n inp anc).ops labels here = (AsmLine.remapg n inp anc 2#32).ops labels here ∧
    (AsmLine.remapg32 n inp anc).ops labels here = (AsmLine.remapg n inp anc 4#32).ops labels here ∧
    AsmLine.wait.ops labels here = [.bit 0x04 0 here] ∧ AsmLine.nop.ops labels here = [] ∧
    (∀ w, (AsmLine.cmd w).ops labels here = [.wr 0x00 w]) ∧
    (∀ off v, (AsmLine.wr off v).ops labels here = [.wr off v]) ∧
    (∀ off, (AsmLine.rd off).ops labels here = [.rd off]) ∧
    (∀ off bit name, (AsmLine.bit off bit name).ops labels here = [.bit off bit (labels name)]) ∧
    ∀ name, (AsmLine.label name).ops labels here = []

/-- 30_encoding.md R98: a label names the operation its next line starts at, and every branch to it goes
there. Of two labels with one name this is the first, and after the last line it is the end of the
program: log 18, the model's choice, as is that a program with an undefined label has no expansion. -/
def Obligations.LabelsNameTheNextLine : Prop :=
  ∀ (before rest : List AsmLine) (name : Nat) (ops : List HostOp),
    .label name ∉ before → assemble (before ++ .label name :: rest) = some ops →
    ∃ front back, ops = front ++ back ∧
      front = expandFrom (labelsOf (before ++ .label name :: rest)) 0 before ∧
      back = expandFrom (labelsOf (before ++ .label name :: rest)) front.length rest ∧
      labelAt 0 (before ++ .label name :: rest) name = some front.length ∧
      ∀ (l r : List AsmLine) (off n : Nat), before ++ .label name :: rest = l ++ .bit off n name :: r →
        ops[(expandFrom (labelsOf (before ++ .label name :: rest)) 0 l).length]? =
          some (.bit off n front.length)

/-! ## Invariants -/

/-- The invariant holds after reset. -/
def Obligations.InvariantHoldsAtReset : Prop := State.reset.Inv

/-- Every step of every agent keeps the invariant: memory canonical, every window aligned, STATUS legal,
PHASE IDLE exactly when BUSY is 0, and every counter where the pseudocode can have brought it. -/
def Obligations.EveryStepKeepsTheInvariant : Prop :=
  ∀ s t : State, s.Inv → step s = .next t → t.Inv

/-- 70_reset_and_hazards.md R243: a busy unit always has an enabled step. -/
def Obligations.BusyUnitAlwaysHasAStep : Prop :=
  ∀ s : State, s.unit.Inv → s.unit.status.busy = true → ∃ t, unitStep s = .next t

/-- 42_repack.md R153, R154: a block that starts at slot `p` is number `p div BS`, and the padding loop is
entered only inside a block. -/
def Obligations.BlocksAreNumberedByTheirSlots : Prop :=
  ∀ s t : State, s.unit.Inv → s.unit.lopc = encode .repack → exec .repack s = .next t →
    (t.unit.phase = .rpAnchor 0 →
      t.unit.b.toNat = s.unit.p.toNat / s.unit.lbs.toNat ∧
        s.unit.p.toNat = t.unit.b.toNat * s.unit.lbs.toNat) ∧
    (s.unit.phase = .rpEval → t.unit.phase = .rpPad → s.unit.p.toNat % s.unit.lbs.toNat ≠ 0)

/-- 42_repack.md R155: the bounds of RESULT on success with `n >= 1`. -/
def Obligations.RepackLengthIsBounded : Prop :=
  ∀ s t : State, s.unit.Inv → s.unit.lopc = encode .repack → exec .repack s = .next t →
    t.unit.phase = .idle → t.unit.status.err = false → 1 ≤ s.unit.count.toNat →
    s.unit.count.toNat ≤ t.unit.result.toNat ∧
    t.unit.result.toNat ≤
      s.unit.count.toNat + (s.unit.count.toNat - 1) * (s.unit.lbs.toNat - 1) ∧
    s.unit.count.toNat + (s.unit.count.toNat - 1) * (s.unit.lbs.toNat - 1) ≤
      s.unit.count.toNat * s.unit.lbs.toNat ∧
    t.unit.result.toNat ≤ s.unit.rpMax.toNat

/-- 42_repack.md R157: a step of REPACK writes only packed slots below `max`, anchors of blocks the capacity
touches and remap entries below `n`, and reads only components of vertices below `n`. -/
def Obligations.RepackStaysInItsBuffers : Prop :=
  ∀ s t : State, s.unit.Inv → s.unit.lopc = encode .repack → exec .repack s = .next t →
    (∀ x, t.mem.readByte x ≠ s.mem.readByte x →
      packedByte s s.unit.rpMax.toNat x ∨ anchorByte s (maxBlocks s) x ∨
        remapByte s s.unit.count.toNat x) ∧
    ∀ a w, unitAccess .repack s.unit = some (a, w) → s.unit.phase.reads = true →
      ∃ i < s.unit.count.toNat, ∃ k < 3, a = s.unit.inputAddr i k

/-! ## Whole commands -/

/-- 70_reset_and_hazards.md R243, 42_repack.md R161: a busy unit that is about to decode its word, legal or
not, or stands anywhere in its command (the invariant) ends within `stepBound` steps, with DONE = 1, when
the schedule is used up. The number of steps is the model's (log 1), and so is that nobody else moves
then (log 6). -/
def Obligations.EveryAcceptedCommandEnds : Prop :=
  ∀ s : State, s.turns = [] → s.unit.status.busy = true → s.unit.phase = .decode ∨ s.unit.Inv →
    ∃ k ≤ stepBound s.unit, ∃ t, runSteps k s = .next t ∧ t.unit.phase = .idle ∧
      t.unit.status.busy = false ∧ t.unit.status.done = true

/-- 42_repack.md R161: the bound on a REPACK's memory accesses, whatever the operands, memory and MemOK, and
under every schedule: the host, its program and other instances may act in between. -/
def Obligations.RepackAccessesAreBounded : Prop :=
  ∀ (s : State) (k : Nat), s.unit.status.busy = true → s.unit.phase = .decode →
    s.unit.lopc = encode .repack →
    accessesIn .repack k s ≤
      6 * s.unit.count.toNat + s.unit.rpMax.toNat + s.unit.count.toNat +
        3 * min s.unit.count.toNat (maxBlocks s)

/-- 42_repack.md R140: with the schedule used up (nobody else moves before the end: log 6), over disjoint
admitted buffers none of which wraps onto itself, an accepted REPACK computes `packVertices` of the
vertices it reads. On success RESULT is the length, the packed slots, anchors and remap entries hold
its output, ANCHOR the last anchor, and no other byte changes; on failure CAPACITY and the sentinel. -/
def Obligations.RepackComputesThePacking : Prop :=
  ∀ s : State, accepted .repack s → RepackBuffers s →
    match packVertices s.unit.lbs.toNat s.unit.rpMax.toNat (inputVertices s) 0 s.unit.anchor with
    | some r => ∃ k t, runSteps k s = .next t ∧ onlyUnitAndMem s t ∧ t.unit.phase = .idle ∧
        t.unit.status = s.unit.status.completed ∧ t.unit.result = BitVec.ofNat 32 r.words.length ∧
        t.unit.anchor = r.anchors.getLastD s.unit.anchor ∧
        (∀ (p : Nat) (h : p < r.words.length), wordAt t.mem (s.unit.packedAddr p) = r.words[p]) ∧
        (∀ (b : Nat) (h : b < r.anchors.length) (k : Fin 3),
          halfAt t.mem (s.unit.anchorAddr b k) = r.anchors[b].get k) ∧
        (∀ (i : Nat) (h : i < r.slots.length),
          wordAt t.mem (s.unit.remapAddr i) = BitVec.ofNat 32 r.slots[i]) ∧
        ∀ x, ¬ packedByte s r.words.length x → ¬ anchorByte s r.anchors.length x →
          ¬ remapByte s r.slots.length x → t.mem.readByte x = s.mem.readByte x
    | none => ∃ k t, runSteps k s = .next t ∧ onlyUnitAndMem s t ∧ t.unit.phase = .idle ∧
        t.unit.status.done = true ∧ t.unit.status.err = true ∧ t.unit.status.errcode = 1#4 ∧
        t.unit.result = 0xFFFFFFFF#32

/-- 42_repack.md R156, R160: what a packing that succeeds has: one slot per vertex, strictly increasing and
below the length; the slot of a vertex holds its word against the anchor of its block; one anchor per
block; every slot no vertex has holds the padding word. -/
def Obligations.PackingMapsEachVertexToItsSlot : Prop :=
  ∀ (bs max : Nat) (vs : List Vec3) (a : Vec3) (r : Packed), 0 < bs →
    packVertices bs max vs 0 a = some r →
    r.slots.length = vs.length ∧ r.slots.Pairwise (· < ·) ∧ r.words.length ≤ max ∧
    r.anchors.length = blocksBelow r.words.length bs ∧
    (∀ (i : Nat) (h : i < r.slots.length) (hv : i < vs.length),
      ∃ (hw : r.slots[i] < r.words.length) (hb : r.slots[i] / bs < r.anchors.length),
        r.words[r.slots[i]] = vertexWord vs[i] r.anchors[r.slots[i] / bs] ∧
        ovf vs[i] r.anchors[r.slots[i] / bs] = false) ∧
    ∀ (p : Nat) (h : p < r.words.length), p ∉ r.slots → r.words[p] = 0#32

/-- 43_remap.md R175: with the schedule used up (nobody else moves before the end: log 6), an accepted remap
command whose accesses are admitted rewrites elements 0 to n - 1 in order, whatever overlaps, and ends
without error; RESULT, BLOCK_SIZE and ANCHOR stay. That it takes 4n + 2 steps is the model's (log 1). -/
def Obligations.RemapCommandsRewriteInOrder : Prop :=
  ∀ (s : State) (i : Instr) (w : Width),
    (i = .remap32 ∧ w = .word ∧ s.unit.remap32Legal) ∨
      (i = .remapg ∧ strideWidth s.unit.rmStride = some w ∧ s.unit.remapgLegal) →
    accepted i s → (∀ a v, memOK s.refused a v = true) →
    ∃ t, runSteps (4 * s.unit.count.toNat + 2) s = .next t ∧ onlyUnitAndMem s t ∧
      t.mem = remapElements s.unit w s.mem s.unit.count.toNat ∧ t.unit.phase = .idle ∧
      t.unit.status = s.unit.status.completed ∧ t.unit.result = s.unit.result ∧
      t.unit.blockSize = s.unit.blockSize ∧ t.unit.anchor = s.unit.anchor

/-- 43_remap.md R177: where the elements do not overlap the entries they name, element `i` holds the table's
entry of its old value, narrowed to its width, and no other byte changes. -/
def Obligations.RemapAppliesTheTable : Prop :=
  ∀ (s : State) (w : Width), RemapBuffers s w →
    (∀ i < s.unit.count.toNat,
      (remapElements s.unit w s.mem s.unit.count.toNat).load (s.unit.indexAddr w i) w =
        narrow w (s.mem.load
          (s.unit.tableAddr (s.mem.load (s.unit.indexAddr w i) w).toNat) .word)) ∧
    ∀ x, ¬ inBytes s.unit.rmIdx.toNat (Width.bytes w * s.unit.count.toNat) x →
      (remapElements s.unit w s.mem s.unit.count.toNat).readByte x = s.mem.readByte x

/-- 10_state.md R36, R43: the latches, counters and temporaries an idle unit holds are never observed: two
machines that differ in them alone show the same registers, memory and host reads after every run. -/
def Obligations.IdleInternalsAreNeverObserved : Prop :=
  ∀ (s : State) (src : Dqba) (k : Nat), s.unit.status.busy = false → s.unit.phase = .idle →
    mapNext State.visible (runSteps k { s with unit := s.unit.withInternals src }) =
      mapNext State.visible (runSteps k s)
end

