-- ==== Sys2Proof/Laws/Blocks.lean ====
section
/-! SUPPORT. The arithmetic of slots, blocks and buffers: the block count below a slot at a boundary,
inside a block and after one more slot, the block size as a number, and the bytes of a buffer that does
not wrap. -/

namespace Sys2Proof.Machine

/-- One more slot: the blocks touched below `p + 1` are those up to the one of `p`. -/
theorem blocksBelow_succ {p bs : Nat} (h : 0 < bs) : blocksBelow (p + 1) bs = p / bs + 1 := by
  unfold blocksBelow
  rw [show p + 1 + bs - 1 = p + bs by omega, Nat.add_div_right _ h]

/-- Inside a block the current one counts. -/
theorem blocksBelow_of_inside {p bs : Nat} (h : 0 < bs) (hp : p % bs ≠ 0) :
    blocksBelow p bs = p / bs + 1 := by
  obtain ⟨q, rfl⟩ : ∃ q, p = q + 1 := ⟨p - 1, by
    have : p ≠ 0 := fun h0 => hp (by rw [h0, Nat.zero_mod])
    omega⟩
  rw [blocksBelow_succ h, Nat.succ_div, if_neg fun hd => hp (Nat.mod_eq_zero_of_dvd hd)]

/-- At a boundary only finished blocks count. -/
theorem blocksBelow_of_boundary {p bs : Nat} (h : 0 < bs) (hp : p % bs = 0) :
    blocksBelow p bs = p / bs := by
  obtain ⟨q, rfl⟩ := Nat.dvd_of_mod_eq_zero hp
  unfold blocksBelow
  rw [Nat.mul_div_cancel_left _ h, show bs * q + bs - 1 = bs - 1 + bs * q by omega,
    Nat.add_mul_div_left _ _ h, Nat.div_eq_of_lt (by omega), Nat.zero_add]

/-- A slot below the capacity lies in a block the capacity touches. -/
theorem div_lt_blocksBelow {p m bs : Nat} (h : 0 < bs) (hp : p < m) : p / bs < blocksBelow m bs := by
  unfold blocksBelow
  rw [Nat.lt_iff_add_one_le, Nat.le_div_iff_mul_le h, Nat.succ_mul]
  have := Nat.div_mul_le_self p bs
  omega

/-- A positive signed 32-bit value is its unsigned value, below 2^31. -/
theorem toNat_of_toInt_pos {x : Word} (h : 0 < x.toInt) : 0 < x.toNat ∧ x.toNat < 2 ^ 31 := by
  rw [BitVec.toInt_eq_toNat_cond] at h
  split at h <;> omega

/-- A counter below a bound advances without wrapping. -/
theorem toNat_succ_of_lt {w m : Word} (h : w.toNat < m.toNat) : (w + 1#32).toNat = w.toNat + 1 := by
  have := m.isLt
  rw [BitVec.toNat_add]
  simp only [BitVec.toNat_ofNat]
  omega

/-- The bytes of a buffer that ends below 2^32 are an interval. -/
theorem inBytes_iff_of_fits {a n x : Nat} (h : a + n ≤ 2 ^ 32) : inBytes a n x ↔ a ≤ x ∧ x < a + n := by
  constructor
  · rintro ⟨j, hj, rfl⟩
    rw [Nat.mod_eq_of_lt (by omega)]
    omega
  · rintro ⟨h1, h2⟩
    exact ⟨x - a, by omega, by rw [Nat.mod_eq_of_lt (by omega)]; omega⟩

end Sys2Proof.Machine
end

