-- ==== Sys2Proof/Laws/Memory.lean ====
section
/-! SUPPORT. The laws of the data memory: a read after a write gives the value written, a write leaves
every other address alone, and every operation keeps the canonical form. -/

namespace Sys2Proof.Machine

/-! ## Single bytes -/

theorem Memory.erase_cons (c : Host.Cell) (m : Memory) (a : Nat) :
    Memory.erase (c :: m) a = if c.1 = a then Memory.erase m a else c :: Memory.erase m a := by
  by_cases h : c.1 = a <;> simp [Memory.erase, h]

theorem Memory.readByte_erase (m : Memory) (a x : Nat) :
    (m.erase a).readByte x = if x = a then Memory.unlisted else m.readByte x := by
  induction m with
  | nil => simp [Memory.erase, Memory.readByte]
  | cons c m ih =>
    obtain ⟨k, b⟩ := c
    by_cases hk : k = a
    · subst hk
      rw [Memory.erase_cons, if_pos rfl, ih]
      by_cases hx : x = k
      · simp [hx]
      · simp [hx, Memory.readByte, Ne.symm hx]
    · rw [Memory.erase_cons, if_neg hk, Memory.readByte, ih, Memory.readByte]
      by_cases hkx : k = x
      · subst hkx; simp [hk]
      · simp [hkx]

theorem Memory.readByte_insert (m : Memory) (a x : Nat) (v : Byte) (h : ∀ c ∈ m, c.1 ≠ a) :
    (m.insert a v).readByte x = if x = a then v else m.readByte x := by
  induction m with
  | nil => simp [Memory.insert, Memory.readByte, eq_comm]
  | cons c m ih =>
    obtain ⟨k, b⟩ := c
    have hk : k ≠ a := h (k, b) (by simp)
    have ih := ih fun c hc => h c (by simp [hc])
    unfold Memory.insert
    split
    · simp only [Memory.readByte, eq_comm]
    · simp only [Memory.readByte, ih]
      by_cases hkx : k = x
      · subst hkx; simp [hk]
      · simp [hkx]

/-- A read after a write of one byte: the byte written at that address, the old byte elsewhere. -/
theorem Memory.readByte_writeByte (m : Memory) (a x : Nat) (v : Byte) :
    (m.writeByte a v).readByte x = if x = a then v else m.readByte x := by
  unfold Memory.writeByte
  split
  · rename_i h
    rw [Memory.readByte_erase, h]
  · rw [Memory.readByte_insert, Memory.readByte_erase]
    · by_cases hx : x = a <;> simp [hx]
    · intro c hc
      simpa using (List.mem_filter.mp hc).2

theorem Memory.mem_insert {m : Memory} {a : Nat} {v : Byte} {c : Host.Cell} :
    c ∈ m.insert a v ↔ c = (a, v) ∨ c ∈ m := by
  induction m with
  | nil => simp [Memory.insert]
  | cons d m ih =>
    obtain ⟨k, b⟩ := d
    unfold Memory.insert
    split
    · simp
    · simp only [List.mem_cons, ih]; tauto

theorem Memory.wf_erase {m : Memory} (h : m.wf) (a : Nat) : (m.erase a).wf :=
  ⟨h.1.filter _, fun c hc => h.2 c (List.mem_of_mem_filter hc)⟩

theorem Memory.wf_insert {m : Memory} (h : m.wf) {a : Nat} {v : Byte} (ha : a < Config.memoryBytes)
    (hv : v ≠ Memory.unlisted) (hne : ∀ c ∈ m, c.1 ≠ a) : (m.insert a v).wf := by
  refine ⟨?_, fun c hc => ?_⟩
  · obtain ⟨hp, -⟩ := h
    induction m with
    | nil => simp [Memory.insert]
    | cons d m ih =>
      obtain ⟨k, b⟩ := d
      have hk : k ≠ a := hne (k, b) (by simp)
      rw [List.pairwise_cons] at hp
      unfold Memory.insert
      split
      · rename_i hlt
        refine List.pairwise_cons.mpr ⟨fun c hc => ?_, List.pairwise_cons.mpr hp⟩
        rcases List.mem_cons.mp hc with rfl | hc
        · exact hlt
        · exact lt_trans hlt (hp.1 c hc)
      · refine List.pairwise_cons.mpr ⟨fun c hc => ?_, ih (fun c hc => hne c (by simp [hc])) hp.2⟩
        rcases Memory.mem_insert.mp hc with rfl | hc
        · simp only; omega
        · exact hp.1 c hc
  · rcases Memory.mem_insert.mp hc with rfl | hc
    · exact ⟨ha, hv⟩
    · exact h.2 c hc

/-- Writing a byte keeps the canonical form. -/
theorem Memory.wf_writeByte {m : Memory} (h : m.wf) {a : Nat} (ha : a < Config.memoryBytes) (v : Byte) :
    (m.writeByte a v).wf := by
  unfold Memory.writeByte
  split
  · exact Memory.wf_erase h a
  · rename_i hv
    refine Memory.wf_insert (Memory.wf_erase h a) ha hv fun c hc => ?_
    simpa using (List.mem_filter.mp hc).2

/-! ## Runs of bytes -/

theorem Config.memoryBytes_pos : 0 < Config.memoryBytes := by decide

/-- Writing bytes keeps the canonical form. -/
theorem Memory.wf_writeBytes {m : Memory} (h : m.wf) (a : Nat) (vs : List Byte) :
    (m.writeBytes a vs).wf := by
  induction vs generalizing m a with
  | nil => exact h
  | cons v vs ih =>
    exact ih (Memory.wf_writeByte h (Nat.mod_lt _ Config.memoryBytes_pos) v) (a + 1)

/-- Storing a value keeps the canonical form. -/
theorem Memory.wf_store {m : Memory} (h : m.wf) (a : Word) (w : Width) (v : Word) : (m.store a w v).wf :=
  Memory.wf_writeBytes h _ _

/-- A write of bytes leaves every byte outside them alone. -/
theorem Memory.readByte_writeBytes_of_outside (m : Memory) (a x : Nat) (vs : List Byte)
    (h : ∀ j < vs.length, x ≠ (a + j) % Config.memoryBytes) :
    (m.writeBytes a vs).readByte x = m.readByte x := by
  induction vs generalizing m a with
  | nil => rfl
  | cons v vs ih =>
    rw [Memory.writeBytes, ih, Memory.readByte_writeByte, if_neg]
    · simpa using h 0 (by simp)
    · intro j hj
      have := h (j + 1) (by simpa using hj)
      rwa [show a + 1 + j = a + (j + 1) by omega]

/-- A read of byte `j` of a write of no more than 2^32 bytes gives that byte. -/
theorem Memory.readByte_writeBytes_of_inside (m : Memory) (a : Nat) (vs : List Byte)
    (hlen : vs.length ≤ Config.memoryBytes) (j : Nat) (hj : j < vs.length) :
    (m.writeBytes a vs).readByte ((a + j) % Config.memoryBytes) = vs[j] := by
  induction vs generalizing m a j with
  | nil => simp at hj
  | cons v vs ih =>
    simp only [List.length_cons] at hlen hj
    cases j with
    | zero =>
      rw [Memory.writeBytes, Memory.readByte_writeBytes_of_outside, Memory.readByte_writeByte]
      · simp
      · intro k hk
        simp only [Config.memoryBytes] at *
        omega
    | succ j =>
      rw [show a + (j + 1) = (a + 1) + j by omega, Memory.writeBytes]
      simpa using ih (m.writeByte (a % Config.memoryBytes) v) (a + 1) (by omega) j (by omega)

/-! ## Values -/

@[simp] theorem Memory.readBytes_length (m : Memory) (a n : Nat) : (m.readBytes a n).length = n := by
  induction n generalizing a with
  | zero => rfl
  | succ n ih => simp [Memory.readBytes, ih]

theorem Memory.getElem_readBytes (m : Memory) (a n j : Nat) (hj : j < (m.readBytes a n).length) :
    (m.readBytes a n)[j] = m.readByte ((a + j) % Config.memoryBytes) := by
  induction n generalizing a j with
  | zero => simp at hj
  | succ n ih =>
    cases j with
    | zero => simp [Memory.readBytes]
    | succ j =>
      simp only [Memory.readBytes, List.getElem_cons_succ]
      rw [ih]
      congr 2
      omega

@[simp] theorem leBytes_length (n v : Nat) : (leBytes n v).length = n := by
  induction n generalizing v with
  | zero => rfl
  | succ n ih => simp [leBytes, ih]

/-- The value of the low `n` bytes of `v` is `v mod 2^(8n)`. -/
theorem leValue_leBytes (n v : Nat) : leValue (leBytes n v) = v % 256 ^ n := by
  induction n generalizing v with
  | zero => simp [leBytes, leValue, Nat.mod_one]
  | succ n ih =>
    rw [leBytes, leValue, ih, BitVec.toNat_ofNat, show (2 : Nat) ^ 8 = 256 from rfl, pow_succ,
      mul_comm (256 ^ n) 256, Nat.mod_mul]

/-- Reading back the bytes a write stored. -/
theorem Memory.readBytes_writeBytes (m : Memory) (a : Nat) (vs : List Byte)
    (hlen : vs.length ≤ Config.memoryBytes) : (m.writeBytes a vs).readBytes a vs.length = vs := by
  apply List.ext_getElem
  · simp
  · intro j h1 h2
    rw [Memory.getElem_readBytes, Memory.readByte_writeBytes_of_inside m a vs hlen j h2]

/-- Reads depend only on the bytes they name. -/
theorem Memory.readBytes_congr {m m' : Memory} {a n : Nat}
    (h : ∀ j < n, m.readByte ((a + j) % Config.memoryBytes) = m'.readByte ((a + j) % Config.memoryBytes)) :
    m.readBytes a n = m'.readBytes a n := by
  apply List.ext_getElem
  · simp
  · intro j h1 h2
    rw [Memory.getElem_readBytes, Memory.getElem_readBytes]
    exact h j (by simpa using h1)

theorem Width.bytes_le (w : Width) : Width.bytes w ≤ 4 := by cases w <;> decide

/-- A load of a store at the same address and width gives the low bits stored. -/
theorem Memory.load_store (m : Memory) (a : Word) (w : Width) (v : Word) :
    (m.store a w v).load a w = BitVec.ofNat 32 (v.toNat % 256 ^ Width.bytes w) := by
  have h := Memory.readBytes_writeBytes m a.toNat (leBytes (Width.bytes w) v.toNat)
    (by rw [leBytes_length]; exact le_trans (Width.bytes_le w) (by decide))
  rw [leBytes_length] at h
  rw [Memory.load, Memory.store, h, leValue_leBytes]

/-- A store leaves every byte outside its own alone. -/
theorem Memory.readByte_store_of_outside (m : Memory) (a : Word) (w : Width) (v : Word) (x : Nat)
    (h : ∀ j < Width.bytes w, x ≠ (a.toNat + j) % Config.memoryBytes) :
    (m.store a w v).readByte x = m.readByte x :=
  Memory.readByte_writeBytes_of_outside m _ _ _ (by simpa using h)

/-- A load depends only on its own bytes. -/
theorem Memory.load_congr {m m' : Memory} {a : Word} {w : Width}
    (h : ∀ j < Width.bytes w, m.readByte ((a.toNat + j) % Config.memoryBytes) =
      m'.readByte ((a.toNat + j) % Config.memoryBytes)) : m.load a w = m'.load a w := by
  rw [Memory.load, Memory.load, Memory.readBytes_congr h]

end Sys2Proof.Machine
end

