-- ==== Sys2Proof/Laws/State.lean ====
section
/-! SUPPORT. One lemma per field per named update of the state, true by definition, so that no proof
unfolds a record update. -/

namespace Sys2Proof.Machine

/-! ### State.withUnit -/

@[simp] theorem State.withUnit_unit (s : State) (u : Dqba) :
    (s.withUnit u).unit = u := rfl

@[simp] theorem State.withUnit_others (s : State) (u : Dqba) :
    (s.withUnit u).others = s.others := rfl

@[simp] theorem State.withUnit_mem (s : State) (u : Dqba) :
    (s.withUnit u).mem = s.mem := rfl

@[simp] theorem State.withUnit_refused (s : State) (u : Dqba) :
    (s.withUnit u).refused = s.refused := rfl

@[simp] theorem State.withUnit_turns (s : State) (u : Dqba) :
    (s.withUnit u).turns = s.turns := rfl

@[simp] theorem State.withUnit_program (s : State) (u : Dqba) :
    (s.withUnit u).program = s.program := rfl

@[simp] theorem State.withUnit_line (s : State) (u : Dqba) :
    (s.withUnit u).line = s.line := rfl

@[simp] theorem State.withUnit_reads (s : State) (u : Dqba) :
    (s.withUnit u).reads = s.reads := rfl

/-! ### State.withMem -/

@[simp] theorem State.withMem_unit (s : State) (m : Memory) :
    (s.withMem m).unit = s.unit := rfl

@[simp] theorem State.withMem_others (s : State) (m : Memory) :
    (s.withMem m).others = s.others := rfl

@[simp] theorem State.withMem_mem (s : State) (m : Memory) :
    (s.withMem m).mem = m := rfl

@[simp] theorem State.withMem_refused (s : State) (m : Memory) :
    (s.withMem m).refused = s.refused := rfl

@[simp] theorem State.withMem_turns (s : State) (m : Memory) :
    (s.withMem m).turns = s.turns := rfl

@[simp] theorem State.withMem_program (s : State) (m : Memory) :
    (s.withMem m).program = s.program := rfl

@[simp] theorem State.withMem_line (s : State) (m : Memory) :
    (s.withMem m).line = s.line := rfl

@[simp] theorem State.withMem_reads (s : State) (m : Memory) :
    (s.withMem m).reads = s.reads := rfl

/-! ### State.withOthers -/

@[simp] theorem State.withOthers_unit (s : State) (us : List Dqba) :
    (s.withOthers us).unit = s.unit := rfl

@[simp] theorem State.withOthers_others (s : State) (us : List Dqba) :
    (s.withOthers us).others = us := rfl

@[simp] theorem State.withOthers_mem (s : State) (us : List Dqba) :
    (s.withOthers us).mem = s.mem := rfl

@[simp] theorem State.withOthers_refused (s : State) (us : List Dqba) :
    (s.withOthers us).refused = s.refused := rfl

@[simp] theorem State.withOthers_turns (s : State) (us : List Dqba) :
    (s.withOthers us).turns = s.turns := rfl

@[simp] theorem State.withOthers_program (s : State) (us : List Dqba) :
    (s.withOthers us).program = s.program := rfl

@[simp] theorem State.withOthers_line (s : State) (us : List Dqba) :
    (s.withOthers us).line = s.line := rfl

@[simp] theorem State.withOthers_reads (s : State) (us : List Dqba) :
    (s.withOthers us).reads = s.reads := rfl

/-! ### State.withTurns -/

@[simp] theorem State.withTurns_unit (s : State) (ts : List Turn) :
    (s.withTurns ts).unit = s.unit := rfl

@[simp] theorem State.withTurns_others (s : State) (ts : List Turn) :
    (s.withTurns ts).others = s.others := rfl

@[simp] theorem State.withTurns_mem (s : State) (ts : List Turn) :
    (s.withTurns ts).mem = s.mem := rfl

@[simp] theorem State.withTurns_refused (s : State) (ts : List Turn) :
    (s.withTurns ts).refused = s.refused := rfl

@[simp] theorem State.withTurns_turns (s : State) (ts : List Turn) :
    (s.withTurns ts).turns = ts := rfl

@[simp] theorem State.withTurns_program (s : State) (ts : List Turn) :
    (s.withTurns ts).program = s.program := rfl

@[simp] theorem State.withTurns_line (s : State) (ts : List Turn) :
    (s.withTurns ts).line = s.line := rfl

@[simp] theorem State.withTurns_reads (s : State) (ts : List Turn) :
    (s.withTurns ts).reads = s.reads := rfl

/-! ### State.withLine -/

@[simp] theorem State.withLine_unit (s : State) (n : Nat) :
    (s.withLine n).unit = s.unit := rfl

@[simp] theorem State.withLine_others (s : State) (n : Nat) :
    (s.withLine n).others = s.others := rfl

@[simp] theorem State.withLine_mem (s : State) (n : Nat) :
    (s.withLine n).mem = s.mem := rfl

@[simp] theorem State.withLine_refused (s : State) (n : Nat) :
    (s.withLine n).refused = s.refused := rfl

@[simp] theorem State.withLine_turns (s : State) (n : Nat) :
    (s.withLine n).turns = s.turns := rfl

@[simp] theorem State.withLine_program (s : State) (n : Nat) :
    (s.withLine n).program = s.program := rfl

@[simp] theorem State.withLine_line (s : State) (n : Nat) :
    (s.withLine n).line = n := rfl

@[simp] theorem State.withLine_reads (s : State) (n : Nat) :
    (s.withLine n).reads = s.reads := rfl

/-! ### State.logRead -/

@[simp] theorem State.logRead_unit (s : State) (v : Nat) :
    (s.logRead v).unit = s.unit := rfl

@[simp] theorem State.logRead_others (s : State) (v : Nat) :
    (s.logRead v).others = s.others := rfl

@[simp] theorem State.logRead_mem (s : State) (v : Nat) :
    (s.logRead v).mem = s.mem := rfl

@[simp] theorem State.logRead_refused (s : State) (v : Nat) :
    (s.logRead v).refused = s.refused := rfl

@[simp] theorem State.logRead_turns (s : State) (v : Nat) :
    (s.logRead v).turns = s.turns := rfl

@[simp] theorem State.logRead_program (s : State) (v : Nat) :
    (s.logRead v).program = s.program := rfl

@[simp] theorem State.logRead_line (s : State) (v : Nat) :
    (s.logRead v).line = s.line := rfl

@[simp] theorem State.logRead_reads (s : State) (v : Nat) :
    (s.logRead v).reads = s.reads ++ [v] := rfl

/-! ### State.goto -/

@[simp] theorem State.goto_unit (s : State) (ph : Phase) :
    (s.goto ph).unit = { s.unit with phase := ph } := rfl

@[simp] theorem State.goto_others (s : State) (ph : Phase) :
    (s.goto ph).others = s.others := rfl

@[simp] theorem State.goto_mem (s : State) (ph : Phase) :
    (s.goto ph).mem = s.mem := rfl

@[simp] theorem State.goto_refused (s : State) (ph : Phase) :
    (s.goto ph).refused = s.refused := rfl

@[simp] theorem State.goto_turns (s : State) (ph : Phase) :
    (s.goto ph).turns = s.turns := rfl

@[simp] theorem State.goto_program (s : State) (ph : Phase) :
    (s.goto ph).program = s.program := rfl

@[simp] theorem State.goto_line (s : State) (ph : Phase) :
    (s.goto ph).line = s.line := rfl

@[simp] theorem State.goto_reads (s : State) (ph : Phase) :
    (s.goto ph).reads = s.reads := rfl

/-! ### complete -/

@[simp] theorem complete_unit (r : Option Word) (s : State) :
    (complete r s).unit =
      { s.unit with
        phase := .idle
        status := s.unit.status.completed
        result := r.getD s.unit.result } := rfl

@[simp] theorem complete_others (r : Option Word) (s : State) :
    (complete r s).others = s.others := rfl

@[simp] theorem complete_mem (r : Option Word) (s : State) :
    (complete r s).mem = s.mem := rfl

@[simp] theorem complete_refused (r : Option Word) (s : State) :
    (complete r s).refused = s.refused := rfl

@[simp] theorem complete_turns (r : Option Word) (s : State) :
    (complete r s).turns = s.turns := rfl

@[simp] theorem complete_program (r : Option Word) (s : State) :
    (complete r s).program = s.program := rfl

@[simp] theorem complete_line (r : Option Word) (s : State) :
    (complete r s).line = s.line := rfl

@[simp] theorem complete_reads (r : Option Word) (s : State) :
    (complete r s).reads = s.reads := rfl

/-! ### raiseError -/

@[simp] theorem raiseError_unit (cmd : Option Instr) (e : Error) (s : State) :
    (raiseError cmd e s).unit =
      { s.unit with
        phase := .idle
        status := s.unit.status.failed e
        result := failureResult cmd s.unit.result } := rfl

@[simp] theorem raiseError_others (cmd : Option Instr) (e : Error) (s : State) :
    (raiseError cmd e s).others = s.others := rfl

@[simp] theorem raiseError_mem (cmd : Option Instr) (e : Error) (s : State) :
    (raiseError cmd e s).mem = s.mem := rfl

@[simp] theorem raiseError_refused (cmd : Option Instr) (e : Error) (s : State) :
    (raiseError cmd e s).refused = s.refused := rfl

@[simp] theorem raiseError_turns (cmd : Option Instr) (e : Error) (s : State) :
    (raiseError cmd e s).turns = s.turns := rfl

@[simp] theorem raiseError_program (cmd : Option Instr) (e : Error) (s : State) :
    (raiseError cmd e s).program = s.program := rfl

@[simp] theorem raiseError_line (cmd : Option Instr) (e : Error) (s : State) :
    (raiseError cmd e s).line = s.line := rfl

@[simp] theorem raiseError_reads (cmd : Option Instr) (e : Error) (s : State) :
    (raiseError cmd e s).reads = s.reads := rfl

/-! ### Dqba.accept -/

@[simp] theorem Dqba.accept_base (u : Dqba) (w : Word) :
    (u.accept w).base = u.base := rfl

@[simp] theorem Dqba.accept_status (u : Dqba) (w : Word) :
    (u.accept w).status = Status.accepted := rfl

@[simp] theorem Dqba.accept_result (u : Dqba) (w : Word) :
    (u.accept w).result = u.result := rfl

@[simp] theorem Dqba.accept_blockSize (u : Dqba) (w : Word) :
    (u.accept w).blockSize = u.blockSize := rfl

@[simp] theorem Dqba.accept_args (u : Dqba) (w : Word) :
    (u.accept w).args = u.args := rfl

@[simp] theorem Dqba.accept_anchor (u : Dqba) (w : Word) :
    (u.accept w).anchor = u.anchor := rfl

@[simp] theorem Dqba.accept_phase (u : Dqba) (w : Word) :
    (u.accept w).phase = .decode := rfl

@[simp] theorem Dqba.accept_lopc (u : Dqba) (w : Word) :
    (u.accept w).lopc = w := rfl

@[simp] theorem Dqba.accept_latch (u : Dqba) (w : Word) :
    (u.accept w).latch = u.args := rfl

@[simp] theorem Dqba.accept_lbs (u : Dqba) (w : Word) :
    (u.accept w).lbs = u.blockSize := rfl

@[simp] theorem Dqba.accept_i (u : Dqba) (w : Word) :
    (u.accept w).i = u.i := rfl

@[simp] theorem Dqba.accept_p (u : Dqba) (w : Word) :
    (u.accept w).p = u.p := rfl

@[simp] theorem Dqba.accept_b (u : Dqba) (w : Word) :
    (u.accept w).b = u.b := rfl

@[simp] theorem Dqba.accept_v (u : Dqba) (w : Word) :
    (u.accept w).v = u.v := rfl

@[simp] theorem Dqba.accept_iv (u : Dqba) (w : Word) :
    (u.accept w).iv = u.iv := rfl

@[simp] theorem Dqba.accept_tv (u : Dqba) (w : Word) :
    (u.accept w).tv = u.tv := rfl

/-! ### Status transitions -/

@[simp] theorem Status.completed_busy (st : Status) : st.completed.busy = false := rfl

@[simp] theorem Status.completed_done (st : Status) : st.completed.done = true := rfl

@[simp] theorem Status.completed_err (st : Status) : st.completed.err = false := rfl

@[simp] theorem Status.completed_cmdLost (st : Status) : st.completed.cmdLost = st.cmdLost := rfl

@[simp] theorem Status.completed_errcode (st : Status) : st.completed.errcode = 0#4 := rfl

@[simp] theorem Status.failed_busy (st : Status) (e : Error) : (st.failed e).busy = false := rfl

@[simp] theorem Status.failed_done (st : Status) (e : Error) : (st.failed e).done = true := rfl

@[simp] theorem Status.failed_err (st : Status) (e : Error) : (st.failed e).err = true := rfl

@[simp] theorem Status.failed_cmdLost (st : Status) (e : Error) : (st.failed e).cmdLost = st.cmdLost := rfl

@[simp] theorem Status.failed_errcode (st : Status) (e : Error) : (st.failed e).errcode = e.code := rfl

@[simp] theorem Status.lost_busy (st : Status) : st.lost.busy = st.busy := rfl

@[simp] theorem Status.lost_done (st : Status) : st.lost.done = st.done := rfl

@[simp] theorem Status.lost_err (st : Status) : st.lost.err = st.err := rfl

@[simp] theorem Status.lost_cmdLost (st : Status) : st.lost.cmdLost = true := rfl

@[simp] theorem Status.lost_errcode (st : Status) : st.lost.errcode = st.errcode := rfl

/-! ### State.withCommand -/

@[simp] theorem State.withCommand_unit (s : State) (w : Word) :
    (s.withCommand w).unit = s.unit.accept w := rfl

@[simp] theorem State.withCommand_turns (s : State) (w : Word) :
    (s.withCommand w).turns = .unit 0 :: s.turns := rfl

@[simp] theorem State.withCommand_mem (s : State) (w : Word) : (s.withCommand w).mem = s.mem := rfl

/-! ### mapNext -/

@[simp] theorem mapNext_next (f : State → State) (s : State) : mapNext f (.next s) = .next (f s) := rfl

@[simp] theorem mapNext_fault (f : State → State) (r : Fault) : mapNext f (.fault r) = .fault r := rfl

@[simp] theorem mapNext_refused (f : State → State) (r : Refusal) :
    mapNext f (.refused r) = .refused r := rfl

/-- A mapped outcome is a next state exactly when the outcome was one. -/
theorem mapNext_eq_next_iff (f : State → State) (o : Host.Outcome State Fault Refusal) (t : State) :
    mapNext f o = .next t ↔ ∃ s, o = .next s ∧ f s = t := by
  cases o <;> simp

end Sys2Proof.Machine
end

