-- ==== Sys2Proof/Laws/Ops.lean ====
section
/-! SUPPORT. What each shared operation can do, said once. -/

namespace Sys2Proof.Machine

/-! ## The memory port -/

theorem portRead_admitted {cmd : Instr} {a : Word} {w : Width} {s : State} {next : Word → State}
    (h : memOK s.refused a w = true) : portRead cmd a w s next = next (s.mem.load a w) := by
  simp [portRead, h]

theorem portRead_refused {cmd : Instr} {a : Word} {w : Width} {s : State} {next : Word → State}
    (h : memOK s.refused a w = false) : portRead cmd a w s next = raiseError (some cmd) .busError s := by
  simp [portRead, h]

theorem portWrite_admitted {cmd : Instr} {a : Word} {w : Width} {v : Word} {s : State}
    {next : State → State} (h : memOK s.refused a w = true) :
    portWrite cmd a w v s next = next (s.withMem (s.mem.store a w v)) := by
  simp [portWrite, h]

theorem portWrite_refused {cmd : Instr} {a : Word} {w : Width} {v : Word} {s : State}
    {next : State → State} (h : memOK s.refused a w = false) :
    portWrite cmd a w v s next = raiseError (some cmd) .busError s := by
  simp [portWrite, h]

/-- A read ends in one of two ways. -/
theorem portRead_cases (cmd : Instr) (a : Word) (w : Width) (s : State) (next : Word → State) :
    (memOK s.refused a w = true ∧ portRead cmd a w s next = next (s.mem.load a w)) ∨
      (memOK s.refused a w = false ∧ portRead cmd a w s next = raiseError (some cmd) .busError s) := by
  cases h : memOK s.refused a w
  · exact .inr ⟨rfl, portRead_refused h⟩
  · exact .inl ⟨rfl, portRead_admitted h⟩

/-- A write ends in one of two ways. -/
theorem portWrite_cases (cmd : Instr) (a : Word) (w : Width) (v : Word) (s : State)
    (next : State → State) :
    (memOK s.refused a w = true ∧ portWrite cmd a w v s next = next (s.withMem (s.mem.store a w v))) ∨
      (memOK s.refused a w = false ∧
        portWrite cmd a w v s next = raiseError (some cmd) .busError s) := by
  cases h : memOK s.refused a w
  · exact .inr ⟨rfl, portWrite_refused h⟩
  · exact .inl ⟨rfl, portWrite_admitted h⟩

/-! ## MemOK as data (log 3) -/

/-- Every platform predicate on addresses and widths is `memOK` of some list of refused ranges, so
holding the list in State leaves no MemOK out (00_scope.md R8, 20_memory.md R66). -/
theorem memOK_represents_every_predicate (f : Word → Width → Bool) :
    ∃ rs : List RefusedRange, ∀ a w, memOK rs a w = f a w := by
  classical
  let cell := fun (p : Word × Width) =>
    ({ lo := p.1.toNat, hi := p.1.toNat, width := p.2 } : RefusedRange)
  have hword : Finite Word := Finite.of_injective BitVec.toFin fun _ _ h => BitVec.eq_of_toFin_eq h
  have hwidth : Finite Width :=
    Finite.of_injective (fun w => decide (w = .half)) fun v w h => by cases v <;> cases w <;> simp_all
  have hfin : {p : Word × Width | f p.1 p.2 = false}.Finite := Set.toFinite _
  refine ⟨hfin.toFinset.toList.map cell, fun a w => ?_⟩
  have hit : ∀ p : Word × Width, (cell p).hits a w = true ↔ p = (a, w) := by
    rintro ⟨b, v⟩
    simp only [cell, RefusedRange.hits, Bool.and_eq_true, beq_iff_eq, decide_eq_true_eq, Prod.mk.injEq]
    constructor
    · rintro ⟨⟨h1, h2⟩, h3⟩
      exact ⟨BitVec.eq_of_toNat_eq (by omega), h1⟩
    · rintro ⟨rfl, rfl⟩
      exact ⟨⟨rfl, le_refl _⟩, le_refl _⟩
  cases hf : f a w
  · simp only [memOK, Bool.not_eq_false', List.any_eq_true, List.mem_map, Finset.mem_toList,
      Set.Finite.mem_toFinset]
    exact ⟨cell (a, w), ⟨(a, w), hf, rfl⟩, (hit _).mpr rfl⟩
  · simp only [memOK, Bool.not_eq_true', List.any_eq_false, List.mem_map, Finset.mem_toList,
      Set.Finite.mem_toFinset]
    rintro r ⟨p, hp, rfl⟩ hr
    rw [hit] at hr
    subst hr
    exact absurd (hf.symm.trans hp) (by decide)

/-! ## Acceptance -/

/-- A CMD write to an idle unit is accepted. -/
theorem Dqba.writeCmd_idle {u : Dqba} (h : u.status.busy = false) (w : Word) :
    u.writeCmd w = u.accept w := by
  simp [Dqba.writeCmd, h]

/-- A CMD write to a busy unit only sets CMD_LOST. -/
theorem Dqba.writeCmd_busy {u : Dqba} (h : u.status.busy = true) (w : Word) :
    u.writeCmd w = { u with status := u.status.lost } := by
  simp [Dqba.writeCmd, h]

end Sys2Proof.Machine
end

