-- ==== Sys2Proof/Laws/Host.lean ====
section
/-! SUPPORT. What a register-port access and a host action can do, said once. -/

namespace Sys2Proof.Machine

/-- The addresses UNIT_BASE + 0x00 to UNIT_BASE + 0x3F are the offsets of the window. -/
theorem Dqba.offsetOf_window (u : Dqba) {off : Nat} (h : off < 0x40) :
    u.offsetOf (u.base + BitVec.ofNat 32 off) = some off := by
  have e : (u.base + BitVec.ofNat 32 off - u.base).toNat = off := by
    rw [BitVec.add_comm, BitVec.add_sub_cancel, BitVec.toNat_ofNat, Nat.mod_eq_of_lt (by omega)]
  unfold Dqba.offsetOf
  rw [e, if_pos h]

/-- A register-port write changes nothing, writes one ARG register, or is a CMD write. -/
theorem Dqba.windowWrite_cases (u : Dqba) (off bytes : Nat) (v : Word) :
    u.windowWrite off bytes v = u ∨
    (∃ k : Fin 7, bytes = 4 ∧ regAt off = some (.arg k) ∧
      u.windowWrite off bytes v = { u with args := u.args.set k v }) ∨
    (bytes = 4 ∧ regAt off = some .cmd ∧ u.windowWrite off bytes v = u.writeCmd v) := by
  unfold Dqba.windowWrite
  by_cases hb : bytes = 4
  · rw [if_pos hb]
    split
    · rename_i r hr
      cases r with
      | cmd => exact .inr (.inr ⟨hb, hr, rfl⟩)
      | arg k => exact .inr (.inl ⟨k, hb, hr, rfl⟩)
      | status => exact .inl rfl
      | result => exact .inl rfl
      | blockSize => exact .inl rfl
      | anchorXY => exact .inl rfl
      | anchorZ => exact .inl rfl
    · exact .inl rfl
  · exact .inl (if_neg hb)

/-- A host register write reaches the unit whose window holds the address, or another instance's. -/
theorem State.busWrite_cases (s : State) (a : Word) (bytes : Nat) (v : Word) :
    (∃ off, s.unit.offsetOf a = some off ∧
      s.busWrite a bytes v = s.withUnit (s.unit.windowWrite off bytes v)) ∨
    (s.unit.offsetOf a = none ∧
      s.busWrite a bytes v = s.withOthers (writeWindows a bytes v s.others)) := by
  unfold State.busWrite
  cases h : s.unit.offsetOf a with
  | none => exact .inr ⟨rfl, rfl⟩
  | some off => exact .inl ⟨off, rfl, rfl⟩

/-- A host register read records at most one value and changes nothing else. -/
theorem State.busRead_cases (s : State) (a : Word) (bytes : Nat) :
    s.busRead a bytes = s ∨ ∃ v, s.busRead a bytes = s.logRead v := by
  unfold State.busRead
  split
  · exact .inr ⟨_, rfl⟩
  · exact .inl rfl

/-- A next state of the host's program: it has ended, or one operation ran. -/
theorem hostLine_next {s t : State} (h : hostLine s = .next t) :
    (s.program[s.line]? = none ∧ t = s) ∨
    ∃ op, s.program[s.line]? = some op ∧ op.wellFormed = true ∧ t = hostOp op s := by
  unfold hostLine at h
  cases hp : s.program[s.line]? with
  | none =>
    rw [hp] at h
    cases h
    exact .inl ⟨rfl, rfl⟩
  | some op =>
    rw [hp] at h
    by_cases hw : op.wellFormed = true
    · simp only [hw] at h
      cases h
      exact .inr ⟨op, rfl, hw, rfl⟩
    · simp [hw] at h

end Sys2Proof.Machine
end

