-- ==== Sys2Proof/Laws/PerInstr.lean ====
section
/-! SUPPORT. What holds of every command as syntax, one lemma per constructor. -/

namespace Sys2Proof.Laws.Encoding

/-- The command's word is legal (30_encoding.md R91, R92), names it, and the command is well formed. -/
def Statement (i : Instr) : Prop :=
  wordWellFormed (encode i) = true ∧ instrOfOpc (opcField (encode i)) = some i ∧ i.wellFormed = true

theorem setbs : Statement .setbs := by unfold Statement; decide

theorem repack : Statement .repack := by unfold Statement; decide

theorem remap32 : Statement .remap32 := by unfold Statement; decide

theorem remapg : Statement .remapg := by unfold Statement; decide

end Sys2Proof.Laws.Encoding
end

