-- ==== Sys2Proof/Laws/Runs.lean ====
section
/-! SUPPORT. A step of the machine as the turn of the agent that is next, and the first step of a run. -/

namespace Sys2Proof.Machine

/-- A step is the turn of the agent that is next, the schedule one turn shorter; with nobody next it
changes nothing. -/
theorem step_eq_nextTurn (s : State) :
    step s = match s.nextTurn with
      | some t => takeTurn t (s.withTurns s.turns.tail)
      | none => .next s := by
  unfold step machineStep State.nextTurn
  cases h : s.turns with
  | nil =>
    have hs : s.withTurns [] = s := by unfold State.withTurns; rw [← h]
    cases defaultTurn s with
    | none => rfl
    | some t => exact congrArg (takeTurn t) hs.symm
  | cons t r => rfl

/-- With the schedule used up a busy unit is next. -/
theorem nextTurn_of_busy {s : State} (ht : s.turns = []) (hb : s.unit.status.busy = true) :
    s.nextTurn = some (.unit 0) := by
  simp only [State.nextTurn, ht, defaultTurn, hb, if_true]

/-- The first step of a run. -/
theorem runSteps_succ {s t : State} (k : Nat) (h : step s = .next t) :
    runSteps (k + 1) s = runSteps k t := by
  have hc : Sys2Proof.core.step s = .next t := h
  simp only [runSteps, Host.Core.run, hc]
  rfl

/-- An idle unit performs no access. -/
theorem accessesIn_idle {i : Instr} {k : Nat} {s : State} (h : s.unit.phase = .idle) :
    accessesIn i k s = 0 := by
  cases k <;> simp only [accessesIn, h, if_true]

end Sys2Proof.Machine
end

