-- ==== Sys2Proof/Laws/Step.lean ====
section
/-! SUPPORT. What one step can do, said once: which phases each command has, and the ways each phase
ends. Proofs cite these and do not unfold the meanings. -/

namespace Sys2Proof.Machine

/-! ## Phases of REPACK -/

/-- The ways the start of REPACK ends. -/
theorem repackStart_cases (s : State) :
    (s.unit.lbs.toInt ≤ 0 ∧ repackStart s = raiseError (some .repack) .badBlockSize s) ∨
    (0 < s.unit.lbs.toInt ∧
      (s.unit.rpIn.toNat % 2 ≠ 0 ∨ s.unit.rpAnc.toNat % 2 ≠ 0 ∨ s.unit.rpPk.toNat % 4 ≠ 0 ∨
        s.unit.rpRm.toNat % 4 ≠ 0) ∧
      repackStart s = raiseError (some .repack) .misaligned s) ∨
    (0 < s.unit.lbs.toInt ∧ s.unit.rpIn.toNat % 2 = 0 ∧ s.unit.rpAnc.toNat % 2 = 0 ∧
      s.unit.rpPk.toNat % 4 = 0 ∧ s.unit.rpRm.toNat % 4 = 0 ∧
      repackStart s =
        s.withUnit { s.unit with i := 0#32, p := 0#32, b := Config.noBlock, phase := .rpCheck }) := by
  unfold repackStart
  by_cases h0 : s.unit.lbs.toInt ≤ 0
  · exact .inl ⟨h0, if_pos h0⟩
  by_cases h1 : s.unit.rpIn.toNat % 2 = 0
  · by_cases h2 : s.unit.rpAnc.toNat % 2 = 0
    · by_cases h3 : s.unit.rpPk.toNat % 4 = 0
      · by_cases h4 : s.unit.rpRm.toNat % 4 = 0
        · exact .inr (.inr ⟨by omega, h1, h2, h3, h4, by simp [h0, aligned, h1, h2, h3, h4]⟩)
        · exact .inr (.inl ⟨by omega, by tauto, by simp [h0, aligned, h1, h2, h3, h4, repackFail]⟩)
      · exact .inr (.inl ⟨by omega, by tauto, by simp [h0, aligned, h1, h2, h3, repackFail]⟩)
    · exact .inr (.inl ⟨by omega, by tauto, by simp [h0, aligned, h1, h2, repackFail]⟩)
  · exact .inr (.inl ⟨by omega, by tauto, by simp [h0, aligned, h1, repackFail]⟩)

/-- The ways RP_CHECK ends. -/
theorem repackCheck_cases (s : State) :
    (s.unit.i = s.unit.count ∧ repackCheck s = complete (some s.unit.p) s) ∨
    (s.unit.i ≠ s.unit.count ∧ s.unit.rpMax.toNat ≤ s.unit.p.toNat ∧
      repackCheck s = raiseError (some .repack) .capacity s) ∨
    (s.unit.i ≠ s.unit.count ∧ s.unit.p.toNat < s.unit.rpMax.toNat ∧
      repackCheck s = s.goto (.rpRead 0)) := by
  unfold repackCheck
  by_cases h1 : s.unit.i = s.unit.count
  · exact .inl ⟨h1, if_pos h1⟩
  by_cases h2 : s.unit.rpMax.toNat ≤ s.unit.p.toNat
  · exact .inr (.inl ⟨h1, h2, by simp [h1, h2, repackFail]⟩)
  · exact .inr (.inr ⟨h1, by omega, by simp [h1, h2]⟩)

/-- The ways RP_READ(k) ends. -/
theorem repackRead_cases (k : Fin 3) (s : State) :
    (memOK s.refused (s.unit.inputAddr s.unit.i.toNat k) .half = true ∧
      repackRead k s =
        s.withUnit { s.unit with
          v := s.unit.v.set k ((s.mem.load (s.unit.inputAddr s.unit.i.toNat k) .half).setWidth 16)
          phase := afterRead k }) ∨
    (memOK s.refused (s.unit.inputAddr s.unit.i.toNat k) .half = false ∧
      repackRead k s = raiseError (some .repack) .busError s) := by
  unfold repackRead
  exact portRead_cases _ _ _ _ _

/-- The block test as a proposition. -/
theorem Dqba.atBlockStart_iff (u : Dqba) : u.atBlockStart = true ↔ u.p.toNat % u.lbs.toNat = 0 := by
  simp [Dqba.atBlockStart]

/-- The ways RP_BLOCK ends. -/
theorem repackBlock_cases (s : State) :
    (s.unit.p.toNat % s.unit.lbs.toNat = 0 ∧
      repackBlock s =
        s.withUnit { s.unit with b := s.unit.b + 1#32, anchor := s.unit.v, phase := .rpAnchor 0 }) ∨
    (s.unit.p.toNat % s.unit.lbs.toNat ≠ 0 ∧ repackBlock s = s.goto .rpEval) := by
  unfold repackBlock
  by_cases h : s.unit.p.toNat % s.unit.lbs.toNat = 0
  · exact .inl ⟨h, if_pos ((Dqba.atBlockStart_iff _).mpr h)⟩
  · exact .inr ⟨h, if_neg fun h' => h ((Dqba.atBlockStart_iff _).mp h')⟩

/-- The ways RP_ANCHOR(k) ends. -/
theorem repackAnchor_cases (k : Fin 3) (s : State) :
    (memOK s.refused (s.unit.anchorAddr s.unit.b.toNat k) .half = true ∧
      repackAnchor k s =
        (s.withMem (s.mem.store (s.unit.anchorAddr s.unit.b.toNat k) .half
          ((s.unit.anchor.get k).setWidth 32))).goto (afterAnchor k)) ∨
    (memOK s.refused (s.unit.anchorAddr s.unit.b.toNat k) .half = false ∧
      repackAnchor k s = raiseError (some .repack) .busError s) := by
  unfold repackAnchor
  exact portWrite_cases _ _ _ _ _ _

/-- The ways RP_EVAL ends. -/
theorem repackEval_cases (s : State) :
    (ovf s.unit.v s.unit.anchor = true ∧ repackEval s = s.goto .rpPad) ∨
    (ovf s.unit.v s.unit.anchor = false ∧ repackEval s = s.goto .rpPack) := by
  unfold repackEval
  cases h : ovf s.unit.v s.unit.anchor <;> simp

/-- The ways RP_PACK ends. -/
theorem repackPack_cases (s : State) :
    (memOK s.refused (s.unit.packedAddr s.unit.p.toNat) .word = true ∧
      repackPack s =
        (s.withMem (s.mem.store (s.unit.packedAddr s.unit.p.toNat) .word
          (vertexWord s.unit.v s.unit.anchor))).goto .rpRemap) ∨
    (memOK s.refused (s.unit.packedAddr s.unit.p.toNat) .word = false ∧
      repackPack s = raiseError (some .repack) .busError s) := by
  unfold repackPack
  exact portWrite_cases _ _ _ _ _ _

/-- The ways RP_REMAP ends. -/
theorem repackRemap_cases (s : State) :
    (memOK s.refused (s.unit.remapAddr s.unit.i.toNat) .word = true ∧
      repackRemap s =
        (s.withMem (s.mem.store (s.unit.remapAddr s.unit.i.toNat) .word s.unit.p)).withUnit
          { s.unit with p := s.unit.p + 1#32, i := s.unit.i + 1#32, phase := .rpCheck }) ∨
    (memOK s.refused (s.unit.remapAddr s.unit.i.toNat) .word = false ∧
      repackRemap s = raiseError (some .repack) .busError s) := by
  unfold repackRemap
  exact portWrite_cases _ _ _ _ _ _

/-- The ways RP_PAD ends. -/
theorem repackPad_cases (s : State) :
    (s.unit.p.toNat % s.unit.lbs.toNat = 0 ∧ repackPad s = s.goto .rpCheck) ∨
    (s.unit.p.toNat % s.unit.lbs.toNat ≠ 0 ∧ s.unit.rpMax.toNat ≤ s.unit.p.toNat ∧
      repackPad s = raiseError (some .repack) .capacity s) ∨
    (s.unit.p.toNat % s.unit.lbs.toNat ≠ 0 ∧ s.unit.p.toNat < s.unit.rpMax.toNat ∧
      memOK s.refused (s.unit.packedAddr s.unit.p.toNat) .word = true ∧
      repackPad s =
        (s.withMem (s.mem.store (s.unit.packedAddr s.unit.p.toNat) .word Config.padWord)).withUnit
          { s.unit with p := s.unit.p + 1#32 }) ∨
    (s.unit.p.toNat % s.unit.lbs.toNat ≠ 0 ∧ s.unit.p.toNat < s.unit.rpMax.toNat ∧
      memOK s.refused (s.unit.packedAddr s.unit.p.toNat) .word = false ∧
      repackPad s = raiseError (some .repack) .busError s) := by
  unfold repackPad
  by_cases h1 : s.unit.p.toNat % s.unit.lbs.toNat = 0
  · exact .inl ⟨h1, if_pos ((Dqba.atBlockStart_iff _).mpr h1)⟩
  have h1' : s.unit.atBlockStart = false := by
    cases h : s.unit.atBlockStart
    · rfl
    · exact absurd ((Dqba.atBlockStart_iff _).mp h) h1
  by_cases h2 : s.unit.rpMax.toNat ≤ s.unit.p.toNat
  · exact .inr (.inl ⟨h1, h2, by simp [h1', h2, repackFail]⟩)
  · cases h3 : memOK s.refused (s.unit.packedAddr s.unit.p.toNat) .word
    · exact .inr (.inr (.inr ⟨h1, by omega, rfl, by simp [h1', h2, portWrite, h3]⟩))
    · exact .inr (.inr (.inl ⟨h1, by omega, rfl, by simp [h1', h2, portWrite, h3]⟩))

/-! ## Phases of REMAP32 and REMAPG -/

/-- The ways RM_CHECK ends. -/
theorem remapCheck_cases (s : State) :
    (s.unit.i = s.unit.count ∧ remapCheck s = complete none s) ∨
    (s.unit.i ≠ s.unit.count ∧ remapCheck s = s.goto .rmRdIdx) := by
  unfold remapCheck
  by_cases h : s.unit.i = s.unit.count
  · exact .inl ⟨h, if_pos h⟩
  · exact .inr ⟨h, if_neg h⟩

/-- The ways RM_RDIDX ends. -/
theorem remapReadIndex_cases (cmd : Instr) (w : Width) (s : State) :
    (memOK s.refused (s.unit.indexAddr w s.unit.i.toNat) w = true ∧
      remapReadIndex cmd w s =
        s.withUnit { s.unit with
          iv := s.mem.load (s.unit.indexAddr w s.unit.i.toNat) w
          phase := .rmRdTbl }) ∨
    (memOK s.refused (s.unit.indexAddr w s.unit.i.toNat) w = false ∧
      remapReadIndex cmd w s = raiseError (some cmd) .busError s) := by
  unfold remapReadIndex
  exact portRead_cases _ _ _ _ _

/-- The ways RM_RDTBL ends. -/
theorem remapReadTable_cases (cmd : Instr) (s : State) :
    (memOK s.refused (s.unit.tableAddr s.unit.iv.toNat) .word = true ∧
      remapReadTable cmd s =
        s.withUnit { s.unit with
          tv := s.mem.load (s.unit.tableAddr s.unit.iv.toNat) .word
          phase := .rmWrIdx }) ∨
    (memOK s.refused (s.unit.tableAddr s.unit.iv.toNat) .word = false ∧
      remapReadTable cmd s = raiseError (some cmd) .busError s) := by
  unfold remapReadTable
  exact portRead_cases _ _ _ _ _

/-- The ways RM_WRIDX ends. -/
theorem remapWriteIndex_cases (cmd : Instr) (w : Width) (s : State) :
    (memOK s.refused (s.unit.indexAddr w s.unit.i.toNat) w = true ∧
      remapWriteIndex cmd w s =
        (s.withMem (s.mem.store (s.unit.indexAddr w s.unit.i.toNat) w (narrow w s.unit.tv))).withUnit
          { s.unit with i := s.unit.i + 1#32, phase := .rmCheck }) ∨
    (memOK s.refused (s.unit.indexAddr w s.unit.i.toNat) w = false ∧
      remapWriteIndex cmd w s = raiseError (some cmd) .busError s) := by
  unfold remapWriteIndex
  exact portWrite_cases _ _ _ _ _ _

/-- The ways the start of REMAP32 ends. -/
theorem remap32Start_cases (s : State) :
    ((s.unit.rmIdx.toNat % 4 ≠ 0 ∨ s.unit.rmTbl.toNat % 4 ≠ 0) ∧
      remap32Start s = raiseError (some .remap32) .misaligned s) ∨
    (s.unit.rmIdx.toNat % 4 = 0 ∧ s.unit.rmTbl.toNat % 4 = 0 ∧ remap32Start s = remapBegin s) := by
  unfold remap32Start
  by_cases h1 : s.unit.rmIdx.toNat % 4 = 0
  · by_cases h2 : s.unit.rmTbl.toNat % 4 = 0
    · exact .inr ⟨h1, h2, by simp [aligned, h1, h2]⟩
    · exact .inl ⟨.inr h2, by simp [aligned, h1, h2]⟩
  · exact .inl ⟨.inl h1, by simp [aligned, h1]⟩

/-- A width a stride selects has that many bytes. -/
theorem strideWidth_bytes {x : Word} {w : Width} (h : strideWidth x = some w) :
    Width.bytes w = x.toNat ∧ (x = 2#32 ∨ x = 4#32) := by
  unfold strideWidth at h
  by_cases h2 : x = 2#32
  · rw [if_pos h2] at h
    cases h
    exact ⟨by simp [h2, Width.bytes], .inl h2⟩
  · rw [if_neg h2] at h
    by_cases h4 : x = 4#32
    · rw [if_pos h4] at h
      cases h
      exact ⟨by simp [h4, Width.bytes], .inr h4⟩
    · rw [if_neg h4] at h
      cases h

/-- The ways the start of REMAPG ends. -/
theorem remapgStart_cases (s : State) :
    (strideWidth s.unit.rmStride = none ∧
      remapgStart s = raiseError (some .remapg) .badStride s) ∨
    ∃ w, strideWidth s.unit.rmStride = some w ∧
      (((s.unit.rmIdx.toNat % Width.bytes w ≠ 0 ∨ s.unit.rmTbl.toNat % 4 ≠ 0) ∧
          remapgStart s = raiseError (some .remapg) .misaligned s) ∨
        (s.unit.rmIdx.toNat % Width.bytes w = 0 ∧ s.unit.rmTbl.toNat % 4 = 0 ∧
          remapgStart s = remapBegin s)) := by
  unfold remapgStart
  cases hw : strideWidth s.unit.rmStride with
  | none => exact .inl ⟨rfl, rfl⟩
  | some w =>
    refine .inr ⟨w, rfl, ?_⟩
    by_cases h1 : s.unit.rmIdx.toNat % Width.bytes w = 0
    · by_cases h2 : s.unit.rmTbl.toNat % 4 = 0
      · exact .inr ⟨h1, h2, by simp [aligned, h1, h2]⟩
      · exact .inl ⟨.inr h2, by simp [aligned, h1, h2]⟩
    · exact .inl ⟨.inl h1, by simp [aligned, h1]⟩

/-! ## Which phase a next state comes from -/

/-- A next state of SETBS comes from one of its two phases. -/
theorem execSetbs_next {s t : State} (h : execSetbs s = .next t) :
    (s.unit.phase = .decode ∧ t = s.goto .sbWrite) ∨
      (s.unit.phase = .sbWrite ∧ t = setBlockSize s) := by
  unfold execSetbs at h
  split at h <;> cases h
  · exact .inl ⟨‹_›, rfl⟩
  · exact .inr ⟨‹_›, rfl⟩

/-- A next state of REPACK comes from one of its phases. -/
theorem execRepack_next {s t : State} (h : execRepack s = .next t) :
    (s.unit.phase = .decode ∧ t = repackStart s) ∨
    (s.unit.phase = .rpCheck ∧ t = repackCheck s) ∨
    (∃ k, s.unit.phase = .rpRead k ∧ t = repackRead k s) ∨
    (s.unit.phase = .rpBlock ∧ t = repackBlock s) ∨
    (∃ k, s.unit.phase = .rpAnchor k ∧ t = repackAnchor k s) ∨
    (s.unit.phase = .rpEval ∧ t = repackEval s) ∨
    (s.unit.phase = .rpPack ∧ t = repackPack s) ∨
    (s.unit.phase = .rpRemap ∧ t = repackRemap s) ∨
    (s.unit.phase = .rpPad ∧ t = repackPad s) := by
  unfold execRepack at h
  split at h <;> cases h <;> simp_all

/-- A next state of REMAP32 comes from one of its phases. -/
theorem execRemap32_next {s t : State} (h : execRemap32 s = .next t) :
    (s.unit.phase = .decode ∧ t = remap32Start s) ∨
    (s.unit.phase = .rmCheck ∧ t = remapCheck s) ∨
    (s.unit.phase = .rmRdIdx ∧ t = remapReadIndex .remap32 .word s) ∨
    (s.unit.phase = .rmRdTbl ∧ t = remapReadTable .remap32 s) ∨
    (s.unit.phase = .rmWrIdx ∧ t = remapWriteIndex .remap32 .word s) := by
  unfold execRemap32 at h
  split at h <;> cases h <;> simp_all

/-- A next state of REMAPG comes from one of its phases, its element accesses at a legal stride. -/
theorem execRemapg_next {s t : State} (h : execRemapg s = .next t) :
    (s.unit.phase = .decode ∧ t = remapgStart s) ∨
    (s.unit.phase = .rmCheck ∧ t = remapCheck s) ∨
    (∃ w, strideWidth s.unit.rmStride = some w ∧ s.unit.phase = .rmRdIdx ∧
      t = remapReadIndex .remapg w s) ∨
    (s.unit.phase = .rmRdTbl ∧ t = remapReadTable .remapg s) ∨
    (∃ w, strideWidth s.unit.rmStride = some w ∧ s.unit.phase = .rmWrIdx ∧
      t = remapWriteIndex .remapg w s) := by
  unfold execRemapg atStride at h
  split at h <;> (try split at h) <;> cases h <;> simp_all

/-- A next state of the unit: as it was while idle, a meaning's while a command runs, or the end of an
illegal command. -/
theorem unitStep_next {s t : State} (h : unitStep s = .next t) :
    (s.unit.status.busy = false ∧ t = s) ∨
    (s.unit.status.busy = true ∧ ∃ i, decode s.unit.lopc = .ok i ∧ exec i s = .next t) ∨
    (s.unit.status.busy = true ∧ s.unit.phase = .decode ∧ (∃ e, decode s.unit.lopc = .error e) ∧
      t = illegalCommand s) := by
  unfold unitStep at h
  cases hb : s.unit.status.busy with
  | false => exact .inl ⟨rfl, by simpa [hb] using h.symm⟩
  | true =>
    rw [if_pos hb] at h
    cases hd : decode s.unit.lopc with
    | ok i =>
      rw [hd] at h
      exact .inr (.inl ⟨rfl, i, rfl, h⟩)
    | error e =>
      rw [hd] at h
      by_cases hp : s.unit.phase = .decode
      · exact .inr (.inr ⟨rfl, hp, ⟨e, rfl⟩, by simpa [hp] using h.symm⟩)
      · simp [hp] at h

/-- A busy unit with a legal word takes its command's step. -/
theorem unitStep_busy {s : State} {i : Instr} (hb : s.unit.status.busy = true)
    (hd : decode s.unit.lopc = .ok i) : unitStep s = exec i s := by
  simp [unitStep, hb, hd]

/-- The exchange, where there is such an instance. -/
theorem State.swapWith_of_getElem {s : State} {k : Nat} {u : Dqba} (h : s.others[k]? = some u) :
    s.swapWith k = { s with unit := u, others := s.others.set k s.unit } := by
  simp [State.swapWith, h]

/-- A step of the machine is the turn of some agent, or nobody moves. -/
theorem step_next {s t : State} (h : step s = .next t) :
    (∃ tr rest, s.turns = tr :: rest ∧ takeTurn tr (s.withTurns rest) = .next t) ∨
    (∃ tr, s.turns = [] ∧ defaultTurn s = some tr ∧ takeTurn tr s = .next t) ∨
    (s.turns = [] ∧ defaultTurn s = none ∧ t = s) := by
  unfold step machineStep at h
  split at h
  · exact .inl ⟨_, _, ‹_›, h⟩
  · split at h
    · exact .inr (.inl ⟨_, ‹_›, ‹_›, h⟩)
    · cases h
      exact .inr (.inr ⟨‹_›, ‹_›, rfl⟩)

/-- Exchanging twice with the same instance changes nothing. -/
theorem State.swapWith_swapWith (s : State) (k : Nat) : (s.swapWith k).swapWith k = s := by
  unfold State.swapWith
  cases h : s.others[k]? with
  | none => simp [h]
  | some u =>
    obtain ⟨hk, rfl⟩ := List.getElem?_eq_some_iff.mp h
    simp [List.getElem?_set_self hk]

end Sys2Proof.Machine
end

