-- ==== Sys2Proof/Tests/Slice0.lean ====
section
/-! SUPPORT. Tests: words and values of 95_test_vectors.md and of the rules, one step each; and for each
obligation with hypotheses a witness of them (theorem witness_…). -/

namespace Sys2Proof.Tests

open Sys2Proof.Machine

/-! ## States -/

/-- A field of the next state an outcome holds. -/
def after {α : Type} (f : State → α) : Host.Outcome State Fault Refusal → Option α
  | .next s => some (f s)
  | .fault _ => none
  | .refused _ => none

/-- A machine whose unit runs a command in a phase, with its operands and block size latched. -/
def running (i : Instr) (ph : Phase) (lbs : Word) (ops : Vector Word 7) (m : Memory) : State :=
  { State.reset with
    unit :=
      { State.reset.unit with
        status := Status.accepted
        phase := ph
        lopc := encode i
        latch := ops
        lbs := lbs }
    mem := m }

/-- The operands of vector S2. -/
def s2Ops : Vector Word 7 := #v[2#32, 0x1000#32, 0x2000#32, 0x3000#32, 0x4000#32, 3#32, 8#32]

/-- The input of vector S2: (0,0,0) and (2000,0,0) at 0x1000. -/
def s2Mem : Memory := [(0x1006, 0xD0#8), (0x1007, 0x07#8)]

/-- REPACK S2 in a phase. -/
def s2 (ph : Phase) : State := running .repack ph 4#32 s2Ops s2Mem

/-- The operands of vector M1: three 32-bit indices, and of G1 with stride 4. -/
def m1Ops : Vector Word 7 := #v[3#32, 0x5000#32, 0x6000#32, 4#32, 0#32, 0#32, 0#32]

/-- REMAP32 M1 in a phase: indices [1, 0, 1], table [0, 4]. -/
def m1 (ph : Phase) : State :=
  running .remap32 ph 64#32 m1Ops [(0x5000, 1#8), (0x5008, 1#8), (0x6004, 4#8)]

/-- The operands of vector G2: two 16-bit indices. -/
def g2Ops : Vector Word 7 := #v[2#32, 0x5000#32, 0x6000#32, 2#32, 0#32, 0#32, 0#32]

/-- REMAPG G2 in a phase: indices [0, 1], table [0x00012345, 7]. -/
def g2 (ph : Phase) : State :=
  running .remapg ph 64#32 g2Ops
    [(0x5002, 1#8), (0x6000, 0x45#8), (0x6001, 0x23#8), (0x6002, 1#8), (0x6004, 7#8)]

/-- SETBS 0 in a phase (B2). -/
def b2 (ph : Phase) : State := running .setbs ph 64#32 (Vector.replicate 7 0#32) []

/-- The machine with another unit counter `i` and `p`. -/
def withCounters (s : State) (i p : Word) : State := { s with unit := { s.unit with i := i, p := p } }

/-- The machine with another vertex latch and anchor. -/
def withVertex (s : State) (v a : Vec3) : State := { s with unit := { s.unit with v := v, anchor := a } }

/-! ## WellFormed refuses ill-formed words and operations -/

/-- RSV bit 8 set (E4). -/
theorem test_ill_formed_rsv_low : rsvClear 0x00000102#32 = false := by decide

/-- RSV bit 31 set (E5). -/
theorem test_ill_formed_rsv_high : rsvClear 0x80000001#32 = false := by decide

/-- OPC 0x00, 0x05 and 0xFF name no command (E1, E2, E3). -/
theorem test_ill_formed_opc : opcKnown 0x00000000#32 = false ∧ opcKnown 0x00000005#32 = false ∧
    opcKnown 0x000000FF#32 = false := by decide

/-- A word fails when either check fails (R91, R92). -/
theorem test_ill_formed_word : wordWellFormed 0x00000102#32 = false ∧
    wordWellFormed 0x00000005#32 = false := by decide

/-- R98: offsets beyond the window and bits beyond 31 have no meaning. -/
theorem test_ill_formed_host_op : (HostOp.wr 0x40 0#32).wellFormed = false ∧
    (HostOp.rd 0x40).wellFormed = false ∧ (HostOp.bit 0x40 0 0).wellFormed = false ∧
    (HostOp.bit 0x04 32 0).wellFormed = false := by decide

/-! ## Decoding: words written out from R90 and R92, RSV 24 bits then OPC 8 bits -/

theorem test_decode_setbs : decode 0b00000000000000000000000000000001#32 = .ok .setbs := by rfl

theorem test_decode_repack : decode 0b00000000000000000000000000000010#32 = .ok .repack := by rfl

theorem test_decode_remap32 : decode 0b00000000000000000000000000000011#32 = .ok .remap32 := by rfl

theorem test_decode_remapg : decode 0b00000000000000000000000000000100#32 = .ok .remapg := by rfl

/-- E1 to E5. -/
theorem test_decode_illegal : decode 0x00000000#32 = .error .unknownOpcode ∧
    decode 0x00000005#32 = .error .unknownOpcode ∧ decode 0x000000FF#32 = .error .unknownOpcode ∧
    decode 0x00000102#32 = .error .reservedBits ∧ decode 0x80000001#32 = .error .reservedBits :=
  ⟨rfl, rfl, rfl, rfl, rfl⟩

/-- The opcode table's rows: 32 bits, value 1 to 4. -/
theorem test_decode_table : decodeTableWord 32 1 = some .setbs ∧ decodeTableWord 32 2 = some .repack ∧
    decodeTableWord 32 3 = some .remap32 ∧ decodeTableWord 32 4 = some .remapg ∧
    decodeTableWord 32 0x102 = none := by decide

/-- The first step after a word is placed is that command's: SETBS goes from DECODE to SB_WRITE. -/
theorem test_fetch_word_runs : after (fun t => t.unit.phase) (step (State.reset.withFetchWord 32 1)) =
    some .sbWrite := by decide

/-! ## The datapath (95_test_vectors.md section 2) -/

/-- V3, V8, V9: exact, saturated high, saturated low. -/
theorem test_sub16s : sub16s 2000#16 0#16 = 2000 ∧ sub16s 65535#16 0#16 = 32767 ∧
    sub16s 0#16 65535#16 = -32768 := by decide

/-- V4, V5, V6, V7: the ends of the range. -/
theorem test_in_range : inRange (delta 0#16 512#16) = true ∧ inRange (delta 1023#16 512#16) = true ∧
    inRange (delta 1024#16 512#16) = false ∧ inRange (delta 0#16 513#16) = false := by decide

/-- O1, O3, O6. -/
theorem test_ovf : ovf ⟨100#16, 100#16, 2000#16⟩ ⟨100#16, 100#16, 100#16⟩ = true ∧
    ovf ⟨611#16, 100#16, 100#16⟩ ⟨100#16, 100#16, 100#16⟩ = false ∧
    ovf ⟨1000#16, 487#16, 1000#16⟩ ⟨1000#16, 1000#16, 1000#16⟩ = true := by decide

/-- P2, P4, P5, P6, P7, P8. -/
theorem test_packw : packw 517 517 517 = 0x81605814#32 ∧ packw 1023 1023 1023 = 0xFFFFFFFC#32 ∧
    packw 1023 0 0 = 0xFFC00000#32 ∧ packw 0 1023 0 = 0x003FF000#32 ∧ packw 0 0 1023 = 0x00000FFC#32 ∧
    packw 1 2 3 = 0x0040200C#32 := by decide

/-- D1. -/
theorem test_decode_axis : decodeAxis 100#16 (xField 0x81605814#32) = 105 ∧
    decodeAxis 100#16 (yField 0x81605814#32) = 105 ∧ decodeAxis 100#16 (zField 0x81605814#32) = 105 := by
  decide

/-! ## One step of each command -/

/-- B2: BLOCK_SIZE 0, STATUS 0x2. -/
theorem test_setbs_zero : after (fun t => (t.unit.blockSize, t.unit.status.word)) (exec .setbs (b2 .sbWrite)) =
    some (0#32, 0x2#32) := by decide

/-- S1, slot 1: the word 0x81605814 as the bytes 14 58 60 81. -/
theorem test_repack_pack : after (fun t => t.mem.readBytes 0x3004 4)
    (exec .repack (withCounters (withVertex (s2 .rpPack) ⟨105#16, 105#16, 105#16⟩
      ⟨100#16, 100#16, 100#16⟩) 1#32 1#32)) = some [0x14#8, 0x58#8, 0x60#8, 0x81#8] := by decide

/-- S3b: no padding write at `p` = `max` = 3; CAPACITY and the sentinel. -/
theorem test_repack_pad_capacity : after (fun t => (t.unit.status.word, t.unit.result))
    (exec .repack (withCounters (running .repack .rpPad 4#32 (s2Ops.set 6 3#32) s2Mem) 1#32 3#32)) =
    some (0x106#32, 0xFFFFFFFF#32) := by decide

/-- M8: 4 * 0x40000001 mod 2^32 = 4, the entry at 0x6004. -/
theorem test_remap32_wrap : after (fun t => t.unit.tv)
    (exec .remap32 { m1 .rmRdTbl with unit := { (m1 .rmRdTbl).unit with iv := 0x40000001#32 } }) =
    some 4#32 := by decide

/-- M4: MISALIGNED. -/
theorem test_remap32_misaligned : after (fun t => t.unit.status.word)
    (exec .remap32 (running .remap32 .decode 64#32 (m1Ops.set 2 0x6001#32) [])) = some 0x506#32 := by
  decide

/-- G2: the low 16 bits 0x2345 over the first index, its neighbour kept. -/
theorem test_remapg_narrow : after (fun t => t.mem.readBytes 0x5000 4)
    (exec .remapg { g2 .rmWrIdx with unit := { (g2 .rmWrIdx).unit with tv := 0x00012345#32 } }) =
    some [0x45#8, 0x23#8, 1#8, 0#8] := by decide

/-- G6: BAD_STRIDE before MISALIGNED. -/
theorem test_remapg_bad_stride : after (fun t => t.unit.status.word)
    (exec .remapg (running .remapg .decode 64#32
      #v[0#32, 0x5001#32, 0x6000#32, 3#32, 0#32, 0#32, 0#32] [])) = some 0x406#32 := by decide

/-- E4: ILLEGAL_CMD. -/
theorem test_illegal_command : after (fun t => (t.unit.status.word, t.unit.result))
    (step (State.reset.withFetchWord 32 0x102)) = some (0x206#32, 0#32) := by decide

/-- PK22: the packed write at 0x10000 is refused. -/
theorem test_bus_error : after (fun t => (t.unit.status.word, t.unit.result, decide (t.mem = s2Mem)))
    (exec .repack { withCounters (running .repack .rpPack 64#32 (s2Ops.set 3 0xFFF8#32) s2Mem) 2#32 2#32 with
      refused := [⟨0xFFFD, 0xFFFFFFFF, .word⟩, ⟨0xFFFF, 0xFFFFFFFF, .half⟩] }) =
    some (0x606#32, 0xFFFFFFFF#32, true) := by decide

/-! ## The register window, the host and its programs -/

/-- E8, E9, E10. -/
theorem test_register_window :
    (State.reset.unit.windowWrite 0x34 4 0x12345678#32).windowRead 0x34 4 = 0#32 ∧
    (State.reset.unit.windowWrite 0x10 1 0xFF#32).args[0] = 0#32 ∧
    (State.reset.unit.windowWrite 0x11 4 0xFF#32).args[0] = 0#32 ∧
    (State.reset.unit.windowWrite 0x1C 4 0xCAFEF00D#32).windowRead 0x1C 4 = 0xCAFEF00D#32 := by decide

/-- E14: STATUS reads 9 after a CMD write while BUSY. -/
theorem test_cmd_lost : ((s2 .rpCheck).unit.windowWrite 0x00 4 1#32).windowRead 0x04 4 = 9#32 := by decide

/-- S2's anchors registers: ANCHOR_XY 0x000007D0; and S4's 0x02000400. -/
theorem test_anchor_registers :
    (withVertex (s2 .rpCheck) ⟨0#16, 0#16, 0#16⟩ ⟨2000#16, 0#16, 0#16⟩).unit.windowRead 0x2C 4 = 0x7D0#32 ∧
    (withVertex (s2 .rpCheck) ⟨0#16, 0#16, 0#16⟩ ⟨1024#16, 512#16, 512#16⟩).unit.windowRead 0x2C 4 =
      0x02000400#32 := by decide

/-- X1. -/
theorem test_reset_registers : (List.map (fun off => State.reset.unit.windowRead off 4)
    [0x00, 0x04, 0x08, 0x0C, 0x10, 0x28, 0x2C, 0x30, 0x34, 0x38, 0x3C]) =
    [0#32, 0#32, 0#32, 0x40#32, 0#32, 0#32, 0#32, 0#32, 0#32, 0#32, 0#32] := by decide

/-- Program 4 of section 8, labels 0 (fix) and 1 (end). -/
theorem test_program_4 : assemble
    [.cmd 0x102#32, .wait, .rd 0x04, .remapg 3#32 0x5000#32 0x4000#32 3#32, .wait, .bit 0x04 2 0,
      .bit 0x04 1 1, .label 0, .wr 0x1C 2#32, .cmd 4#32, .wait, .label 1, .rd 0x04] =
    some [.wr 0x00 0x102#32, .bit 0x04 0 1, .rd 0x04, .wr 0x10 3#32, .wr 0x14 0x5000#32,
      .wr 0x18 0x4000#32, .wr 0x1C 3#32, .wr 0x00 4#32, .bit 0x04 0 8, .bit 0x04 2 11, .bit 0x04 1 14,
      .wr 0x1C 2#32, .wr 0x00 4#32, .bit 0x04 0 13, .rd 0x04] := by decide

/-- The next line of a label before a command line is the first write of its expansion (R98, R99); a label
with no next line, and the first of two labels with one name, are log 18. -/
theorem test_labels : assemble [.bit 0x04 0 1, .label 0, .setbs 7#32, .bit 0x04 1 0, .label 0, .label 1] =
    some [.bit 0x04 0 4, .wr 0x10 7#32, .wr 0x00 1#32, .bit 0x04 1 1] := by decide

/-- A branch to no label has no expansion (log 18). -/
theorem test_program_undefined_label : assemble [.bit 0x04 0 7] = none := by decide

/-! ## Witnesses: commands and the window -/

/-- For CommandWordsDecodeAsTheTableSays and DecodeAndEncodeAgree. -/
theorem witness_DecodeAndEncodeAgree : decode 1#32 = .ok .setbs ∧ decode 4#32 = .ok .remapg := ⟨rfl, rfl⟩

theorem witness_OtherWordsEndAsIllegalCommands : ∀ w ∈ [0#32, 5#32, 0x102#32, 0x80000001#32],
    let s := State.reset.withFetchWord 32 w.toNat
    s.unit.status.busy = true ∧ s.unit.phase = .decode ∧
      ∀ n : Nat, 1 ≤ n → n ≤ 4 → s.unit.lopc ≠ BitVec.ofNat 32 n := by
  intro w hw
  refine ⟨rfl, rfl, fun n h1 h4 => ?_⟩
  simp only [List.mem_cons, List.not_mem_nil, or_false] at hw
  obtain rfl | rfl | rfl | rfl := hw <;> interval_cases n <;> decide

theorem witness_StepRunsTheDecodedCommand : ∀ i : Instr,
    (State.reset.withCommand (encode i)).unit.status.busy = true ∧
    decode (State.reset.withCommand (encode i)).unit.lopc = .ok i ∧
    (State.reset.withCommand (encode i)).turns = .unit 0 :: [] ∧
    (running i .decode 64#32 m1Ops []).unit.status.busy = true ∧
    decode (running i .decode 64#32 m1Ops []).unit.lopc = .ok i ∧
    (running i .decode 64#32 m1Ops []).turns = [] := by
  intro i
  cases i <;> exact ⟨rfl, rfl, rfl, rfl, rfl, rfl⟩

theorem witness_IdleUnitTakesNoStep : State.reset.unit.status.busy = false ∧
    (State.reset.withTurns [.unit 0]).unit.status.busy = false ∧
    (State.reset.withTurns [.unit 0]).turns = .unit 0 :: [] := ⟨rfl, rfl, rfl⟩

theorem witness_RegisterPortAcceptsOnlyAlignedWords : (2 ≠ 4 ∨ 0x14 % 4 ≠ 0) ∧ (4 ≠ 4 ∨ 0x11 % 4 ≠ 0) ∧
    State.reset.unit ∈ State.reset.unit :: State.reset.others ∧ 0x3F < 0x40 := by decide

theorem witness_ReservedOffsetsReadZeroAndIgnoreWrites : ∀ off ∈ [0x34, 0x38, 0x3C],
    off = 0x34 ∨ off = 0x38 ∨ off = 0x3C := by decide

theorem witness_CmdWriteIsAcceptedOrDropped : State.reset.unit.status.busy = false ∧
    decode 2#32 = .ok .repack ∧ (s2 .rpCheck).unit.status.busy = true := ⟨rfl, rfl, rfl⟩

theorem witness_ArgRegistersBelongToTheHost : (0 : Fin 7) ≠ 6 ∧ State.reset.unit.status.busy = false ∧
    (∃ t, unitStep (b2 .sbWrite) = .next t) ∧ (∃ t, unitStep (s2 .rpCheck) = .next t) ∧
    (∃ t, unitStep (m1 .rmRdIdx) = .next t) ∧ ∃ t, unitStep (g2 .rmRdIdx) = .next t :=
  ⟨by decide, rfl, ⟨_, rfl⟩, ⟨_, rfl⟩, ⟨_, rfl⟩, ⟨_, rfl⟩⟩

theorem witness_DroppedCommandLeavesTheCommandInFlightAlone : (s2 .rpCheck).unit.status.busy = true := rfl

theorem witness_HostAddressesReachTheWindow : (0x3F : Nat) < 0x40 ∧
    State.reset.unit.base.toNat % 0x40 = 0 ∧
    ({ State.reset.unit with base := 0xFFFFFFC0#32 } : Dqba).base.toNat % 0x40 = 0 ∧
    0x40 ≤ (0x40#32 - State.reset.unit.base).toNat ∧ 0x40 ≤ (0xFFFFFFFF#32 - State.reset.unit.base).toNat := by
  decide

theorem witness_SetbsStoresAnyValue : State.reset.unit.status.busy = false ∧
    (b2 .decode).unit.phase = .decode ∧ (b2 .sbWrite).unit.phase = .sbWrite := ⟨rfl, rfl, rfl⟩

/-! ## Witnesses: REPACK -/

/-- The three clauses: a block size of 0 and one of 2^31; each base misaligned; the block sizes 1 and
2^31 - 1 with aligned bases. -/
theorem witness_RepackChecksThenInitialises :
    (∀ bs ∈ [0#32, 0x80000000#32], (running .repack .decode bs s2Ops []).unit.phase = .decode ∧
      (running .repack .decode bs s2Ops []).unit.lbs.toInt ≤ 0) ∧
    (∀ ops ∈ [s2Ops.set 1 0x1001#32, s2Ops.set 2 0x2001#32, s2Ops.set 3 0x3002#32, s2Ops.set 4 0x4001#32],
      0 < (running .repack .decode 4#32 ops []).unit.lbs.toInt ∧
      ((running .repack .decode 4#32 ops []).unit.latch[1].toNat % 2 = 1 ∨
        (running .repack .decode 4#32 ops []).unit.latch[2].toNat % 2 = 1 ∨
        (running .repack .decode 4#32 ops []).unit.latch[3].toNat % 4 ≠ 0 ∨
        (running .repack .decode 4#32 ops []).unit.latch[4].toNat % 4 ≠ 0)) ∧
    ∀ bs ∈ [1#32, 0x7FFFFFFF#32], (running .repack .decode bs s2Ops []).unit.repackLegal := by
  refine ⟨fun x hx => ?_, fun x hx => ?_, fun x hx => ?_⟩ <;>
    simp only [List.mem_cons, List.not_mem_nil, or_false] at hx
  · obtain rfl | rfl := hx <;> decide
  · obtain rfl | rfl | rfl | rfl := hx <;> decide
  · obtain rfl | rfl := hx <;> decide

theorem witness_RepackCheckEndsFailsOrReads :
    (s2 .rpCheck).unit.phase = .rpCheck ∧
    (withCounters (s2 .rpCheck) 2#32 8#32).unit.i = (withCounters (s2 .rpCheck) 2#32 8#32).unit.latch[0] ∧
    (withCounters (s2 .rpCheck) 1#32 8#32).unit.i ≠ (withCounters (s2 .rpCheck) 1#32 8#32).unit.latch[0] ∧
    (withCounters (s2 .rpCheck) 1#32 8#32).unit.latch[6].toNat ≤
      (withCounters (s2 .rpCheck) 1#32 8#32).unit.p.toNat ∧
    (withCounters (s2 .rpCheck) 1#32 7#32).unit.p.toNat <
      (withCounters (s2 .rpCheck) 1#32 7#32).unit.latch[6].toNat := by decide

theorem witness_RepackReadsTheVertex : ∀ k : Fin 3, (s2 (.rpRead k)).unit.phase = .rpRead k ∧
    memOK (s2 (.rpRead k)).refused ((s2 (.rpRead k)).unit.inputAddr 0 k) .half = true := by decide

theorem witness_RepackStartsABlockAtItsFirstSlot : (s2 .rpBlock).unit.phase = .rpBlock ∧
    (withCounters (s2 .rpBlock) 1#32 4#32).unit.p.toNat %
      (withCounters (s2 .rpBlock) 1#32 4#32).unit.lbs.toNat = 0 ∧
    (withCounters (s2 .rpBlock) 1#32 3#32).unit.p.toNat %
      (withCounters (s2 .rpBlock) 1#32 3#32).unit.lbs.toNat ≠ 0 := by decide

theorem witness_RepackStoresTheAnchor : ∀ k : Fin 3, (s2 (.rpAnchor k)).unit.phase = .rpAnchor k ∧
    memOK (s2 (.rpAnchor k)).refused ((s2 (.rpAnchor k)).unit.anchorAddr 0 k) .half = true := by decide

theorem witness_RepackOverflowSelectsPadding : (s2 .rpEval).unit.phase = .rpEval := rfl

theorem witness_RepackPacksThenRecordsTheSlot : (s2 .rpPack).unit.phase = .rpPack ∧
    memOK (s2 .rpPack).refused ((s2 .rpPack).unit.packedAddr 0) .word = true ∧
    (s2 .rpRemap).unit.phase = .rpRemap ∧
    memOK (s2 .rpRemap).refused ((s2 .rpRemap).unit.remapAddr 0) .word = true := by decide

theorem witness_RepackPadsThenRetries : (s2 .rpPad).unit.phase = .rpPad ∧
    (withCounters (s2 .rpPad) 1#32 4#32).unit.p.toNat %
      (withCounters (s2 .rpPad) 1#32 4#32).unit.lbs.toNat = 0 ∧
    (∀ p ∈ [9#32, 11#32], (withCounters (s2 .rpPad) 1#32 p).unit.p.toNat %
        (withCounters (s2 .rpPad) 1#32 p).unit.lbs.toNat ≠ 0 ∧
      (withCounters (s2 .rpPad) 1#32 p).unit.latch[6].toNat ≤
        (withCounters (s2 .rpPad) 1#32 p).unit.p.toNat) ∧
    ∀ p ∈ [1#32, 7#32], (withCounters (s2 .rpPad) 1#32 p).unit.p.toNat %
        (withCounters (s2 .rpPad) 1#32 p).unit.lbs.toNat ≠ 0 ∧
      (withCounters (s2 .rpPad) 1#32 p).unit.p.toNat <
        (withCounters (s2 .rpPad) 1#32 p).unit.latch[6].toNat ∧
      memOK (s2 .rpPad).refused ((s2 .rpPad).unit.packedAddr p.toNat) .word = true := by
  refine ⟨by decide, by decide, fun x hx => ?_, fun x hx => ?_⟩ <;>
    simp only [List.mem_cons, List.not_mem_nil, or_false] at hx <;> obtain rfl | rfl := hx <;> decide

/-! ## Witnesses: errors and frames -/

/-- The machine with every access refused. -/
def refusing (s : State) : State :=
  { s with refused := [⟨0, 0xFFFFFFFF, .half⟩, ⟨0, 0xFFFFFFFF, .word⟩] }

theorem witness_RefusedAccessEndsTheCommand :
    (unitAccess .repack (refusing (s2 (.rpRead 0))).unit = some (0x1000#32, .half) ∧
      memOK (refusing (s2 (.rpRead 0))).refused 0x1000#32 .half = false) ∧
    (unitAccess .remap32 (refusing (m1 .rmWrIdx)).unit = some (0x5000#32, .word) ∧
      memOK (refusing (m1 .rmWrIdx)).refused 0x5000#32 .word = false) ∧
    (unitAccess .remapg (refusing (g2 .rmRdIdx)).unit = some (0x5000#32, .half) ∧
      memOK (refusing (g2 .rmRdIdx)).refused 0x5000#32 .half = false) := by decide

theorem witness_UnitStepFrame : (∃ t, exec .setbs (b2 .decode) = .next t) ∧
    (∃ t, exec .repack (s2 .decode) = .next t) ∧ (∃ t, exec .remap32 (m1 .decode) = .next t) ∧
    ∃ t, exec .remapg (g2 .decode) = .next t := ⟨⟨_, rfl⟩, ⟨_, rfl⟩, ⟨_, rfl⟩, ⟨_, rfl⟩⟩

/-- The bytes just below and just above the packed slot are outside the store. -/
theorem witness_UnitStepStoresOnlyAtItsAddress : (∃ t, exec .repack (s2 .rpPack) = .next t) ∧
    ∀ x ∈ [0x2FFF, 0x3004], ¬ unitStores .repack (s2 .rpPack).unit x := by
  refine ⟨⟨_, rfl⟩, fun x hx => ?_⟩
  rintro ⟨a, w, ha, -, hb⟩
  obtain ⟨rfl, rfl⟩ : a = 0x3000#32 ∧ w = .word := by
    have := (show unitAccess .repack (s2 .rpPack).unit = some (0x3000#32, .word) by decide).symm.trans ha
    simp only [Option.some.injEq, Prod.mk.injEq] at this
    exact ⟨this.1.symm, this.2.symm⟩
  rw [inBytes_iff_of_fits (by decide)] at hb
  simp only [List.mem_cons, List.not_mem_nil, or_false] at hx
  simp only [BitVec.toNat_ofNat, Width.bytes] at hb
  omega

theorem witness_EndingStepWritesNothing : (∃ t, exec .setbs (b2 .decode) = .next t ∧ t.unit.phase ≠ .idle) ∧
    (∃ t, exec .setbs (b2 .sbWrite) = .next t ∧ t.unit.phase = .idle) ∧
    (∃ t, exec .repack (withCounters (s2 .rpCheck) 2#32 5#32) = .next t ∧ t.unit.phase = .idle) ∧
    (∃ t, exec .remap32 (withCounters (m1 .rmCheck) 3#32 0#32) = .next t ∧ t.unit.phase = .idle) ∧
    ∃ t, exec .remapg (withCounters (g2 .rmCheck) 2#32 0#32) = .next t ∧ t.unit.phase = .idle :=
  ⟨⟨_, rfl, by decide⟩, ⟨_, rfl, rfl⟩, ⟨_, rfl, rfl⟩, ⟨_, rfl, rfl⟩, ⟨_, rfl, rfl⟩⟩

/-- S2 reading its second vertex: one slot used, one block started. -/
def s2Second : State :=
  { withCounters (s2 (.rpRead 0)) 1#32 1#32 with
    unit := { (withCounters (s2 (.rpRead 0)) 1#32 1#32).unit with b := 0#32 } }

theorem witness_unit_invariant : s2Second.unit.Inv :=
  ⟨by decide, by decide, by decide, (by decide : s2Second.unit.repackRunning ∧ s2Second.unit.blocksStarted ∧
    s2Second.unit.attempt)⟩

theorem witness_UnitAccessesAreAligned : s2Second.unit.Inv ∧ decode s2Second.unit.lopc = .ok .repack ∧
    unitAccess .repack s2Second.unit = some (0x1006#32, .half) := ⟨witness_unit_invariant, rfl, by decide⟩

/-! ## Witnesses: the datapath -/

theorem witness_SubtractorSaturates :
    (-32768 ≤ ((0#16).toNat : Int) - (32768#16).toNat ∧ ((0#16).toNat : Int) - (32768#16).toNat ≤ 32767) ∧
    ((0#16).toNat : Int) - (32769#16).toNat < -32768 ∧ 32767 < ((32768#16).toNat : Int) - (0#16).toNat := by
  decide

theorem witness_SaturationChangesNoRangeDecision : inRange (delta 0#16 512#16) = true ∧
    inRange (delta 1023#16 512#16) = true := by decide

theorem witness_PackedWordLayout : inRange 0 = true ∧ inRange 1023 = true := by decide

theorem witness_ZeroWordCanBeAVertex :
    ovf ⟨0#16, 0#16, 0#16⟩ ⟨512#16, 512#16, 512#16⟩ = false ∧
    ovf ⟨1023#16, 1023#16, 1023#16⟩ ⟨512#16, 512#16, 512#16⟩ = false := by decide

theorem witness_PackedWordDecodesToItsVertex :
    ovf ⟨65535#16, 0#16, 0#16⟩ ⟨65024#16, 512#16, 0#16⟩ = false := by decide

/-! ## Witnesses: the remap commands -/

theorem witness_Remap32ChecksAlignment : (m1 .decode).unit.phase = .decode ∧ (m1 .decode).unit.remap32Legal ∧
    (running .remap32 .decode 64#32 (m1Ops.set 1 0x5002#32) []).unit.latch[1].toNat % 4 ≠ 0 ∧
    (running .remap32 .decode 64#32 (m1Ops.set 2 0x6001#32) []).unit.latch[2].toNat % 4 ≠ 0 := by decide

/-- Strides 3 and 0; stride 2 at an odd base, stride 4 at a base that is 2 mod 4; and legal operands. -/
theorem witness_RemapgChecksStrideThenAlignment : (g2 .decode).unit.phase = .decode ∧
    (∀ x ∈ [0#32, 3#32, 8#32], (g2Ops.set 3 x)[3] ≠ 2#32 ∧ (g2Ops.set 3 x)[3] ≠ 4#32) ∧
    (g2Ops.set 1 0x5001#32)[1].toNat % (g2Ops.set 1 0x5001#32)[3].toNat ≠ 0 ∧
    (m1Ops.set 1 0x5002#32)[1].toNat % (m1Ops.set 1 0x5002#32)[3].toNat ≠ 0 ∧
    (g2 .decode).unit.remapgLegal ∧ (running .remapg .decode 64#32 m1Ops []).unit.remapgLegal := by
  refine ⟨by decide, fun x hx => ?_, by decide, by decide, by decide, by decide⟩
  simp only [List.mem_cons, List.not_mem_nil, or_false] at hx
  obtain rfl | rfl | rfl := hx <;> decide

theorem witness_Remap32RewritesAnElement :
    (withCounters (m1 .rmCheck) 3#32 0#32).unit.i = (withCounters (m1 .rmCheck) 3#32 0#32).unit.latch[0] ∧
    (withCounters (m1 .rmCheck) 2#32 0#32).unit.i ≠ (withCounters (m1 .rmCheck) 2#32 0#32).unit.latch[0] ∧
    (∀ ph ∈ [Phase.rmCheck, .rmRdIdx, .rmRdTbl, .rmWrIdx], (m1 ph).unit.phase = ph) ∧
    memOK (m1 .rmRdIdx).refused ((m1 .rmRdIdx).unit.indexAddr .word 0) .word = true := by decide

theorem witness_RemapgRewritesA16BitElement :
    (g2 .rmCheck).unit.latch[3] = 2#32 ∧
    (withCounters (g2 .rmCheck) 2#32 0#32).unit.i = (withCounters (g2 .rmCheck) 2#32 0#32).unit.latch[0] ∧
    (withCounters (g2 .rmCheck) 1#32 0#32).unit.i ≠ (withCounters (g2 .rmCheck) 1#32 0#32).unit.latch[0] ∧
    (∀ ph ∈ [Phase.rmCheck, .rmRdIdx, .rmRdTbl, .rmWrIdx], (g2 ph).unit.phase = ph) ∧
    memOK (g2 .rmRdIdx).refused ((g2 .rmRdIdx).unit.indexAddr .half 0) .half = true ∧
    memOK (g2 .rmRdTbl).refused ((g2 .rmRdTbl).unit.tableAddr 0) .word = true := by decide

theorem witness_RemapgWithStrideFourIsRemap32 : (running .remapg .rmRdIdx 64#32 m1Ops []).unit.latch[3] =
    4#32 := rfl

/-! ## Witnesses: the other agents and the invariant -/

/-- Two units, each in a command. -/
def twoUnits : State := { s2 .rpCheck with others := [(m1 .rmRdIdx).unit] }

theorem witness_ResetAbandonsTheCommandAndKeepsMemory :
    ((s2 .rpPack).withTurns [.act (.reset 0)]).turns = .act (.reset 0) :: [] ∧
    ((s2 .rpPack).withTurns [.act (.reset 0)]).unit.status.busy = true ∧
    (twoUnits.withTurns [.act (.reset 1)]).turns = .act (.reset (0 + 1)) :: [] ∧
    (twoUnits.withTurns [.act (.reset 1)]).others[0]? = some (m1 .rmRdIdx).unit := ⟨rfl, rfl, rfl, rfl⟩

theorem witness_InstancesShareNoRegister : (∃ t, stepUnit 0 twoUnits = .next t) ∧
    (∃ t, stepUnit 1 twoUnits = .next t ∧ t.others ≠ twoUnits.others) ∧ 1 ≠ 0 :=
  ⟨⟨_, rfl⟩, ⟨_, rfl, by decide⟩, by decide⟩

theorem witness_HostMemoryAccessesMoveBytes : [1#8, 2#8].length ≤ 2 ^ 32 ∧
    ¬ inBytes (0xFFFFFFFF#32).toNat [1#8, 2#8].length 1 := by
  refine ⟨by decide, ?_⟩
  rintro ⟨j, hj, h⟩
  have hj : j < 2 := hj
  interval_cases j <;> exact absurd h (by decide)

/-- A step that changes RESULT on success and one on an error, one that changes BLOCK_SIZE, one that
changes ANCHOR. -/
theorem witness_OnlyTheirCommandsWriteTheRegisters :
    (∃ t, step (withCounters (s2 .rpCheck) 2#32 5#32) = .next t ∧ t.unit.result ≠ 0#32 ∧
      t.unit.status.err = false) ∧
    (∃ t, step (withCounters (s2 .rpCheck) 1#32 8#32) = .next t ∧ t.unit.result ≠ 0#32 ∧
      t.unit.status.err = true) ∧
    (∃ t, step (b2 .sbWrite) = .next t ∧ t.unit.blockSize ≠ 64#32) ∧
    (∃ t, step (withVertex (s2 .rpBlock) ⟨1#16, 2#16, 3#16⟩ ⟨0#16, 0#16, 0#16⟩) = .next t ∧
      t.unit.anchor ≠ ⟨0#16, 0#16, 0#16⟩) ∧
    ∀ rest, (b2 .sbWrite).turns ≠ .act (.reset 0) :: rest :=
  ⟨⟨_, rfl, by decide, by decide⟩, ⟨_, rfl, by decide, by decide⟩, ⟨_, rfl, by decide⟩,
    ⟨_, rfl, by decide⟩, fun _ h => by cases h⟩

theorem witness_ProgramOperationsActOnTheWindow :
    (0x3C : Nat) < 0x40 ∧ 31 < 32 ∧
    (∀ op ∈ [HostOp.wr 0x3C 1#32, .rd 0x3C, .bit 0x3C 31 0],
      ({ State.reset with program := [op] }).program[State.reset.line]? = some op) := by decide

/-- A branch before its label and one after it, and a second label of the same name at the end. -/
theorem witness_LabelsNameTheNextLine :
    .label 0 ∉ [AsmLine.bit 0x04 0 0, .nop] ∧
    (assemble ([.bit 0x04 0 0, .nop] ++ .label 0 :: [.setbs 7#32, .bit 0x04 1 0, .label 0])).isSome = true ∧
    [AsmLine.bit 0x04 0 0, .nop] ++ .label 0 :: [.setbs 7#32, .bit 0x04 1 0, .label 0] =
      [.bit 0x04 0 0, .nop, .label 0, .setbs 7#32] ++ .bit 0x04 1 0 :: [.label 0] := by decide

theorem witness_EveryStepKeepsTheInvariant : s2Second.Inv ∧ ∃ t, step s2Second = .next t :=
  ⟨⟨by decide, witness_unit_invariant, fun u hu => by cases hu⟩, ⟨_, rfl⟩⟩

theorem witness_BusyUnitAlwaysHasAStep : s2Second.unit.Inv ∧ s2Second.unit.status.busy = true :=
  ⟨witness_unit_invariant, rfl⟩

/-- S2 at the block test of its second vertex's second attempt: slot 4, block 1 about to start. -/
def s2Block : State :=
  withCounters { s2 .rpBlock with unit := { (s2 .rpBlock).unit with b := 0#32 } } 1#32 4#32

/-- S2 evaluating its second vertex in block 0. -/
def s2Eval : State :=
  withCounters (withVertex { s2 .rpEval with unit := { (s2 .rpEval).unit with b := 0#32 } }
    ⟨2000#16, 0#16, 0#16⟩ ⟨0#16, 0#16, 0#16⟩) 1#32 1#32

theorem witness_BlocksAreNumberedByTheirSlots :
    (s2Block.unit.Inv ∧ s2Block.unit.lopc = encode .repack ∧
      ∃ t, exec .repack s2Block = .next t ∧ t.unit.phase = .rpAnchor 0) ∧
    (s2Eval.unit.Inv ∧ s2Eval.unit.phase = .rpEval ∧
      ∃ t, exec .repack s2Eval = .next t ∧ t.unit.phase = .rpPad) :=
  ⟨⟨⟨by decide, by decide, by decide, (by decide : s2Block.unit.repackRunning ∧ s2Block.unit.blocksStarted ∧
      s2Block.unit.attempt)⟩, rfl, ⟨_, rfl, by decide⟩⟩,
    ⟨⟨by decide, by decide, by decide, (by decide : s2Eval.unit.repackRunning ∧ s2Eval.unit.attemptInBlock)⟩, rfl,
      ⟨_, rfl, by decide⟩⟩⟩

/-- S2 at its last check: both vertices packed, 5 slots, 2 blocks. -/
def s2Done : State :=
  withCounters { s2 .rpCheck with unit := { (s2 .rpCheck).unit with b := 1#32 } } 2#32 5#32

theorem witness_RepackLengthIsBounded : s2Done.unit.Inv ∧ s2Done.unit.lopc = encode .repack ∧
    1 ≤ s2Done.unit.count.toNat ∧
    ∃ t, exec .repack s2Done = .next t ∧ t.unit.phase = .idle ∧ t.unit.status.err = false :=
  ⟨⟨by decide, by decide, by decide, (by decide : s2Done.unit.repackRunning ∧ s2Done.unit.blocksStarted ∧
      s2Done.unit.i.toNat ≤ s2Done.unit.count.toNat ∧ s2Done.unit.p.toNat ≤ s2Done.unit.rpMax.toNat ∧
      s2Done.unit.i.toNat ≤ s2Done.unit.p.toNat ∧
      ((s2Done.unit.i.toNat = 0 ∧ s2Done.unit.p.toNat = 0) ∨
        (0 < s2Done.unit.i.toNat ∧
          s2Done.unit.p.toNat ≤ (s2Done.unit.i.toNat - 1) * s2Done.unit.lbs.toNat + 1) ∨
        (s2Done.unit.i.toNat < s2Done.unit.count.toNat ∧
          s2Done.unit.p.toNat % s2Done.unit.lbs.toNat = 0 ∧
          s2Done.unit.p.toNat ≤ s2Done.unit.i.toNat * s2Done.unit.lbs.toNat)))⟩,
    rfl, by decide, ⟨_, rfl, by decide, by decide⟩⟩

/-- S2 packing its first vertex. -/
def s2Pack : State := { s2 .rpPack with unit := { (s2 .rpPack).unit with b := 0#32 } }

theorem witness_RepackStaysInItsBuffers :
    (s2Pack.unit.Inv ∧ s2Pack.unit.lopc = encode .repack ∧
      ∃ t, exec .repack s2Pack = .next t ∧ t.mem.readByte 0x3003 ≠ s2Pack.mem.readByte 0x3003) ∧
    (s2Second.unit.Inv ∧ unitAccess .repack s2Second.unit = some (0x1006#32, .half) ∧
      s2Second.unit.phase.reads = true) :=
  ⟨⟨⟨by decide, by decide, by decide, (by decide : s2Pack.unit.repackRunning ∧ s2Pack.unit.attemptInBlock ∧
      ovf s2Pack.unit.v s2Pack.unit.anchor = false)⟩, rfl, ⟨_, rfl, by decide⟩⟩,
    ⟨witness_unit_invariant, by decide, rfl⟩⟩

/-! ## Witnesses: whole commands -/

theorem witness_EveryAcceptedCommandEnds : ∀ i : Instr, (running i .decode 4#32 s2Ops []).turns = [] ∧
    (running i .decode 4#32 s2Ops []).unit.status.busy = true ∧
    (running i .decode 4#32 s2Ops []).unit.phase = .decode := fun _ => ⟨rfl, rfl, rfl⟩

/-- The same statement from the middle of a command. -/
theorem witness_EveryAcceptedCommandEnds_in_its_loop : s2Second.turns = [] ∧
    s2Second.unit.status.busy = true ∧ s2Second.unit.Inv := ⟨rfl, rfl, witness_unit_invariant⟩

/-- With nobody else scheduled, and with the host writing a byte and a second instance stepping between. -/
theorem witness_RepackAccessesAreBounded :
    ∀ turns ∈ [[], [.act (.memWrite 0x1000#32 [7#8]), Turn.unit 0, .unit 1]],
      ((s2 .decode).withTurns turns).unit.status.busy = true ∧
      ((s2 .decode).withTurns turns).unit.phase = .decode ∧
      ((s2 .decode).withTurns turns).unit.lopc = encode .repack := fun _ _ => ⟨rfl, rfl, rfl⟩

/-- A byte of vertex `i` of S2 lies in its 12 bytes of input. -/
theorem s2_input_bytes {x : Nat} (h : inputByte (s2 .decode) x) : 0x1000 ≤ x ∧ x < 0x100C := by
  obtain ⟨i, hi, k, hk, hb⟩ := h
  have hi : i < 2 := hi
  interval_cases i <;> interval_cases k <;> rw [inBytes_iff_of_fits (by decide)] at hb <;>
    · have h1 := hb.1
      have h2 := hb.2
      simp only [s2, running, Dqba.inputAddr, Dqba.rpIn, Dqba.rpStride, s2Ops] at h1 h2
      exact ⟨le_trans (by decide) h1, lt_of_lt_of_le h2 (by decide)⟩

theorem witness_RepackComputesThePacking : accepted .repack (s2 .decode) ∧ RepackBuffers (s2 .decode) := by
  have hp : ∀ x, packedByte (s2 .decode) (s2 .decode).unit.rpMax.toNat x → 0x3000 ≤ x ∧ x < 0x3020 :=
    fun x h => (inBytes_iff_of_fits (a := 0x3000) (n := 32) (by decide)).mp h
  have ha : ∀ x, anchorByte (s2 .decode) (maxBlocks (s2 .decode)) x → 0x2000 ≤ x ∧ x < 0x200C :=
    fun x h => (inBytes_iff_of_fits (a := 0x2000) (n := 12) (by decide)).mp h
  have hr : ∀ x, remapByte (s2 .decode) (s2 .decode).unit.count.toNat x → 0x4000 ≤ x ∧ x < 0x4008 :=
    fun x h => (inBytes_iff_of_fits (a := 0x4000) (n := 8) (by decide)).mp h
  refine ⟨⟨rfl, rfl, rfl, rfl⟩, ⟨by decide, by decide, by decide, by decide, ?_, ?_, ?_, ?_,
    fun _ _ _ _ => rfl, fun _ _ => rfl, fun _ _ _ _ => rfl, fun _ _ => rfl⟩⟩
  · intro x h h'
    have := hp x h
    have := ha x h'
    omega
  · intro x h h'
    have := hp x h
    have := hr x h'
    omega
  · intro x h h'
    have := ha x h
    have := hr x h'
    omega
  · intro x h
    have := s2_input_bytes h
    refine ⟨fun h' => ?_, fun h' => ?_, fun h' => ?_⟩
    · have := hp x h'
      omega
    · have := ha x h'
      omega
    · have := hr x h'
      omega

/-- Both cases of the packing: S2 with `max` 8 and S3b's `max` 3. -/
theorem witness_packings : (packVertices 4 8 (inputVertices (s2 .decode)) 0 (s2 .decode).unit.anchor).isSome =
      true ∧
    packVertices 4 3 (inputVertices (s2 .decode)) 0 (s2 .decode).unit.anchor = none := by decide

/-- S2's end state, from the vector: five words, two anchors, slots 0 and 4. -/
theorem witness_PackingMapsEachVertexToItsSlot :
    0 < 4 ∧ packVertices 4 8 [⟨0#16, 0#16, 0#16⟩, ⟨2000#16, 0#16, 0#16⟩] 0 ⟨0#16, 0#16, 0#16⟩ =
      some
        { words := [0x80200800#32, 0#32, 0#32, 0#32, 0x80200800#32]
          anchors := [⟨0#16, 0#16, 0#16⟩, ⟨2000#16, 0#16, 0#16⟩]
          slots := [0, 4] } := by decide

theorem witness_RemapCommandsRewriteInOrder :
    (accepted .remap32 (m1 .decode) ∧ (m1 .decode).unit.remap32Legal ∧
      ∀ a v, memOK (m1 .decode).refused a v = true) ∧
    (accepted .remapg (g2 .decode) ∧ strideWidth (g2 .decode).unit.rmStride = some .half ∧
      (g2 .decode).unit.remapgLegal ∧ ∀ a v, memOK (g2 .decode).refused a v = true) :=
  ⟨⟨⟨rfl, rfl, rfl, rfl⟩, by decide, fun _ _ => rfl⟩,
    ⟨⟨rfl, rfl, rfl, rfl⟩, by decide, by decide, fun _ _ => rfl⟩⟩

theorem witness_RemapAppliesTheTable : RemapBuffers (m1 .decode) .word ∧ RemapBuffers (g2 .decode) .half := by
  refine ⟨⟨by decide, fun i hi x hx hb => ?_⟩, ⟨by decide, fun i hi x hx hb => ?_⟩⟩
  · have hi : i < 3 := hi
    have h2 := (inBytes_iff_of_fits (a := 0x5000) (n := 12) (by decide)).mp hb
    interval_cases i <;> rw [inBytes_iff_of_fits (by decide)] at hx <;>
      exact absurd (le_trans (by decide) hx.1) (not_le.mpr h2.2)
  · have hi : i < 2 := hi
    have h2 := (inBytes_iff_of_fits (a := 0x5000) (n := 4) (by decide)).mp hb
    interval_cases i <;> rw [inBytes_iff_of_fits (by decide)] at hx <;>
      exact absurd (le_trans (by decide) hx.1) (not_le.mpr h2.2)

theorem witness_IdleInternalsAreNeverObserved : State.reset.unit.status.busy = false ∧
    State.reset.unit.phase = .idle ∧
    State.reset.unit.withInternals (s2 .rpPack).unit ≠ State.reset.unit := by decide

end Sys2Proof.Tests
end

namespace Sys2Proof.Machine
/-! ## What one unit step can write -/

/-- `m'` is `m`, or `m` with one value stored by the memory port (20_memory.md R62). -/
def keepsOrStores (m m' : Memory) : Prop := m' = m ∨ ∃ a w v, m' = m.store a w v

/-- The ways a step of REPACK leaves the machine: it goes on with new counters, vertex latch and memory, and
with a new ANCHOR only at a block start (42_repack.md R145); RP_CHECK completes with `p` (R151); or it fails. -/
inductive RepackStep (s : State) : State → Prop
  | goesOn (m : Memory) (i p b : Word) (v a : Vec3) (ph : Phase) (hm : keepsOrStores s.mem m)
      (hph : ph ≠ .idle)
      (ha : a = s.unit.anchor ∨
        (s.unit.phase = .rpBlock ∧ s.unit.p.toNat % s.unit.lbs.toNat = 0 ∧ a = s.unit.v)) :
      RepackStep s
        ((s.withMem m).withUnit { s.unit with i := i, p := p, b := b, v := v, anchor := a, phase := ph })
  | succeeds (hph : s.unit.phase = .rpCheck) : RepackStep s (complete (some s.unit.p) s)
  | fails (e : Error) : RepackStep s (raiseError (some .repack) e s)

/-- The ways a step of a remap command leaves the machine: it goes on with a new element counter, temporaries
and memory, it completes without a result, or it fails (43_remap.md R170, R171). -/
inductive RemapStep (cmd : Instr) (s : State) : State → Prop
  | goesOn (m : Memory) (i iv tv : Word) (ph : Phase) (hm : keepsOrStores s.mem m) (hph : ph ≠ .idle) :
      RemapStep cmd s ((s.withMem m).withUnit { s.unit with i := i, iv := iv, tv := tv, phase := ph })
  | succeeds : RemapStep cmd s (complete none s)
  | fails (e : Error) : RemapStep cmd s (raiseError (some cmd) e s)

theorem afterRead_ne_idle (k : Fin 3) : afterRead k ≠ .idle := by
  match k with
  | 0 | 1 | 2 => simp [afterRead]

theorem afterAnchor_ne_idle (k : Fin 3) : afterAnchor k ≠ .idle := by
  match k with
  | 0 | 1 | 2 => simp [afterAnchor]

/-- A step that moves to another phase and stores at most to memory is one that goes on. -/
theorem RepackStep.goto {s : State} {m : Memory} (hm : keepsOrStores s.mem m) {ph : Phase}
    (hph : ph ≠ .idle) : RepackStep s ((s.withMem m).goto ph) :=
  .goesOn m _ _ _ _ _ ph hm hph (.inl rfl)

theorem execRepack_step {s t : State} (h : execRepack s = .next t) : RepackStep s t := by
  rcases execRepack_next h with ⟨-, rfl⟩ | ⟨hp, rfl⟩ | ⟨k, -, rfl⟩ | ⟨hp, rfl⟩ | ⟨k, -, rfl⟩ | ⟨hp, rfl⟩ |
    ⟨-, rfl⟩ | ⟨-, rfl⟩ | ⟨hp, rfl⟩
  · rcases repackStart_cases s with ⟨-, e⟩ | ⟨-, -, e⟩ | ⟨-, -, -, -, -, e⟩ <;> rw [e]
    · exact .fails _
    · exact .fails _
    · exact .goesOn s.mem _ _ _ _ _ _ (.inl rfl) (by simp) (.inl rfl)
  · rcases repackCheck_cases s with ⟨-, e⟩ | ⟨-, -, e⟩ | ⟨-, -, e⟩ <;> rw [e]
    · exact .succeeds hp
    · exact .fails _
    · exact .goto (.inl rfl) (by simp)
  · rcases repackRead_cases k s with ⟨-, e⟩ | ⟨-, e⟩ <;> rw [e]
    · exact .goesOn s.mem _ _ _ _ _ _ (.inl rfl) (afterRead_ne_idle k) (.inl rfl)
    · exact .fails _
  · rcases repackBlock_cases s with ⟨h0, e⟩ | ⟨-, e⟩ <;> rw [e]
    · exact .goesOn s.mem _ _ _ _ _ _ (.inl rfl) (by simp) (.inr ⟨hp, h0, rfl⟩)
    · exact .goto (.inl rfl) (by simp)
  · rcases repackAnchor_cases k s with ⟨-, e⟩ | ⟨-, e⟩ <;> rw [e]
    · exact .goto (.inr ⟨_, _, _, rfl⟩) (afterAnchor_ne_idle k)
    · exact .fails _
  · rcases repackEval_cases s with ⟨-, e⟩ | ⟨-, e⟩ <;> rw [e]
    · exact .goto (.inl rfl) (by simp)
    · exact .goto (.inl rfl) (by simp)
  · rcases repackPack_cases s with ⟨-, e⟩ | ⟨-, e⟩ <;> rw [e]
    · exact .goto (.inr ⟨_, _, _, rfl⟩) (by simp)
    · exact .fails _
  · rcases repackRemap_cases s with ⟨-, e⟩ | ⟨-, e⟩ <;> rw [e]
    · exact .goesOn _ _ _ _ _ _ _ (.inr ⟨_, _, _, rfl⟩) (by simp) (.inl rfl)
    · exact .fails _
  · rcases repackPad_cases s with ⟨-, e⟩ | ⟨-, -, e⟩ | ⟨-, -, -, e⟩ | ⟨-, -, -, e⟩ <;> rw [e]
    · exact .goto (.inl rfl) (by simp)
    · exact .fails _
    · exact .goesOn _ _ _ _ _ _ _ (.inr ⟨_, _, _, rfl⟩) (by simp [hp]) (.inl rfl)
    · exact .fails _

/-! The remap phases, for both commands. -/

theorem remapBegin_step (cmd : Instr) (s : State) : RemapStep cmd s (remapBegin s) :=
  .goesOn s.mem _ _ _ _ (.inl rfl) (by simp)

theorem remapCheck_step (cmd : Instr) (s : State) : RemapStep cmd s (remapCheck s) := by
  rcases remapCheck_cases s with ⟨-, e⟩ | ⟨-, e⟩ <;> rw [e]
  · exact .succeeds
  · exact .goesOn s.mem _ _ _ _ (.inl rfl) (by simp)

theorem remapReadIndex_step (cmd : Instr) (w : Width) (s : State) :
    RemapStep cmd s (remapReadIndex cmd w s) := by
  rcases remapReadIndex_cases cmd w s with ⟨-, e⟩ | ⟨-, e⟩ <;> rw [e]
  · exact .goesOn s.mem _ _ _ _ (.inl rfl) (by simp)
  · exact .fails _

theorem remapReadTable_step (cmd : Instr) (s : State) : RemapStep cmd s (remapReadTable cmd s) := by
  rcases remapReadTable_cases cmd s with ⟨-, e⟩ | ⟨-, e⟩ <;> rw [e]
  · exact .goesOn s.mem _ _ _ _ (.inl rfl) (by simp)
  · exact .fails _

theorem remapWriteIndex_step (cmd : Instr) (w : Width) (s : State) :
    RemapStep cmd s (remapWriteIndex cmd w s) := by
  rcases remapWriteIndex_cases cmd w s with ⟨-, e⟩ | ⟨-, e⟩ <;> rw [e]
  · exact .goesOn _ _ _ _ _ (.inr ⟨_, _, _, rfl⟩) (by simp)
  · exact .fails _

theorem execRemap32_step {s t : State} (h : execRemap32 s = .next t) : RemapStep .remap32 s t := by
  rcases execRemap32_next h with ⟨-, rfl⟩ | ⟨-, rfl⟩ | ⟨-, rfl⟩ | ⟨-, rfl⟩ | ⟨-, rfl⟩
  · rcases remap32Start_cases s with ⟨-, e⟩ | ⟨-, -, e⟩ <;> rw [e]
    · exact .fails _
    · exact remapBegin_step _ s
  · exact remapCheck_step _ s
  · exact remapReadIndex_step _ _ s
  · exact remapReadTable_step _ s
  · exact remapWriteIndex_step _ _ s

theorem execRemapg_step {s t : State} (h : execRemapg s = .next t) : RemapStep .remapg s t := by
  rcases execRemapg_next h with ⟨-, rfl⟩ | ⟨-, rfl⟩ | ⟨w, -, -, rfl⟩ | ⟨-, rfl⟩ | ⟨w, -, -, rfl⟩
  · rcases remapgStart_cases s with ⟨-, e⟩ | ⟨w, -, ⟨-, e⟩ | ⟨-, -, e⟩⟩ <;> rw [e]
    · exact .fails _
    · exact .fails _
    · exact remapBegin_step _ s
  · exact remapCheck_step _ s
  · exact remapReadIndex_step _ _ s
  · exact remapReadTable_step _ s
  · exact remapWriteIndex_step _ _ s

/-! ## The frame of a unit step -/

/-- What a unit step of command `i` from `s` to `t` leaves unchanged, and STATUS when it ends the command. -/
structure StepFrame (i : Instr) (s t : State) : Prop where
  outside : onlyUnitAndMem s t
  mem : keepsOrStores s.mem t.mem
  base : t.unit.base = s.unit.base
  args : t.unit.args = s.unit.args
  lopc : t.unit.lopc = s.unit.lopc
  latch : t.unit.latch = s.unit.latch
  lbs : t.unit.lbs = s.unit.lbs
  cmdLost : t.unit.status.cmdLost = s.unit.status.cmdLost
  goesOn : t.unit.phase ≠ .idle → t.unit.status = s.unit.status ∧ t.unit.result = s.unit.result
  ends : t.unit.phase = .idle →
    t.unit.status = s.unit.status.completed ∨ ∃ e, t.unit.status = s.unit.status.failed e
  blockSize : i ≠ .setbs → t.unit.blockSize = s.unit.blockSize
  repackOnly : i ≠ .repack → t.unit.result = s.unit.result ∧ t.unit.anchor = s.unit.anchor ∧
    t.unit.p = s.unit.p ∧ t.unit.b = s.unit.b ∧ t.unit.v = s.unit.v
  remapOnly : i = .setbs ∨ i = .repack → t.unit.iv = s.unit.iv ∧ t.unit.tv = s.unit.tv
  notSetbs : i = .setbs → t.unit.i = s.unit.i ∧ t.mem = s.mem

/-- Only REPACK's failure writes RESULT (60_exceptions.md R206). -/
theorem failureResult_of_ne_repack {i : Instr} (h : i ≠ .repack) (old : Word) :
    failureResult (some i) old = old := by
  cases i with
  | repack => exact absurd rfl h
  | setbs | remap32 | remapg => rfl

theorem raiseError_frame (i : Instr) (e : Error) (s : State) :
    StepFrame i s (raiseError (some i) e s) :=
  ⟨rfl, .inl rfl, rfl, rfl, rfl, rfl, rfl, rfl, fun h => absurd rfl h, fun _ => .inr ⟨e, rfl⟩, fun _ => rfl,
    fun h => ⟨failureResult_of_ne_repack h _, rfl, rfl, rfl, rfl⟩, fun _ => ⟨rfl, rfl⟩,
    fun _ => ⟨rfl, rfl⟩⟩

theorem execSetbs_frame {s t : State} (h : execSetbs s = .next t) : StepFrame .setbs s t := by
  rcases execSetbs_next h with ⟨-, rfl⟩ | ⟨-, rfl⟩
  · exact ⟨rfl, .inl rfl, rfl, rfl, rfl, rfl, rfl, rfl, fun _ => ⟨rfl, rfl⟩, nofun,
      fun h => absurd rfl h, fun _ => ⟨rfl, rfl, rfl, rfl, rfl⟩, fun _ => ⟨rfl, rfl⟩, fun _ => ⟨rfl, rfl⟩⟩
  · exact ⟨rfl, .inl rfl, rfl, rfl, rfl, rfl, rfl, rfl, fun h => absurd rfl h, fun _ => .inl rfl,
      fun h => absurd rfl h, fun _ => ⟨rfl, rfl, rfl, rfl, rfl⟩, fun _ => ⟨rfl, rfl⟩, fun _ => ⟨rfl, rfl⟩⟩

theorem RepackStep.frame {s t : State} (h : RepackStep s t) : StepFrame .repack s t := by
  cases h with
  | goesOn m i p b v a ph hm hph ha =>
    exact ⟨rfl, hm, rfl, rfl, rfl, rfl, rfl, rfl, fun _ => ⟨rfl, rfl⟩, fun h => absurd h hph, fun _ => rfl,
      fun h => absurd rfl h, fun _ => ⟨rfl, rfl⟩, nofun⟩
  | succeeds hph =>
    exact ⟨rfl, .inl rfl, rfl, rfl, rfl, rfl, rfl, rfl, fun h => absurd rfl h, fun _ => .inl rfl, fun _ => rfl,
      fun h => absurd rfl h, fun _ => ⟨rfl, rfl⟩, nofun⟩
  | fails e => exact raiseError_frame .repack e s

theorem RemapStep.frame {cmd : Instr} {s t : State} (hc : cmd ≠ .setbs ∧ cmd ≠ .repack)
    (h : RemapStep cmd s t) : StepFrame cmd s t := by
  have hr : ¬(cmd = .setbs ∨ cmd = .repack) := not_or.mpr hc
  cases h with
  | goesOn m i iv tv ph hm hph =>
    exact ⟨rfl, hm, rfl, rfl, rfl, rfl, rfl, rfl, fun _ => ⟨rfl, rfl⟩, fun h => absurd h hph, fun _ => rfl,
      fun _ => ⟨rfl, rfl, rfl, rfl, rfl⟩, fun h => absurd h hr, fun h => absurd h hc.1⟩
  | succeeds =>
    exact ⟨rfl, .inl rfl, rfl, rfl, rfl, rfl, rfl, rfl, fun h => absurd rfl h, fun _ => .inl rfl, fun _ => rfl,
      fun _ => ⟨rfl, rfl, rfl, rfl, rfl⟩, fun _ => ⟨rfl, rfl⟩, fun h => absurd h hc.1⟩
  | fails e => exact raiseError_frame cmd e s

theorem exec_frame {i : Instr} {s t : State} (h : exec i s = .next t) : StepFrame i s t := by
  cases i with
  | setbs => exact execSetbs_frame h
  | repack => exact (execRepack_step h).frame
  | remap32 => exact (execRemap32_step h).frame (by decide)
  | remapg => exact (execRemapg_step h).frame (by decide)

/-- Settles O24: the frame of each command's step, read off the ways it can leave the machine. -/
theorem unitStepFrame : Obligations.UnitStepFrame := by
  intro i s t h
  obtain ⟨h1, -, h2, h3, h4, h5, h6, h7, h8, -, h9, h10, h11, h12⟩ := exec_frame h
  exact ⟨h1, h2, h3, h4, h5, h6, h7, h8, h9, h10, h11, h12⟩

/-- A step of the unit changes nothing outside the unit and memory, and neither UNIT_BASE nor an ARG
register. -/
theorem unitStep_outside {s t : State} (h : unitStep s = .next t) :
    onlyUnitAndMem s t ∧ t.unit.base = s.unit.base ∧ t.unit.args = s.unit.args := by
  rcases unitStep_next h with ⟨-, rfl⟩ | ⟨-, i, -, hi⟩ | ⟨-, -, -, rfl⟩
  · exact ⟨rfl, rfl, rfl⟩
  · exact ⟨(exec_frame hi).outside, (exec_frame hi).base, (exec_frame hi).args⟩
  · exact ⟨rfl, rfl, rfl⟩

/-! ## What a unit step does not read -/

/-- The unit with other ARG registers and another CMD_LOST: what a host write while BUSY can change
(10_state.md R23, R30). -/
def Dqba.mapHost (g : Vector Word 7 → Vector Word 7) (c : Bool → Bool) (u : Dqba) : Dqba :=
  { u with args := g u.args, status := { u.status with cmdLost := c u.status.cmdLost } }

/-- The machine with other ARG registers and another CMD_LOST in the unit, and other units beside it. -/
def State.mapUnread (g : Vector Word 7 → Vector Word 7) (c : Bool → Bool) (o : List Dqba → List Dqba)
    (s : State) : State :=
  { s with unit := s.unit.mapHost g c, others := o s.others }

section Unread

variable (g : Vector Word 7 → Vector Word 7) (c : Bool → Bool) (o : List Dqba → List Dqba)

theorem execSetbs_mapUnread (s : State) :
    execSetbs (s.mapUnread g c o) = mapNext (State.mapUnread g c o) (execSetbs s) := by
  have hp : (s.mapUnread g c o).unit.phase = s.unit.phase := rfl
  unfold execSetbs
  rw [hp]
  cases s.unit.phase <;> rfl

theorem execRepack_mapUnread (s : State) :
    execRepack (s.mapUnread g c o) = mapNext (State.mapUnread g c o) (execRepack s) := by
  have hp : (s.mapUnread g c o).unit.phase = s.unit.phase := rfl
  unfold execRepack
  rw [hp]
  cases s.unit.phase with
  | decode | rpCheck | rpRead | rpBlock | rpAnchor | rpEval | rpPack | rpRemap | rpPad =>
    refine congrArg Host.Outcome.next ?_
    simp only [repackStart, repackCheck, repackRead, repackBlock, repackAnchor, repackEval, repackPack,
      repackRemap, repackPad, portRead, portWrite, apply_ite (State.mapUnread g c o)]
    rfl
  | idle | sbWrite | rmCheck | rmRdIdx | rmRdTbl | rmWrIdx => rfl

theorem execRemap32_mapUnread (s : State) :
    execRemap32 (s.mapUnread g c o) = mapNext (State.mapUnread g c o) (execRemap32 s) := by
  have hp : (s.mapUnread g c o).unit.phase = s.unit.phase := rfl
  unfold execRemap32
  rw [hp]
  cases s.unit.phase with
  | decode | rmCheck | rmRdIdx | rmRdTbl | rmWrIdx =>
    refine congrArg Host.Outcome.next ?_
    simp only [remap32Start, remapCheck, remapReadIndex, remapReadTable, remapWriteIndex, portRead,
      portWrite, apply_ite (State.mapUnread g c o)]
    rfl
  | idle | sbWrite | rpCheck | rpRead | rpBlock | rpAnchor | rpEval | rpPack | rpRemap | rpPad => rfl

/-- The stride is a latch, so the two machines select the same element width. -/
theorem execRemapg_mapUnread (s : State) :
    execRemapg (s.mapUnread g c o) = mapNext (State.mapUnread g c o) (execRemapg s) := by
  have hp : (s.mapUnread g c o).unit.phase = s.unit.phase := rfl
  have hw : (s.mapUnread g c o).unit.rmStride = s.unit.rmStride := rfl
  unfold execRemapg atStride remapgStart
  rw [hp, hw]
  cases s.unit.phase with
  | decode | rmCheck | rmRdIdx | rmRdTbl | rmWrIdx =>
    cases strideWidth s.unit.rmStride <;>
    · simp only [remapCheck, remapReadIndex, remapReadTable, remapWriteIndex, portRead, portWrite,
        mapNext_next, apply_ite (State.mapUnread g c o)]
      rfl
  | idle | sbWrite | rpCheck | rpRead | rpBlock | rpAnchor | rpEval | rpPack | rpRemap | rpPad => rfl

theorem exec_mapUnread (i : Instr) (s : State) :
    exec i (s.mapUnread g c o) = mapNext (State.mapUnread g c o) (exec i s) := by
  cases i with
  | setbs => exact execSetbs_mapUnread g c o s
  | repack => exact execRepack_mapUnread g c o s
  | remap32 => exact execRemap32_mapUnread g c o s
  | remapg => exact execRemapg_mapUnread g c o s

/-- A unit step neither reads nor writes the ARG registers, CMD_LOST and the other units: with other
values there it is the same step with those values. -/
theorem unitStep_mapUnread (s : State) :
    unitStep (s.mapUnread g c o) = mapNext (State.mapUnread g c o) (unitStep s) := by
  have hb : (s.mapUnread g c o).unit.status.busy = s.unit.status.busy := rfl
  have hd : (s.mapUnread g c o).unit.lopc = s.unit.lopc := rfl
  unfold unitStep
  rw [hb, hd, apply_ite (mapNext (State.mapUnread g c o))]
  cases decode s.unit.lopc with
  | ok i => simp only [exec_mapUnread]; rfl
  | error e => simp only [apply_ite (mapNext (State.mapUnread g c o))]; rfl

end Unread

end Sys2Proof.Machine

namespace Sys2Proof.Machine
/-! ## The register window -/

/-- The window maps each register's offset to it and no other offset to any (10_state.md R20, R22). -/
theorem regAt_eq_some_iff {off : Nat} {r : Reg} : regAt off = some r ↔ off = r.offset := by
  constructor
  · intro h
    unfold regAt at h
    split at h <;> cases h <;> rfl
  · rintro rfl
    cases r with
    | arg k => fin_cases k <;> rfl
    | cmd | status | result | blockSize | anchorXY | anchorZ => rfl

@[simp] theorem regAt_offset (r : Reg) : regAt r.offset = some r := regAt_eq_some_iff.mpr rfl

/-- No register stands at an offset that is no multiple of 4. -/
theorem regAt_of_unaligned {off : Nat} (h : off % 4 ≠ 0) : regAt off = none := by
  refine Option.eq_none_iff_forall_ne_some.mpr fun r hr => h ?_
  rw [regAt_eq_some_iff.mp hr]
  cases r with
  | arg k => simp only [Reg.offset]; omega
  | cmd | status | result | blockSize | anchorXY | anchorZ => rfl

theorem Dqba.windowRead_reg {u : Dqba} {off : Nat} {r : Reg} (h : regAt off = some r) :
    u.windowRead off 4 = u.readReg r := by
  simp [Dqba.windowRead, h]

theorem Dqba.windowWrite_reg {u : Dqba} {off : Nat} {r : Reg} (h : regAt off = some r) (v : Word) :
    u.windowWrite off 4 v = u.writeReg r v := by
  simp [Dqba.windowWrite, h]

/-- An access of another width, or where no register stands, has no effect (R21, R22). -/
theorem Dqba.window_of_no_register (u : Dqba) {off bytes : Nat} (h : bytes ≠ 4 ∨ regAt off = none)
    (v : Word) : u.windowRead off bytes = 0#32 ∧ u.windowWrite off bytes v = u := by
  unfold Dqba.windowRead Dqba.windowWrite
  by_cases hb : bytes = 4
  · simp [hb, h.resolve_left (not_not_intro hb)]
  · simp [hb]

theorem Dqba.windowRead_arg (u : Dqba) (k : Fin 7) :
    u.windowRead (0x10 + 4 * k) 4 = u.args[k] :=
  Dqba.windowRead_reg (regAt_offset (.arg k))

theorem Dqba.windowWrite_arg (u : Dqba) (k : Fin 7) (v : Word) :
    u.windowWrite (0x10 + 4 * k) 4 v = { u with args := u.args.set k v } :=
  Dqba.windowWrite_reg (regAt_offset (.arg k)) v

theorem Dqba.windowWrite_cmd (u : Dqba) (v : Word) : u.windowWrite 0x00 4 v = u.writeCmd v := rfl

/-- A host register read changes nothing but the record of reads. -/
theorem State.busRead_eq (s : State) (a : Word) (bytes : Nat) :
    s.busRead a bytes = { s with reads := (s.busRead a bytes).reads } := by
  rcases s.busRead_cases a bytes with h | ⟨v, h⟩
  · rw [h]
  · rw [h]; rfl

/-- Settles O10: the window's ARG offsets read and write `args`, and no unit step reads or writes it. -/
theorem argRegistersBelongToTheHost : Obligations.ArgRegistersBelongToTheHost := by
  refine ⟨fun u k v => ⟨?_, fun j hj => ?_, u.windowWrite_arg k v⟩, fun k => ?_, fun s t h => ?_,
    fun u w h => ?_, fun s as => ?_⟩
  · rw [u.windowWrite_arg, Dqba.windowRead_arg]
    simp
  · have hne : (k : Nat) ≠ j := fun h => hj (Fin.ext h.symm)
    rw [u.windowWrite_arg, Dqba.windowRead_arg, Dqba.windowRead_arg]
    simp [Vector.getElem_set_ne, hne]
  · rw [Dqba.windowRead_arg]
    simp [State.reset, Dqba.afterReset]
  · obtain ⟨-, -, hargs⟩ := unitStep_outside h
    exact hargs
  · rw [u.windowWrite_cmd, Dqba.writeCmd_idle h, Dqba.accept_latch]
  · exact unitStep_mapUnread (fun _ => as) id id s

/-- Settles O4: either way the turn is the unit's, and a busy unit takes its command's step. -/
theorem stepRunsTheDecodedCommand : Obligations.StepRunsTheDecodedCommand := by
  intro s i hb hd
  refine ⟨fun ht => ?_, fun rest ht => ?_⟩
  · rw [step_eq_nextTurn, nextTurn_of_busy ht hb, ht]
    have hs : s.withTurns [] = s := by rw [← ht]; rfl
    exact (congrArg unitStep hs).trans (unitStep_busy hb hd)
  · unfold step machineStep
    rw [ht]
    exact unitStep_busy (s := s.withTurns rest) hb hd

/-- Settles O6: no register stands at an unaligned offset, and a read-only one ignores the write. -/
theorem registerPortAcceptsOnlyAlignedWords : Obligations.RegisterPortAcceptsOnlyAlignedWords := by
  refine ⟨fun u off bytes v h => u.window_of_no_register (h.imp_right regAt_of_unaligned) v,
    fun u off v h => ?_, fun u => rfl, fun s u off bytes _ _ => s.busRead_eq _ bytes⟩
  obtain rfl | rfl | rfl | rfl | rfl := h <;> rfl

/-- Settles O7: no register stands at a reserved offset. -/
theorem reservedOffsetsReadZeroAndIgnoreWrites : Obligations.ReservedOffsetsReadZeroAndIgnoreWrites := by
  intro u off bytes v h
  have hr : regAt off = none := by obtain rfl | rfl | rfl := h <;> rfl
  exact u.window_of_no_register (.inr hr) v

/-- Where each field of STATUS stands in its word (10_state.md R24). -/
theorem Status.getLsbD_word (st : Status) (j : Nat) :
    st.word.getLsbD j =
      if j = 0 then st.busy else if j = 1 then st.done else if j = 2 then st.err
      else if j = 3 then st.cmdLost else decide (8 ≤ j) && st.errcode.getLsbD (j - 8) := by
  simp only [Status.word, BitVec.getLsbD_or, BitVec.getLsbD_shiftLeft, BitVec.getLsbD_setWidth,
    BitVec.getLsbD_ofBool]
  by_cases h : j < 12
  · interval_cases j <;> simp
  · have h8 : st.errcode.getLsbD (j - 8) = false := BitVec.getLsbD_of_ge _ _ (by omega)
    have hn : j ≠ 0 ∧ j ≠ 1 ∧ j ≠ 2 ∧ j ≠ 3 ∧ j - 1 ≠ 0 ∧ j - 2 ≠ 0 ∧ j - 3 ≠ 0 := by omega
    simp [h8, hn]

/-- Settles O8: every clause is about some bits of STATUS's word. -/
theorem statusWordHoldsItsFields : Obligations.StatusWordHoldsItsFields := by
  intro u
  have hw : u.windowRead 0x04 4 = u.status.word := rfl
  rw [hw]
  refine ⟨?_, ?_, ?_, ?_, ?_, ?_, ?_, rfl, rfl⟩
  · exact u.status.getLsbD_word 0
  · exact u.status.getLsbD_word 1
  · exact u.status.getLsbD_word 2
  · exact u.status.getLsbD_word 3
  · refine BitVec.eq_of_getLsbD_eq fun j hj => ?_
    rw [BitVec.getLsbD_extractLsb', Status.getLsbD_word]
    interval_cases j <;> simp
  · refine BitVec.eq_of_getLsbD_eq fun j hj => ?_
    rw [BitVec.getLsbD_extractLsb', Status.getLsbD_word]
    interval_cases j <;> simp
  · refine BitVec.eq_of_getLsbD_eq fun j hj => ?_
    have h8 : u.status.errcode.getLsbD (12 + j - 8) = false := BitVec.getLsbD_of_ge _ _ (by omega)
    have hn : 12 + j ≠ 0 ∧ 12 + j ≠ 1 ∧ 12 + j ≠ 2 ∧ 12 + j ≠ 3 := by omega
    simp [Status.getLsbD_word, h8, hn]

/-- Two components in one register: the second above the first. -/
theorem shiftLeft_or_eq_append (y x : Half) : y.setWidth 32 <<< 16 ||| x.setWidth 32 = y ++ x := by
  rw [BitVec.append_def, BitVec.shiftLeftZeroExtend_eq, BitVec.setWidth'_eq]

/-- Settles O11: each register read is a concatenation of two 16-bit parts. -/
theorem anchorRegistersShowTheAnchor : Obligations.AnchorRegistersShowTheAnchor := by
  intro u v
  have hxy : u.windowRead 0x2C 4 = u.anchor.y ++ u.anchor.x := shiftLeft_or_eq_append _ _
  have hz : u.windowRead 0x30 4 = 0#16 ++ u.anchor.z := 
    BitVec.setWidth_eq_append (x := u.anchor.z) (w := 32) (by decide)
  rw [hxy, hz]
  exact ⟨BitVec.extractLsb'_append_eq_right, BitVec.extractLsb'_append_eq_left,
    BitVec.extractLsb'_append_eq_right, BitVec.extractLsb'_append_eq_left, rfl, rfl⟩

/-- Settles O9: CMD is written by `writeCmd`, and an accepted word makes the unit busy with it. -/
theorem cmdWriteIsAcceptedOrDropped : Obligations.CmdWriteIsAcceptedOrDropped := by
  refine fun u w => ⟨fun h => ?_, fun h => ?_, rfl, fun s i h hd => ?_⟩
  · exact Dqba.writeCmd_idle h w
  · exact Dqba.writeCmd_busy h w
  · have hu : u.windowWrite 0x00 4 w = u.accept w := Dqba.writeCmd_idle h w
    rw [hu]
    exact unitStep_busy rfl hd

/-- An address 0x40 or more above UNIT_BASE lies outside the window. -/
theorem Dqba.offsetOf_outside {u : Dqba} {a : Word} (h : 0x40 ≤ (a - u.base).toNat) :
    u.offsetOf a = none :=
  if_neg (Nat.not_lt.mpr h)

/-- Settles O13: the window is the offsets below 0x40 from UNIT_BASE. -/
theorem hostAddressesReachTheWindow : Obligations.HostAddressesReachTheWindow := by
  refine ⟨fun s off bytes v h => ⟨?_, ?_⟩, fun s off hb h => ?_, fun s a bytes v h => ?_,
    fun s a bytes => s.busRead_eq a bytes⟩
  · simp only [hostAct, State.busWrite, s.unit.offsetOf_window h]
    rfl
  · simp only [hostAct, State.busRead, readWindows, s.unit.offsetOf_window h]
    rfl
  · have := s.unit.base.isLt
    rw [BitVec.toNat_add, BitVec.toNat_ofNat]
    omega
  · simp only [hostAct, State.busWrite, Dqba.offsetOf_outside h]
    exact ⟨rfl, rfl⟩

/-- Settles O43: the laws of runs of bytes, at the host's address. -/
theorem hostMemoryAccessesMoveBytes : Obligations.HostMemoryAccessesMoveBytes := by
  intro s a vs hlen
  refine ⟨rfl, fun j h => Memory.readByte_writeBytes_of_inside s.mem a.toNat vs hlen j h,
    fun x hx => Memory.readByte_writeBytes_of_outside s.mem a.toNat x vs fun j hj he => hx ⟨j, hj, he⟩, ?_⟩
  have hr := Memory.readBytes_writeBytes s.mem a.toNat vs hlen
  simp only [hostAct, State.withMem_mem, hr]
  rfl

/-- Settles O40: the reset values, register by register. -/
theorem resetLeavesTheSpecifiedValues : Obligations.ResetLeavesTheSpecifiedValues := by
  refine ⟨rfl, by decide, rfl, fun k => ?_, rfl, rfl⟩
  simp [State.reset, Dqba.afterReset]
end Sys2Proof.Machine

namespace Sys2Proof.Machine
/-! ## The decoder and the turns of the agents -/

/-- A word whose RSV field is 0 is its OPC field (30_encoding.md R90). -/
theorem eq_opcField_of_rsvClear {w : Word} (h : rsvField w = 0#24) : w = (opcField w).setWidth 32 := by
  have hr := congrArg BitVec.toNat h
  refine BitVec.eq_of_toNat_eq ?_
  simp only [rsvField, opcField, BitVec.extractLsb'_toNat, Nat.shiftRight_eq_div_pow, BitVec.toNat_ofNat,
    BitVec.toNat_setWidth] at hr ⊢
  omega

theorem eq_opcOf_of_instrOfOpc {c : BitVec 8} {i : Instr} (h : instrOfOpc c = some i) : c = opcOf i := by
  unfold instrOfOpc at h
  split_ifs at h with h1 h2 h3 h4 <;> cases h <;> assumption

/-- A word that decodes to a command is that command's word (30_encoding.md R93). -/
theorem eq_encode_of_decode {w : Word} {i : Instr} (h : decode w = .ok i) : w = encode i := by
  unfold decode at h
  split_ifs at h with hr
  split at h <;> cases h
  rename_i hi
  rw [encode, ← eq_opcOf_of_instrOfOpc hi, ← eq_opcField_of_rsvClear hr]

/-- A step of another unit is the unit's step in its place, with the unit itself left as it was
(60_exceptions.md R219). -/
theorem stepUnit_succ_of_getElem {s : State} {k : Nat} {u : Dqba} (h : s.others[k]? = some u) :
    stepUnit (k + 1) s =
      mapNext (fun t => { s with others := s.others.set k t.unit, mem := t.mem })
        (unitStep (s.withUnit u)) := by
  obtain ⟨hk, hu⟩ := List.getElem?_eq_some_iff.mp h
  have hswap : s.swapWith k = (s.withUnit u).mapUnread id id (fun os => os.set k s.unit) :=
    State.swapWith_of_getElem h
  simp only [stepUnit, if_pos hk]
  rw [hswap, unitStep_mapUnread]
  cases ht : unitStep (s.withUnit u) with
  | fault r => rfl
  | refused r => rfl
  | next t =>
    obtain ⟨hout, -, -⟩ := unitStep_outside ht
    have hget : (t.mapUnread id id fun os => os.set k s.unit).others[k]? = some s.unit := by
      rw [hout]
      exact List.getElem?_set_self hk
    simp only [mapNext_next, State.swapWith_of_getElem hget]
    rw [hout]
    simp [State.mapUnread, Dqba.mapHost]

/-- A number that names no unit takes no step. -/
theorem stepUnit_succ_of_none {s : State} {k : Nat} (h : s.others[k]? = none) :
    stepUnit (k + 1) s = .next s := by
  have hk : ¬ k < s.others.length := by simpa using h
  simp only [stepUnit, if_neg hk]

/-- A next state of a unit's turn: the unit's own step, nothing where the number names none, or the
step of another unit. -/
theorem stepUnit_next {k : Nat} {s t : State} (h : stepUnit k s = .next t) :
    unitStep s = .next t ∨ t = s ∨
    ∃ j u v, s.others[j]? = some u ∧ unitStep (s.withUnit u) = .next v ∧
      t = { s with others := s.others.set j v.unit, mem := v.mem } := by
  cases k with
  | zero => exact .inl h
  | succ j =>
    cases hu : s.others[j]? with
    | none =>
      rw [stepUnit_succ_of_none hu] at h
      cases h
      exact .inr (.inl rfl)
    | some u =>
      rw [stepUnit_succ_of_getElem hu, mapNext_eq_next_iff] at h
      obtain ⟨v, hv, rfl⟩ := h
      exact .inr (.inr ⟨j, u, v, hu, hv, rfl⟩)

/-- A step of the machine changes nothing or is the turn of the agent that is next. -/
theorem step_nextTurn {s t : State} (h : step s = .next t) :
    t = s ∨ ∃ tr, s.nextTurn = some tr ∧ takeTurn tr (s.withTurns s.turns.tail) = .next t := by
  rw [step_eq_nextTurn] at h
  cases hn : s.nextTurn with
  | none =>
    rw [hn] at h
    cases h
    exact .inl rfl
  | some tr =>
    rw [hn] at h
    exact .inr ⟨tr, rfl, h⟩

/-- With the schedule used up no host action is next (log 6). -/
theorem nextTurn_act {s : State} {a : HostAct} (h : s.nextTurn = some (.act a)) :
    ∃ rest, s.turns = .act a :: rest := by
  unfold State.nextTurn at h
  split at h
  · cases h
    exact ⟨_, ‹_›⟩
  · unfold defaultTurn at h
    cases hb : s.unit.status.busy with
    | true => simp [hb] at h
    | false =>
      simp only [hb, Bool.false_eq_true, if_false] at h
      split at h
      · cases h
      · split_ifs at h
        cases h

/-! ## What the host does to the units -/

/-- A host register write leaves the unit as it was or writes its window. -/
theorem State.busWrite_unit (s : State) (a : Word) (bytes : Nat) (v : Word) :
    (s.busWrite a bytes v).unit = s.unit ∨
      ∃ off, (s.busWrite a bytes v).unit = s.unit.windowWrite off bytes v := by
  rcases s.busWrite_cases a bytes v with ⟨off, -, e⟩ | ⟨-, e⟩ <;> rw [e]
  · exact .inr ⟨off, rfl⟩
  · exact .inl rfl

@[simp] theorem State.busRead_unit (s : State) (a : Word) (bytes : Nat) :
    (s.busRead a bytes).unit = s.unit := by
  rw [State.busRead_eq]

/-- A program operation leaves the unit as it was or writes its window. -/
theorem hostOp_unit (op : HostOp) (s : State) :
    (hostOp op s).unit = s.unit ∨ ∃ off bytes v, (hostOp op s).unit = s.unit.windowWrite off bytes v := by
  cases op with
  | wr off v => exact (s.busWrite_unit _ 4 v).imp_right fun ⟨off, e⟩ => ⟨off, 4, v, e⟩
  | rd off => exact .inl (s.busRead_unit _ 4)
  | bit off n target =>
    refine .inl ?_
    simp only [hostOp]
    split_ifs <;> rfl

/-- A host action leaves the unit as it was, writes its window, or is its reset. -/
theorem hostAct_unit (a : HostAct) (s : State) :
    (hostAct a s).unit = s.unit ∨
      (∃ off bytes v, (hostAct a s).unit = s.unit.windowWrite off bytes v) ∨ a = .reset 0 := by
  cases a with
  | regRead addr bytes => exact .inl (s.busRead_unit addr bytes)
  | regWrite addr bytes v =>
    exact (s.busWrite_unit addr bytes v).imp_right fun ⟨off, e⟩ => .inl ⟨off, bytes, v, e⟩
  | memRead addr n => exact .inl rfl
  | memWrite addr vs => exact .inl rfl
  | reset k =>
    cases k with
    | zero => exact .inr (.inr rfl)
    | succ k => exact .inl rfl

/-- A turn other than the unit's reset: the unit's own step, a write of its window, or one that leaves it as it
was. -/
theorem takeTurn_unit {tr : Turn} {s t : State} (h : takeTurn tr s = .next t) (hr : tr ≠ .act (.reset 0)) :
    unitStep s = .next t ∨ t.unit = s.unit ∨ ∃ off bytes v, t.unit = s.unit.windowWrite off bytes v := by
  cases tr with
  | unit k =>
    rcases stepUnit_next h with h | rfl | ⟨j, u, v, -, -, rfl⟩
    · exact .inl h
    · exact .inr (.inl rfl)
    · exact .inr (.inl rfl)
  | program =>
    rcases hostLine_next h with ⟨-, rfl⟩ | ⟨op, -, -, rfl⟩
    · exact .inr (.inl rfl)
    · exact .inr (hostOp_unit op s)
  | act a =>
    cases h
    rcases hostAct_unit a s with e | e | rfl
    · exact .inr (.inl e)
    · exact .inr (.inr e)
    · exact absurd rfl hr

/-! ## Who writes RESULT, BLOCK_SIZE and ANCHOR -/

/-- A CMD write and an ARG write leave RESULT, BLOCK_SIZE and ANCHOR alone (10_state.md R21, R23). -/
theorem Dqba.windowWrite_outputs (u : Dqba) (off bytes : Nat) (v : Word) :
    (u.windowWrite off bytes v).result = u.result ∧ (u.windowWrite off bytes v).blockSize = u.blockSize ∧
      (u.windowWrite off bytes v).anchor = u.anchor := by
  rcases u.windowWrite_cases off bytes v with e | ⟨k, -, -, e⟩ | ⟨-, -, e⟩
  · rw [e]; exact ⟨rfl, rfl, rfl⟩
  · rw [e]; exact ⟨rfl, rfl, rfl⟩
  · rw [e]
    cases hb : u.status.busy with
    | false => rw [Dqba.writeCmd_idle hb]; exact ⟨rfl, rfl, rfl⟩
    | true => rw [Dqba.writeCmd_busy hb]; exact ⟨rfl, rfl, rfl⟩

/-- What a step may do to RESULT, BLOCK_SIZE and ANCHOR (10_state.md R27, R29, R40). -/
def WritesItsRegisters (s t : State) : Prop :=
  (t.unit.result ≠ s.unit.result →
    s.unit.status.busy = true ∧ s.unit.lopc = encode .repack ∧ t.unit.phase = .idle ∧
      (t.unit.status.err = false → s.unit.phase = .rpCheck ∧ t.unit.result = s.unit.p) ∧
      (t.unit.status.err = true → t.unit.result = 0xFFFFFFFF#32)) ∧
  (t.unit.blockSize ≠ s.unit.blockSize →
    s.unit.status.busy = true ∧ s.unit.lopc = encode .setbs ∧ s.unit.phase = .sbWrite ∧
      t.unit.blockSize = s.unit.latch[0]) ∧
  (t.unit.anchor ≠ s.unit.anchor →
    s.unit.status.busy = true ∧ s.unit.lopc = encode .repack ∧ s.unit.phase = .rpBlock ∧
      s.unit.p.toNat % s.unit.lbs.toNat = 0 ∧ t.unit.anchor = s.unit.v)

theorem writesItsRegisters_of_same {s t : State} (hr : t.unit.result = s.unit.result)
    (hb : t.unit.blockSize = s.unit.blockSize) (ha : t.unit.anchor = s.unit.anchor) :
    WritesItsRegisters s t :=
  ⟨fun h => absurd hr h, fun h => absurd hb h, fun h => absurd ha h⟩

theorem RepackStep.writesItsRegisters {s t : State} (hb : s.unit.status.busy = true)
    (hc : s.unit.lopc = encode .repack) (h : RepackStep s t) : WritesItsRegisters s t := by
  cases h with
  | goesOn m i p b v a ph hm hph ha =>
    refine ⟨fun h => absurd rfl h, fun h => absurd rfl h, fun h => ?_⟩
    obtain ⟨h1, h2, h3⟩ := ha.resolve_left h
    exact ⟨hb, hc, h1, h2, h3⟩
  | succeeds hph =>
    exact ⟨fun _ => ⟨hb, hc, rfl, fun _ => ⟨hph, rfl⟩, nofun⟩, fun h => absurd rfl h, fun h => absurd rfl h⟩
  | fails e =>
    exact ⟨fun _ => ⟨hb, hc, rfl, nofun, fun _ => rfl⟩, fun h => absurd rfl h, fun h => absurd rfl h⟩

theorem execSetbs_writesItsRegisters {s t : State} (hb : s.unit.status.busy = true)
    (hc : s.unit.lopc = encode .setbs) (h : execSetbs s = .next t) : WritesItsRegisters s t := by
  rcases execSetbs_next h with ⟨-, rfl⟩ | ⟨hp, rfl⟩
  · exact writesItsRegisters_of_same rfl rfl rfl
  · exact ⟨fun h => absurd rfl h, fun _ => ⟨hb, hc, hp, rfl⟩, fun h => absurd rfl h⟩

theorem unitStep_writesItsRegisters {s t : State} (h : unitStep s = .next t) : WritesItsRegisters s t := by
  rcases unitStep_next h with ⟨-, rfl⟩ | ⟨hb, i, hd, hi⟩ | ⟨-, -, -, rfl⟩
  · exact writesItsRegisters_of_same rfl rfl rfl
  · have hc := eq_encode_of_decode hd
    have hf := exec_frame hi
    cases i with
    | setbs => exact execSetbs_writesItsRegisters hb hc hi
    | repack => exact (execRepack_step hi).writesItsRegisters hb hc
    | remap32 | remapg =>
      obtain ⟨hr, ha, -⟩ := hf.repackOnly (by decide)
      exact writesItsRegisters_of_same hr (hf.blockSize (by decide)) ha
  · exact writesItsRegisters_of_same rfl rfl rfl

/-- Settles O44: of all turns only the unit's own step can change these registers, and there the ways a
command's step leaves the machine say how. -/
theorem onlyTheirCommandsWriteTheRegisters : Obligations.OnlyTheirCommandsWriteTheRegisters := by
  intro s t h hreset
  show WritesItsRegisters s t
  rcases step_nextTurn h with rfl | ⟨tr, htr, ht⟩
  · exact writesItsRegisters_of_same rfl rfl rfl
  have hr : tr ≠ .act (.reset 0) := by
    rintro rfl
    obtain ⟨rest, he⟩ := nextTurn_act htr
    exact hreset rest he
  rcases takeTurn_unit ht hr with h | h | ⟨off, bytes, v, h⟩
  · exact (unitStep_writesItsRegisters h : WritesItsRegisters (s.withTurns _) t)
  · exact writesItsRegisters_of_same (congrArg Dqba.result h) (congrArg Dqba.blockSize h)
      (congrArg Dqba.anchor h)
  · obtain ⟨hr, hb, ha⟩ := s.unit.windowWrite_outputs off bytes v
    refine writesItsRegisters_of_same ?_ ?_ ?_ <;> rw [h]
    · exact hr
    · exact hb
    · exact ha
end Sys2Proof.Machine

namespace Sys2Proof.Machine
/-! ## The invariant: what the phases of REPACK keep -/

theorem Dqba.phaseInv_of_idle {u : Dqba} (h : u.phase = .idle) : u.phaseInv := by
  simp [Dqba.phaseInv, h]

/-- Against itself a vertex overflows on no axis (41_delta_datapath.md R130). -/
theorem ovf_self (v : Vec3) : ovf v v = false := by
  have hd : ∀ c : Half, inRange (delta c c) = true := fun c => by
    simp [delta, sub16s, clamp, inRange, Config.deltaBias, Config.deltaMax]
  simp [ovf, hd]

/-- The block size of a running REPACK is positive. -/
theorem Dqba.lbs_pos {u : Dqba} (h : u.repackRunning) : 0 < u.lbs.toNat := by
  obtain ⟨-, hbs, -⟩ := h
  exact (toNat_of_toInt_pos hbs).1

/-- The block counter and its successor: no wrap below the 2^32 - 1 blocks there can be. -/
theorem toNat_succ_eq_iff {b : Word} {n : Nat} (h : n + 1 < 2 ^ 32) :
    (b + 1#32).toNat = n + 1 ↔ b.toNat = n := by
  have := b.isLt
  rw [BitVec.toNat_add, BitVec.toNat_ofNat]
  omega

/-- The block of a slot below a 32-bit capacity has a successor below 2^32. -/
theorem div_succ_lt {p bs : Nat} {m : Word} (h : p < m.toNat) : p / bs + 1 < 2 ^ 32 := by
  have := m.isLt
  have := Nat.div_le_self p bs
  omega

/-- Inside a block the current block is the one of slot `p`. -/
theorem Dqba.blocksStarted_iff_of_inside {u : Dqba} (hbs : 0 < u.lbs.toNat)
    (hp : u.p.toNat < u.rpMax.toNat) (hin : u.p.toNat % u.lbs.toNat ≠ 0) :
    u.blocksStarted ↔ u.b.toNat = u.p.toNat / u.lbs.toNat := by
  rw [Dqba.blocksStarted, blocksBelow_of_inside hbs hin, toNat_succ_eq_iff (div_succ_lt hp)]

/-- At the check of a vertex no more slots are used than closing a block before each vertex would take
(42_repack.md R155). -/
theorem slots_le_of_check {i p n bs : Nat} (hbs : 0 < bs)
    (h : (i = 0 ∧ p = 0) ∨ (0 < i ∧ p ≤ (i - 1) * bs + 1) ∨ (i < n ∧ p % bs = 0 ∧ p ≤ i * bs)) :
    p ≤ i * bs := by
  rcases h with ⟨rfl, rfl⟩ | ⟨hi, hp⟩ | ⟨-, -, hp⟩
  · simp
  · obtain ⟨j, rfl⟩ : ∃ j, i = j + 1 := ⟨i - 1, by omega⟩
    rw [Nat.add_sub_cancel] at hp
    rw [Nat.succ_mul]
    omega
  · exact hp

theorem repackStart_phaseInv {s : State} (hc : s.unit.lopc = encode .repack) :
    (repackStart s).unit.phaseInv := by
  rcases repackStart_cases s with ⟨-, e⟩ | ⟨-, -, e⟩ | ⟨h0, h1, h2, h3, h4, e⟩ <;> rw [e]
  · exact Dqba.phaseInv_of_idle rfl
  · exact Dqba.phaseInv_of_idle rfl
  · have hblk : (Config.noBlock + 1#32).toNat = blocksBelow (0#32).toNat s.unit.lbs.toNat :=
      ((blocksBelow_of_boundary (toNat_of_toInt_pos h0).1 (Nat.zero_mod _)).trans (Nat.zero_div _)).symm
    exact ⟨⟨hc, h0, h1, h2, h3, h4⟩, hblk, Nat.zero_le _, Nat.zero_le _, le_refl _, .inl ⟨rfl, rfl⟩⟩

theorem repackCheck_phaseInv {s : State} (hp : s.unit.phase = .rpCheck) (h : s.unit.phaseInv) :
    (repackCheck s).unit.phaseInv := by
  simp only [Dqba.phaseInv, hp] at h
  obtain ⟨hrun, hblk, hi, -, hip, hslots⟩ := h
  rcases repackCheck_cases s with ⟨-, e⟩ | ⟨-, -, e⟩ | ⟨hne, hmax, e⟩ <;> rw [e]
  · exact Dqba.phaseInv_of_idle rfl
  · exact Dqba.phaseInv_of_idle rfl
  · have hlt : s.unit.i.toNat < s.unit.count.toNat :=
      lt_of_le_of_ne hi fun h => hne (BitVec.eq_of_toNat_eq h)
    exact ⟨hrun, hblk, hlt, hmax, hip, slots_le_of_check (Dqba.lbs_pos hrun) hslots⟩

theorem repackRead_phaseInv {s : State} {k : Fin 3} (hp : s.unit.phase = .rpRead k)
    (h : s.unit.phaseInv) : (repackRead k s).unit.phaseInv := by
  simp only [Dqba.phaseInv, hp] at h
  rcases repackRead_cases k s with ⟨-, e⟩ | ⟨-, e⟩ <;> rw [e]
  · match k with
    | 0 | 1 | 2 => exact h
  · exact Dqba.phaseInv_of_idle rfl

theorem repackBlock_phaseInv {s : State} (hp : s.unit.phase = .rpBlock) (h : s.unit.phaseInv) :
    (repackBlock s).unit.phaseInv := by
  simp only [Dqba.phaseInv, hp] at h
  obtain ⟨hrun, hblk, hatt⟩ := h
  have hbs := Dqba.lbs_pos hrun
  rcases repackBlock_cases s with ⟨h0, e⟩ | ⟨h0, e⟩ <;> rw [e]
  · exact ⟨hrun, ⟨hatt, hblk.trans (blocksBelow_of_boundary hbs h0), fun _ => rfl⟩, h0⟩
  · have hb := (Dqba.blocksStarted_iff_of_inside hbs hatt.2.1 h0).mp hblk
    exact ⟨hrun, hatt, hb, fun h => absurd h h0⟩

theorem repackAnchor_phaseInv {s : State} {k : Fin 3} (hp : s.unit.phase = .rpAnchor k)
    (h : s.unit.phaseInv) : (repackAnchor k s).unit.phaseInv := by
  simp only [Dqba.phaseInv, hp] at h
  obtain ⟨hrun, hblk, h0⟩ := h
  rcases repackAnchor_cases k s with ⟨-, e⟩ | ⟨-, e⟩ <;> rw [e]
  · match k with
    | 0 | 1 => exact ⟨hrun, hblk, h0⟩
    | 2 => exact ⟨hrun, hblk⟩
  · exact Dqba.phaseInv_of_idle rfl

/-- An overflow happens inside a block only: at its first slot the vertex is the anchor (42_repack.md R154). -/
theorem Dqba.inside_of_ovf {u : Dqba} (h : u.attemptInBlock) (ho : ovf u.v u.anchor = true) :
    u.p.toNat % u.lbs.toNat ≠ 0 := by
  obtain ⟨-, -, hanchor⟩ := h
  intro h0
  rw [hanchor h0, ovf_self] at ho
  cases ho

theorem repackEval_phaseInv {s : State} (hp : s.unit.phase = .rpEval) (h : s.unit.phaseInv) :
    (repackEval s).unit.phaseInv := by
  simp only [Dqba.phaseInv, hp] at h
  obtain ⟨hrun, hin⟩ := h
  rcases repackEval_cases s with ⟨ho, e⟩ | ⟨ho, e⟩ <;> rw [e]
  · have h0 := Dqba.inside_of_ovf hin ho
    obtain ⟨⟨hi, hmax, hip, hslots⟩, hb, -⟩ := hin
    have hblk := (Dqba.blocksStarted_iff_of_inside (Dqba.lbs_pos hrun) hmax h0).mpr hb
    have hpos : 0 < s.unit.p.toNat := Nat.pos_of_ne_zero fun hz => h0 (by rw [hz, Nat.zero_mod])
    exact ⟨hrun, hblk, hi, hmax.le, hip, hpos, hslots, ho⟩
  · exact ⟨hrun, hin, ho⟩

theorem repackPack_phaseInv {s : State} (hp : s.unit.phase = .rpPack) (h : s.unit.phaseInv) :
    (repackPack s).unit.phaseInv := by
  simp only [Dqba.phaseInv, hp] at h
  rcases repackPack_cases s with ⟨-, e⟩ | ⟨-, e⟩ <;> rw [e]
  · exact h
  · exact Dqba.phaseInv_of_idle rfl

theorem repackRemap_phaseInv {s : State} (hp : s.unit.phase = .rpRemap) (h : s.unit.phaseInv) :
    (repackRemap s).unit.phaseInv := by
  simp only [Dqba.phaseInv, hp] at h
  obtain ⟨hrun, ⟨⟨hi, hmax, hip, hslots⟩, hb, -⟩, -⟩ := h
  rcases repackRemap_cases s with ⟨-, e⟩ | ⟨-, e⟩ <;> rw [e]
  · have hi1 := toNat_succ_of_lt hi
    have hp1 := toNat_succ_of_lt hmax
    have hblk : (s.unit.b + 1#32).toNat = blocksBelow (s.unit.p + 1#32).toNat s.unit.lbs.toNat := by
      rw [hp1, blocksBelow_succ (Dqba.lbs_pos hrun), toNat_succ_eq_iff (div_succ_lt hmax), hb]
    have hi' : (s.unit.i + 1#32).toNat ≤ s.unit.count.toNat := by omega
    have hmax' : (s.unit.p + 1#32).toNat ≤ s.unit.rpMax.toNat := by omega
    have hip' : (s.unit.i + 1#32).toNat ≤ (s.unit.p + 1#32).toNat := by omega
    have hslots' : (s.unit.p + 1#32).toNat ≤ ((s.unit.i + 1#32).toNat - 1) * s.unit.lbs.toNat + 1 := by
      rw [hi1, hp1, Nat.add_sub_cancel]
      omega
    have hpos' : 0 < (s.unit.i + 1#32).toNat := by omega
    exact ⟨hrun, hblk, hi', hmax', hip', .inr (.inl ⟨hpos', hslots'⟩)⟩
  · exact Dqba.phaseInv_of_idle rfl

theorem repackPad_phaseInv {s : State} (hp : s.unit.phase = .rpPad) (h : s.unit.phaseInv) :
    (repackPad s).unit.phaseInv := by
  simp only [Dqba.phaseInv, hp] at h
  obtain ⟨hrun, hblk, hi, hle, hip, hpos, hslots, ho⟩ := h
  have hbs := Dqba.lbs_pos hrun
  rcases repackPad_cases s with ⟨h0, e⟩ | ⟨-, -, e⟩ | ⟨h0, hmax, -, e⟩ | ⟨-, -, -, e⟩ <;> rw [e]
  · exact ⟨hrun, hblk, hi.le, hle, hip, .inr (.inr ⟨hi, h0, hslots⟩)⟩
  · exact Dqba.phaseInv_of_idle rfl
  · have hp1 := toNat_succ_of_lt hmax
    have hblk' : (s.unit.b + 1#32).toNat = blocksBelow (s.unit.p + 1#32).toNat s.unit.lbs.toNat := by
      rw [hp1, blocksBelow_succ hbs, ← blocksBelow_of_inside hbs h0]
      exact hblk
    have hne : s.unit.p.toNat ≠ s.unit.i.toNat * s.unit.lbs.toNat := fun h => h0 (by
      rw [h, Nat.mul_mod_left])
    have hmax' : (s.unit.p + 1#32).toNat ≤ s.unit.rpMax.toNat := by omega
    have hip' : s.unit.i.toNat ≤ (s.unit.p + 1#32).toNat := by omega
    have hslots' : (s.unit.p + 1#32).toNat ≤ s.unit.i.toNat * s.unit.lbs.toNat := by omega
    simp only [Dqba.phaseInv, State.withUnit_unit, hp]
    exact ⟨hrun, hblk', hi, hmax', hip', by omega, hslots', ho⟩
  · exact Dqba.phaseInv_of_idle rfl

theorem execRepack_phaseInv {s t : State} (hc : s.unit.lopc = encode .repack) (h : s.unit.phaseInv)
    (ht : execRepack s = .next t) : t.unit.phaseInv := by
  rcases execRepack_next ht with ⟨-, rfl⟩ | ⟨hp, rfl⟩ | ⟨k, hp, rfl⟩ | ⟨hp, rfl⟩ | ⟨k, hp, rfl⟩ |
    ⟨hp, rfl⟩ | ⟨hp, rfl⟩ | ⟨hp, rfl⟩ | ⟨hp, rfl⟩
  · exact repackStart_phaseInv hc
  · exact repackCheck_phaseInv hp h
  · exact repackRead_phaseInv hp h
  · exact repackBlock_phaseInv hp h
  · exact repackAnchor_phaseInv hp h
  · exact repackEval_phaseInv hp h
  · exact repackPack_phaseInv hp h
  · exact repackRemap_phaseInv hp h
  · exact repackPad_phaseInv hp h

/-! ## The invariant: what the phases of the remap commands keep -/

theorem remapBegin_phaseInv {s : State} (h : s.unit.remapLegal) : (remapBegin s).unit.phaseInv :=
  ⟨h, Nat.zero_le _⟩

theorem remapCheck_phaseInv {s : State} (hp : s.unit.phase = .rmCheck) (h : s.unit.phaseInv) :
    (remapCheck s).unit.phaseInv := by
  simp only [Dqba.phaseInv, hp] at h
  obtain ⟨hlegal, hi⟩ := h
  rcases remapCheck_cases s with ⟨-, e⟩ | ⟨hne, e⟩ <;> rw [e]
  · exact Dqba.phaseInv_of_idle rfl
  · exact ⟨hlegal, lt_of_le_of_ne hi fun h => hne (BitVec.eq_of_toNat_eq h)⟩

theorem remapReadIndex_phaseInv {cmd : Instr} {w : Width} {s : State} (hp : s.unit.phase = .rmRdIdx)
    (h : s.unit.phaseInv) : (remapReadIndex cmd w s).unit.phaseInv := by
  simp only [Dqba.phaseInv, hp] at h
  rcases remapReadIndex_cases cmd w s with ⟨-, e⟩ | ⟨-, e⟩ <;> rw [e]
  · exact h
  · exact Dqba.phaseInv_of_idle rfl

theorem remapReadTable_phaseInv {cmd : Instr} {s : State} (hp : s.unit.phase = .rmRdTbl)
    (h : s.unit.phaseInv) : (remapReadTable cmd s).unit.phaseInv := by
  simp only [Dqba.phaseInv, hp] at h
  rcases remapReadTable_cases cmd s with ⟨-, e⟩ | ⟨-, e⟩ <;> rw [e]
  · exact h
  · exact Dqba.phaseInv_of_idle rfl

theorem remapWriteIndex_phaseInv {cmd : Instr} {w : Width} {s : State} (hp : s.unit.phase = .rmWrIdx)
    (h : s.unit.phaseInv) : (remapWriteIndex cmd w s).unit.phaseInv := by
  simp only [Dqba.phaseInv, hp] at h
  obtain ⟨hlegal, hi⟩ := h
  rcases remapWriteIndex_cases cmd w s with ⟨-, e⟩ | ⟨-, e⟩ <;> rw [e]
  · exact ⟨hlegal, (toNat_succ_of_lt hi).trans_le hi⟩
  · exact Dqba.phaseInv_of_idle rfl

theorem execRemap32_phaseInv {s t : State} (hc : s.unit.lopc = encode .remap32) (h : s.unit.phaseInv)
    (ht : execRemap32 s = .next t) : t.unit.phaseInv := by
  rcases execRemap32_next ht with ⟨-, rfl⟩ | ⟨hp, rfl⟩ | ⟨hp, rfl⟩ | ⟨hp, rfl⟩ | ⟨hp, rfl⟩
  · rcases remap32Start_cases s with ⟨-, e⟩ | ⟨h1, h2, e⟩ <;> rw [e]
    · exact Dqba.phaseInv_of_idle rfl
    · exact remapBegin_phaseInv (.inl ⟨hc, h1, h2⟩)
  · exact remapCheck_phaseInv hp h
  · exact remapReadIndex_phaseInv hp h
  · exact remapReadTable_phaseInv hp h
  · exact remapWriteIndex_phaseInv hp h

theorem execRemapg_phaseInv {s t : State} (hc : s.unit.lopc = encode .remapg) (h : s.unit.phaseInv)
    (ht : execRemapg s = .next t) : t.unit.phaseInv := by
  rcases execRemapg_next ht with ⟨-, rfl⟩ | ⟨hp, rfl⟩ | ⟨w, -, hp, rfl⟩ | ⟨hp, rfl⟩ | ⟨w, -, hp, rfl⟩
  · rcases remapgStart_cases s with ⟨-, e⟩ | ⟨w, hw, ⟨-, e⟩ | ⟨h1, h2, e⟩⟩ <;> rw [e]
    · exact Dqba.phaseInv_of_idle rfl
    · exact Dqba.phaseInv_of_idle rfl
    · obtain ⟨hbytes, hstride⟩ := strideWidth_bytes hw
      exact remapBegin_phaseInv (.inr ⟨hc, hstride, hbytes ▸ h1, h2⟩)
  · exact remapCheck_phaseInv hp h
  · exact remapReadIndex_phaseInv hp h
  · exact remapReadTable_phaseInv hp h
  · exact remapWriteIndex_phaseInv hp h

theorem execSetbs_phaseInv {s t : State} (hc : s.unit.lopc = encode .setbs)
    (ht : execSetbs s = .next t) : t.unit.phaseInv := by
  rcases execSetbs_next ht with ⟨-, rfl⟩ | ⟨-, rfl⟩
  · exact hc
  · exact Dqba.phaseInv_of_idle rfl

theorem exec_phaseInv {i : Instr} {s t : State} (hc : s.unit.lopc = encode i) (h : s.unit.phaseInv)
    (ht : exec i s = .next t) : t.unit.phaseInv := by
  cases i with
  | setbs => exact execSetbs_phaseInv hc ht
  | repack => exact execRepack_phaseInv hc h ht
  | remap32 => exact execRemap32_phaseInv hc h ht
  | remapg => exact execRemapg_phaseInv hc h ht

/-! ## The invariant: STATUS and whole units -/

theorem Status.legal_accepted : Status.accepted.legal := by decide

theorem Status.legal_reset : Status.reset.legal := by decide

theorem Status.legal_completed (st : Status) : st.completed.legal := by
  simp [Status.legal]

theorem Status.legal_failed (st : Status) (e : Error) : (st.failed e).legal := by
  cases e <;> simp [Status.legal, Error.code]

/-- An idle unit meets the invariant when its window is aligned and STATUS is legal and not BUSY. -/
theorem Dqba.inv_of_idle {u : Dqba} (ha : u.baseAligned) (hl : u.status.legal) (hb : u.status.busy = false)
    (hp : u.phase = .idle) : u.Inv :=
  ⟨ha, hl, ⟨fun _ => hb, fun _ => hp⟩, Dqba.phaseInv_of_idle hp⟩

theorem Dqba.Inv.exec {i : Instr} {s t : State} (h : s.unit.Inv) (hb : s.unit.status.busy = true)
    (hc : s.unit.lopc = encode i) (ht : exec i s = .next t) : t.unit.Inv := by
  obtain ⟨ha, hl, hphase, hinv⟩ := h
  have hf := exec_frame ht
  have ha' : t.unit.baseAligned := by rw [Dqba.baseAligned, hf.base]; exact ha
  by_cases hp : t.unit.phase = .idle
  · rcases hf.ends hp with e | ⟨er, e⟩
    · exact Dqba.inv_of_idle ha' (e ▸ Status.legal_completed _) (by rw [e]; rfl) hp
    · exact Dqba.inv_of_idle ha' (e ▸ Status.legal_failed _ _) (by rw [e]; rfl) hp
  · obtain ⟨hst, -⟩ := hf.goesOn hp
    refine ⟨ha', hst ▸ hl, ⟨fun h => absurd h hp, fun h => ?_⟩, exec_phaseInv hc hinv ht⟩
    rw [hst, hb] at h
    cases h

theorem Dqba.Inv.unitStep {s t : State} (h : s.unit.Inv) (ht : unitStep s = .next t) : t.unit.Inv := by
  rcases unitStep_next ht with ⟨-, rfl⟩ | ⟨hb, i, hd, hi⟩ | ⟨-, -, -, rfl⟩
  · exact h
  · exact h.exec hb (eq_encode_of_decode hd) hi
  · exact Dqba.inv_of_idle h.1 (Status.legal_failed _ _) rfl rfl

theorem Dqba.Inv.windowWrite {u : Dqba} (h : u.Inv) (off bytes : Nat) (v : Word) :
    (u.windowWrite off bytes v).Inv := by
  rcases u.windowWrite_cases off bytes v with e | ⟨k, -, -, e⟩ | ⟨-, -, e⟩ <;> rw [e]
  · exact h
  · exact h
  · obtain ⟨ha, hl, hphase, hinv⟩ := h
    cases hb : u.status.busy with
    | false =>
      rw [Dqba.writeCmd_idle hb]
      exact ⟨ha, Status.legal_accepted, by simp [Status.accepted], trivial⟩
    | true =>
      rw [Dqba.writeCmd_busy hb]
      exact ⟨ha, hl, hphase, hinv⟩

theorem Dqba.Inv.doReset {u : Dqba} (h : u.Inv) : u.doReset.Inv :=
  Dqba.inv_of_idle h.1 Status.legal_reset rfl rfl

/-! ## The invariant: memory, and the whole machine -/

theorem keepsOrStores.wf {m m' : Memory} (h : keepsOrStores m m') (hm : m.wf) : m'.wf := by
  rcases h with rfl | ⟨a, w, v, rfl⟩
  · exact hm
  · exact Memory.wf_store hm a w v

theorem unitStep_wf {s t : State} (hm : s.mem.wf) (ht : unitStep s = .next t) : t.mem.wf := by
  rcases unitStep_next ht with ⟨-, rfl⟩ | ⟨-, i, -, hi⟩ | ⟨-, -, -, rfl⟩
  · exact hm
  · exact (exec_frame hi).mem.wf hm
  · exact hm

/-- Replacing one element by one with a property keeps the property of all. -/
theorem forall_mem_set {us : List Dqba} {P : Dqba → Prop} (h : ∀ u ∈ us, P u) (k : Nat) {v : Dqba}
    (hv : P v) : ∀ u ∈ us.set k v, P u := by
  intro u hu
  rcases List.mem_or_eq_of_mem_set hu with hu | rfl
  · exact h u hu
  · exact hv

theorem State.Inv.stepUnit {k : Nat} {s t : State} (h : s.Inv) (ht : stepUnit k s = .next t) : t.Inv := by
  obtain ⟨hm, hu, ho⟩ := h
  rcases stepUnit_next ht with ht | rfl | ⟨j, u, v, hj, hv, rfl⟩
  · obtain ⟨hout, -, -⟩ := unitStep_outside ht
    have hothers : t.others = s.others := by rw [hout]
    exact ⟨unitStep_wf hm ht, hu.unitStep ht, hothers ▸ ho⟩
  · exact ⟨hm, hu, ho⟩
  · have hui : u.Inv := ho u (List.mem_of_getElem? hj)
    have hvi : v.unit.Inv := Dqba.Inv.unitStep (s := s.withUnit u) hui hv
    exact ⟨unitStep_wf (s := s.withUnit u) (t := v) hm hv, hu, forall_mem_set ho j hvi⟩

theorem writeWindows_inv {us : List Dqba} (h : ∀ u ∈ us, u.Inv) (a : Word) (bytes : Nat) (v : Word) :
    ∀ u ∈ writeWindows a bytes v us, u.Inv := by
  induction us with
  | nil => exact h
  | cons w us ih =>
    obtain ⟨hw, hus⟩ := List.forall_mem_cons.mp h
    unfold writeWindows
    split
    · exact List.forall_mem_cons.mpr ⟨hw.windowWrite _ bytes v, hus⟩
    · exact List.forall_mem_cons.mpr ⟨hw, ih hus⟩

theorem State.Inv.busWrite {s : State} (h : s.Inv) (a : Word) (bytes : Nat) (v : Word) :
    (s.busWrite a bytes v).Inv := by
  obtain ⟨hm, hu, ho⟩ := h
  rcases s.busWrite_cases a bytes v with ⟨off, -, e⟩ | ⟨-, e⟩ <;> rw [e]
  · exact ⟨hm, hu.windowWrite off bytes v, ho⟩
  · exact ⟨hm, hu, writeWindows_inv ho a bytes v⟩

theorem State.Inv.busRead {s : State} (h : s.Inv) (a : Word) (bytes : Nat) : (s.busRead a bytes).Inv := by
  rw [State.busRead_eq]
  exact h

theorem State.Inv.resetUnit {s : State} (h : s.Inv) (k : Nat) : (s.resetUnit k).Inv := by
  obtain ⟨hm, hu, ho⟩ := h
  cases k with
  | zero => exact ⟨hm, hu.doReset, ho⟩
  | succ k =>
    refine ⟨hm, hu, ?_⟩
    simp only [State.resetUnit, State.withOthers_others]
    cases hk : s.others[k]? with
    | none =>
      rw [List.modify_eq_self (by simpa using hk)]
      exact ho
    | some u =>
      rw [List.modify_eq_set_getElem?, hk]
      exact forall_mem_set ho k (ho u (List.mem_of_getElem? hk)).doReset

theorem State.Inv.hostAct {s : State} (h : s.Inv) (a : HostAct) : (hostAct a s).Inv := by
  cases a with
  | regRead addr bytes => exact h.busRead addr bytes
  | regWrite addr bytes v => exact h.busWrite addr bytes v
  | memRead addr n => exact h
  | memWrite addr vs =>
    obtain ⟨hm, hu, ho⟩ := h
    exact ⟨Memory.wf_writeBytes hm _ vs, hu, ho⟩
  | reset k => exact h.resetUnit k

theorem State.Inv.hostOp {s : State} (h : s.Inv) (op : HostOp) : (hostOp op s).Inv := by
  cases op with
  | wr off v => exact h.busWrite (s.windowAddr off) 4 v
  | rd off => exact h.busRead (s.windowAddr off) 4
  | bit off n target =>
    simp only [Machine.hostOp]
    split_ifs <;> exact h

theorem State.Inv.takeTurn {tr : Turn} {s t : State} (h : s.Inv) (ht : takeTurn tr s = .next t) : t.Inv := by
  cases tr with
  | unit k => exact h.stepUnit ht
  | program =>
    rcases hostLine_next ht with ⟨-, rfl⟩ | ⟨op, -, -, rfl⟩
    · exact h
    · exact h.hostOp op
  | act a =>
    cases ht
    exact h.hostAct a

/-- Settles O49: every turn keeps the invariant, a unit's turn phase by phase. -/
theorem everyStepKeepsTheInvariant : Obligations.EveryStepKeepsTheInvariant := by
  intro s t h ht
  rcases step_nextTurn ht with rfl | ⟨tr, -, ht⟩
  · exact h
  · exact State.Inv.takeTurn (s := s.withTurns s.turns.tail) h ht

/-- Settles O48: memory is empty, the unit idle at an aligned window, and no other unit exists. -/
theorem invariantHoldsAtReset : Obligations.InvariantHoldsAtReset :=
  ⟨by decide, Dqba.inv_of_idle (by decide) Status.legal_reset rfl rfl, nofun⟩

end Sys2Proof.Machine

namespace Sys2Proof.Machine
/-! ## What the rest of a run can observe of a unit

The latches, counters and temporaries that the unit writes again before it reads them are replaced by fixed
values: all of them while it is idle, and while it is busy those that are dead in its phase. A step of any
agent respects this, so two machines with the same observed part show the same after every run. -/

/-- Components 0 to `k - 1` of the vertex latch, which RP_READ(k) finds read already (42_repack.md R144). -/
def Vec3.readBefore (v : Vec3) : Fin 3 → Vec3
  | 0 => ⟨0#16, 0#16, 0#16⟩
  | 1 => ⟨v.x, 0#16, 0#16⟩
  | 2 => ⟨v.x, v.y, 0#16⟩

/-- The busy unit without the counters and temporaries that are dead in a phase (10_state.md R39 to R42). -/
def Dqba.live (u : Dqba) : Phase → Dqba
  | .idle | .decode | .sbWrite =>
    { u with i := 0#32, p := 0#32, b := 0#32, v := ⟨0#16, 0#16, 0#16⟩, iv := 0#32, tv := 0#32 }
  | .rpCheck => { u with v := ⟨0#16, 0#16, 0#16⟩, iv := 0#32, tv := 0#32 }
  | .rpRead k => { u with v := u.v.readBefore k, iv := 0#32, tv := 0#32 }
  | .rpBlock | .rpAnchor _ | .rpEval | .rpPack | .rpRemap | .rpPad => { u with iv := 0#32, tv := 0#32 }
  | .rmCheck | .rmRdIdx =>
    { u with p := 0#32, b := 0#32, v := ⟨0#16, 0#16, 0#16⟩, iv := 0#32, tv := 0#32 }
  | .rmRdTbl => { u with p := 0#32, b := 0#32, v := ⟨0#16, 0#16, 0#16⟩, tv := 0#32 }
  | .rmWrIdx => { u with p := 0#32, b := 0#32, v := ⟨0#16, 0#16, 0#16⟩, iv := 0#32 }

/-- What a run from here on can observe of a unit. -/
def Dqba.observed (u : Dqba) : Dqba := if u.status.busy then u.live u.phase else u.visible

/-- The machine with its unit's observed part. -/
def State.observed (s : State) : State := s.withUnit s.unit.observed

theorem Dqba.observed_of_busy {u : Dqba} (h : u.status.busy = true) : u.observed = u.live u.phase :=
  if_pos h

theorem Dqba.observed_of_idle {u : Dqba} (h : u.status.busy = false) : u.observed = u.visible := by
  simp [Dqba.observed, h]

theorem Dqba.visible_live (u : Dqba) (ph : Phase) : (u.live ph).visible = u.visible := by
  cases ph <;> rfl

theorem Dqba.visible_observed (u : Dqba) : u.observed.visible = u.visible := by
  cases hb : u.status.busy with
  | false => rw [Dqba.observed_of_idle hb]; rfl
  | true => rw [Dqba.observed_of_busy hb, Dqba.visible_live]

@[simp] theorem Dqba.observed_base (u : Dqba) : u.observed.base = u.base :=
  (congrArg (fun v : Dqba => v.base) u.visible_observed :)

@[simp] theorem Dqba.observed_status (u : Dqba) : u.observed.status = u.status :=
  (congrArg (fun v : Dqba => v.status) u.visible_observed :)

@[simp] theorem Dqba.observed_phase (u : Dqba) : u.observed.phase = u.phase :=
  (congrArg (fun v : Dqba => v.phase) u.visible_observed :)

theorem Dqba.live_live (u : Dqba) (ph : Phase) : (u.live ph).live ph = u.live ph := by
  cases ph with
  | rpRead k => fin_cases k <;> rfl
  | idle | decode | sbWrite | rpCheck | rpBlock | rpAnchor | rpEval | rpPack | rpRemap | rpPad | rmCheck
  | rmRdIdx | rmRdTbl | rmWrIdx => rfl

@[simp] theorem Dqba.observed_observed (u : Dqba) : u.observed.observed = u.observed := by
  cases hb : u.status.busy with
  | false => rw [Dqba.observed_of_idle (by simpa using hb), u.visible_observed, Dqba.observed_of_idle hb]
  | true =>
    rw [Dqba.observed_of_busy (by simpa using hb), u.observed_phase, Dqba.observed_of_busy hb,
      Dqba.live_live]

@[simp] theorem State.observed_observed (s : State) : s.observed.observed = s.observed :=
  congrArg s.withUnit s.unit.observed_observed

theorem Dqba.observed_mapHost (g : Vector Word 7 → Vector Word 7) (c : Bool → Bool) (u : Dqba) :
    (u.mapHost g c).observed = u.observed.mapHost g c := by
  have hlive : ∀ ph, (u.mapHost g c).live ph = (u.live ph).mapHost g c := fun ph => by cases ph <;> rfl
  cases hb : u.status.busy with
  | false => rw [Dqba.observed_of_idle hb, Dqba.observed_of_idle (by exact hb)]; rfl
  | true => rw [Dqba.observed_of_busy hb, Dqba.observed_of_busy (by exact hb)]; exact hlive _

/-! ### The unit's own step -/

theorem State.observed_of_busy {s : State} (h : s.unit.status.busy = true) :
    s.observed = s.withUnit (s.unit.live s.unit.phase) :=
  congrArg s.withUnit (Dqba.observed_of_busy h)

/-- Every state is one moved to the phase it is in. -/
theorem State.exists_eq_goto (s : State) : ∃ ph s', s = State.goto s' ph := ⟨s.unit.phase, s, rfl⟩

section Busy

variable {s : State} (hb : s.unit.status.busy = true)

include hb

theorem execSetbs_observed :
    mapNext State.observed (execSetbs s.observed) = mapNext State.observed (execSetbs s) := by
  obtain ⟨ph, s, rfl⟩ := s.exists_eq_goto
  rw [State.observed_of_busy hb]
  cases ph <;> rfl

theorem execRepack_observed :
    mapNext State.observed (execRepack s.observed) = mapNext State.observed (execRepack s) := by
  obtain ⟨ph, s, rfl⟩ := s.exists_eq_goto
  rw [State.observed_of_busy hb]
  cases ph with
  | decode | rpCheck | rpBlock | rpEval | rpPack | rpRemap | rpPad =>
    refine congrArg Host.Outcome.next ?_
    simp only [repackStart, repackCheck, repackBlock, repackEval, repackPack, repackRemap, repackPad,
      portWrite, apply_ite State.observed]
    rfl
  | rpRead k | rpAnchor k =>
    refine congrArg Host.Outcome.next ?_
    simp only [repackRead, repackAnchor, portRead, portWrite, apply_ite State.observed]
    match k with
    | 0 | 1 | 2 => rfl
  | idle | sbWrite | rmCheck | rmRdIdx | rmRdTbl | rmWrIdx => rfl

theorem remapCheck_observed (hp : s.unit.phase = .rmCheck) :
    (remapCheck s.observed).observed = (remapCheck s).observed := by
  rw [State.observed_of_busy hb, hp]
  simp only [remapCheck, apply_ite State.observed]
  rfl

theorem remapReadIndex_observed (hp : s.unit.phase = .rmRdIdx) (cmd : Instr) (w : Width) :
    (remapReadIndex cmd w s.observed).observed = (remapReadIndex cmd w s).observed := by
  rw [State.observed_of_busy hb, hp]
  simp only [remapReadIndex, portRead, apply_ite State.observed]
  rfl

theorem remapReadTable_observed (hp : s.unit.phase = .rmRdTbl) (cmd : Instr) :
    (remapReadTable cmd s.observed).observed = (remapReadTable cmd s).observed := by
  rw [State.observed_of_busy hb, hp]
  simp only [remapReadTable, portRead, apply_ite State.observed]
  rfl

theorem remapWriteIndex_observed (hp : s.unit.phase = .rmWrIdx) (cmd : Instr) (w : Width) :
    (remapWriteIndex cmd w s.observed).observed = (remapWriteIndex cmd w s).observed := by
  rw [State.observed_of_busy hb, hp]
  simp only [remapWriteIndex, portWrite, apply_ite State.observed]
  rfl

theorem remap32Start_observed (hp : s.unit.phase = .decode) :
    (remap32Start s.observed).observed = (remap32Start s).observed := by
  rw [State.observed_of_busy hb, hp]
  simp only [remap32Start, apply_ite State.observed]
  rfl

theorem latch_observed : s.observed.unit.latch = s.unit.latch := by
  rw [State.observed_of_busy hb]
  cases s.unit.phase <;> rfl

theorem remapgStart_observed (hp : s.unit.phase = .decode) :
    (remapgStart s.observed).observed = (remapgStart s).observed := by
  have hw : s.observed.unit.rmStride = s.unit.rmStride := congrArg (·[3]) (latch_observed hb)
  unfold remapgStart
  rw [hw, State.observed_of_busy hb, hp]
  cases strideWidth s.unit.rmStride with
  | none => rfl
  | some w =>
    simp only [apply_ite State.observed]
    rfl

/-- The stride is a latch, so the two machines select the same element width. -/
theorem atStride_observed {f f' : Width → State} (h : ∀ w, (f' w).observed = (f w).observed) :
    mapNext State.observed (atStride s.observed f') = mapNext State.observed (atStride s f) := by
  have hw : s.observed.unit.rmStride = s.unit.rmStride := congrArg (·[3]) (latch_observed hb)
  unfold atStride
  rw [hw]
  cases strideWidth s.unit.rmStride with
  | none => rfl
  | some w => exact congrArg Host.Outcome.next (h w)

theorem execRemap32_observed :
    mapNext State.observed (execRemap32 s.observed) = mapNext State.observed (execRemap32 s) := by
  unfold execRemap32
  rw [show s.observed.unit.phase = s.unit.phase from s.unit.observed_phase]
  cases hp : s.unit.phase with
  | decode => exact congrArg Host.Outcome.next (remap32Start_observed hb hp)
  | rmCheck => exact congrArg Host.Outcome.next (remapCheck_observed hb hp)
  | rmRdIdx => exact congrArg Host.Outcome.next (remapReadIndex_observed hb hp _ _)
  | rmRdTbl => exact congrArg Host.Outcome.next (remapReadTable_observed hb hp _)
  | rmWrIdx => exact congrArg Host.Outcome.next (remapWriteIndex_observed hb hp _ _)
  | idle | sbWrite | rpCheck | rpRead | rpBlock | rpAnchor | rpEval | rpPack | rpRemap | rpPad => rfl

theorem execRemapg_observed :
    mapNext State.observed (execRemapg s.observed) = mapNext State.observed (execRemapg s) := by
  unfold execRemapg
  rw [show s.observed.unit.phase = s.unit.phase from s.unit.observed_phase]
  cases hp : s.unit.phase with
  | decode => exact congrArg Host.Outcome.next (remapgStart_observed hb hp)
  | rmCheck => exact congrArg Host.Outcome.next (remapCheck_observed hb hp)
  | rmRdIdx => exact atStride_observed hb (remapReadIndex_observed hb hp _)
  | rmRdTbl => exact congrArg Host.Outcome.next (remapReadTable_observed hb hp _)
  | rmWrIdx => exact atStride_observed hb (remapWriteIndex_observed hb hp _)
  | idle | sbWrite | rpCheck | rpRead | rpBlock | rpAnchor | rpEval | rpPack | rpRemap | rpPad => rfl

theorem exec_observed (i : Instr) :
    mapNext State.observed (exec i s.observed) = mapNext State.observed (exec i s) := by
  cases i with
  | setbs => exact execSetbs_observed hb
  | repack => exact execRepack_observed hb
  | remap32 => exact execRemap32_observed hb
  | remapg => exact execRemapg_observed hb

theorem lopc_observed : s.observed.unit.lopc = s.unit.lopc := by
  rw [State.observed_of_busy hb]
  cases s.unit.phase <;> rfl

end Busy

/-- An idle unit's step and an illegal word's end respect the observed part, like every command's step. -/
theorem unitStep_observed (s : State) :
    mapNext State.observed (unitStep s.observed) = mapNext State.observed (unitStep s) := by
  have hbusy : s.observed.unit.status.busy = s.unit.status.busy :=
    congrArg Status.busy s.unit.observed_status
  unfold unitStep
  rw [hbusy]
  cases hb : s.unit.status.busy with
  | false => exact congrArg Host.Outcome.next s.observed_observed
  | true =>
    rw [lopc_observed hb, show s.observed.unit.phase = s.unit.phase from s.unit.observed_phase]
    cases decode s.unit.lopc with
    | ok i => exact exec_observed hb i
    | error e =>
      by_cases hp : s.unit.phase = .decode
      · simp only [if_true, if_pos hp, mapNext_next]
        rw [State.observed_of_busy hb, hp]
        rfl
      · simp only [if_true, if_neg hp, mapNext_fault]

/-! ### The other agents -/

theorem stepUnit_observed (k : Nat) (s : State) :
    mapNext State.observed (stepUnit k s.observed) = mapNext State.observed (stepUnit k s) := by
  cases k with
  | zero => exact unitStep_observed s
  | succ k =>
    cases hu : s.others[k]? with
    | none =>
      rw [stepUnit_succ_of_none hu, stepUnit_succ_of_none (s := s.observed) hu]
      exact congrArg Host.Outcome.next s.observed_observed
    | some u =>
      rw [stepUnit_succ_of_getElem hu, stepUnit_succ_of_getElem (s := s.observed) hu,
        show s.observed.withUnit u = s.withUnit u from rfl]
      cases unitStep (s.withUnit u) with
      | fault r => rfl
      | refused r => rfl
      | next t =>
        simp only [mapNext_next, State.observed, Dqba.observed_observed, State.withUnit]

/-- The window shows the visible registers alone (10_state.md R43). -/
theorem Dqba.windowRead_visible (u : Dqba) (off bytes : Nat) :
    u.visible.windowRead off bytes = u.windowRead off bytes := by
  have hreg : ∀ r, u.visible.readReg r = u.readReg r := fun r => by cases r <;> rfl
  simp only [Dqba.windowRead, hreg]

theorem Dqba.windowRead_observed (u : Dqba) (off bytes : Nat) :
    u.observed.windowRead off bytes = u.windowRead off bytes := by
  rw [← u.observed.windowRead_visible, u.visible_observed, u.windowRead_visible]

theorem Dqba.offsetOf_observed (u : Dqba) (a : Word) : u.observed.offsetOf a = u.offsetOf a := by
  simp only [Dqba.offsetOf, Dqba.observed_base]

/-- A CMD write latches the visible registers and leaves the rest dead in DECODE (10_state.md R23). -/
theorem Dqba.writeCmd_observed (u : Dqba) (w : Word) :
    (u.observed.writeCmd w).observed = (u.writeCmd w).observed := by
  cases hb : u.status.busy with
  | false =>
    rw [Dqba.writeCmd_idle hb, Dqba.writeCmd_idle (by simpa using hb), Dqba.observed_of_idle hb]
    rfl
  | true =>
    rw [Dqba.writeCmd_busy hb, Dqba.writeCmd_busy (by simpa using hb)]
    have hlost : ∀ v : Dqba, { v with status := v.status.lost } = v.mapHost id (fun _ => true) :=
      fun _ => rfl
    rw [hlost, hlost, Dqba.observed_mapHost, Dqba.observed_mapHost, u.observed_observed]

theorem Dqba.writeReg_observed (u : Dqba) (r : Reg) (v : Word) :
    (u.observed.writeReg r v).observed = (u.writeReg r v).observed := by
  cases r with
  | cmd => exact u.writeCmd_observed v
  | arg k =>
    have harg : ∀ w : Dqba, w.writeReg (.arg k) v = w.mapHost (fun as => as.set k v) id := fun _ => rfl
    rw [harg, harg, Dqba.observed_mapHost, Dqba.observed_mapHost, u.observed_observed]
  | status | result | blockSize | anchorXY | anchorZ => exact u.observed_observed

theorem Dqba.windowWrite_observed (u : Dqba) (off bytes : Nat) (v : Word) :
    (u.observed.windowWrite off bytes v).observed = (u.windowWrite off bytes v).observed := by
  unfold Dqba.windowWrite
  split_ifs
  · cases regAt off with
    | none => exact u.observed_observed
    | some r => exact u.writeReg_observed r v
  · exact u.observed_observed

theorem State.busRead_observed (s : State) (a : Word) (bytes : Nat) :
    s.observed.busRead a bytes = (s.busRead a bytes).observed := by
  have hr : readWindows a bytes (s.unit.observed :: s.others) = readWindows a bytes (s.unit :: s.others) := by
    simp only [readWindows, Dqba.offsetOf_observed, Dqba.windowRead_observed]
  unfold State.busRead
  rw [show s.observed.unit :: s.observed.others = s.unit.observed :: s.others from rfl, hr]
  cases readWindows a bytes (s.unit :: s.others) <;> rfl

theorem State.busWrite_observed (s : State) (a : Word) (bytes : Nat) (v : Word) :
    (s.observed.busWrite a bytes v).observed = (s.busWrite a bytes v).observed := by
  unfold State.busWrite
  rw [show s.observed.unit.offsetOf a = s.unit.offsetOf a from s.unit.offsetOf_observed a]
  cases s.unit.offsetOf a with
  | none => exact congrArg (s.withOthers _).withUnit s.unit.observed_observed
  | some off => exact congrArg s.withUnit (s.unit.windowWrite_observed off bytes v)

theorem hostAct_observed (a : HostAct) (s : State) :
    (hostAct a s.observed).observed = (hostAct a s).observed := by
  cases a with
  | regRead addr bytes =>
    show (s.observed.busRead addr bytes).observed = _
    rw [State.busRead_observed, State.observed_observed]
    rfl
  | regWrite addr bytes v => exact s.busWrite_observed addr bytes v
  | memRead addr n => exact congrArg (s.logRead _).withUnit s.unit.observed_observed
  | memWrite addr vs => exact congrArg (s.withMem _).withUnit s.unit.observed_observed
  | reset k =>
    cases k with
    | zero => exact congrArg (fun b => s.withUnit (Dqba.afterReset b).observed) s.unit.observed_base
    | succ k => exact congrArg (s.withOthers _).withUnit s.unit.observed_observed

theorem hostOp_observed (op : HostOp) (s : State) :
    (hostOp op s.observed).observed = (hostOp op s).observed := by
  have haddr : ∀ off, s.observed.windowAddr off = s.windowAddr off := fun off =>
    congrArg (· + BitVec.ofNat 32 off) s.unit.observed_base
  cases op with
  | wr off v =>
    simp only [hostOp, haddr]
    exact congrArg (·.withLine (s.line + 1)) (s.busWrite_observed (s.windowAddr off) 4 v)
  | rd off =>
    simp only [hostOp, haddr, State.busRead_observed]
    exact congrArg (·.withLine (s.line + 1)) (State.observed_observed _)
  | bit off n target =>
    simp only [hostOp, show s.observed.unit.windowRead off 4 = s.unit.windowRead off 4 from
      s.unit.windowRead_observed off 4]
    split_ifs
    · exact congrArg (s.withLine _).withUnit s.unit.observed_observed
    · exact congrArg (s.withLine _).withUnit s.unit.observed_observed

theorem hostLine_observed (s : State) :
    mapNext State.observed (hostLine s.observed) = mapNext State.observed (hostLine s) := by
  unfold hostLine
  rw [show s.observed.program[s.observed.line]? = s.program[s.line]? from rfl]
  cases s.program[s.line]? with
  | none => exact congrArg Host.Outcome.next s.observed_observed
  | some op =>
    by_cases hw : op.wellFormed = true
    · simp only [if_pos hw, mapNext_next, hostOp_observed]
    · simp only [if_neg hw, mapNext_fault]

theorem takeTurn_observed (tr : Turn) (s : State) :
    mapNext State.observed (takeTurn tr s.observed) = mapNext State.observed (takeTurn tr s) := by
  cases tr with
  | unit k => exact stepUnit_observed k s
  | program => exact hostLine_observed s
  | act a => exact congrArg Host.Outcome.next (hostAct_observed a s)

/-- A step of any agent respects the observed part of the unit. -/
theorem step_observed (s : State) :
    mapNext State.observed (step s.observed) = mapNext State.observed (step s) := by
  have hn : s.observed.nextTurn = s.nextTurn := by
    have hbusy : s.observed.unit.status.busy = s.unit.status.busy :=
      congrArg Status.busy s.unit.observed_status
    unfold State.nextTurn defaultTurn
    rw [hbusy]
    rfl
  rw [step_eq_nextTurn, step_eq_nextTurn, hn]
  cases s.nextTurn with
  | none => exact congrArg Host.Outcome.next s.observed_observed
  | some tr => exact takeTurn_observed tr (s.withTurns s.turns.tail)

/-! ### Runs -/

theorem mapNext_eq_fault_iff (f : State → State) (o : Host.Outcome State Fault Refusal) (r : Fault) :
    mapNext f o = .fault r ↔ o = .fault r := by
  cases o <;> simp

theorem mapNext_eq_refused_iff (f : State → State) (o : Host.Outcome State Fault Refusal) (r : Refusal) :
    mapNext f o = .refused r ↔ o = .refused r := by
  cases o <;> simp

theorem runSteps_succ_of_fault {s : State} {r : Fault} (k : Nat) (h : step s = .fault r) :
    runSteps (k + 1) s = .fault r := by
  have hc : Sys2Proof.core.step s = .fault r := h
  simp only [runSteps, Host.Core.run, hc]
  rfl

theorem runSteps_succ_of_refused {s : State} {r : Refusal} (k : Nat) (h : step s = .refused r) :
    runSteps (k + 1) s = .refused r := by
  have hc : Sys2Proof.core.step s = .refused r := h
  simp only [runSteps, Host.Core.run, hc]
  rfl

/-- Machines with the same observed part have the same observed part, or the same stop, after every run. -/
theorem runSteps_observed (k : Nat) {s s' : State} (h : s.observed = s'.observed) :
    mapNext State.observed (runSteps k s) = mapNext State.observed (runSteps k s') := by
  induction k generalizing s s' with
  | zero => exact congrArg Host.Outcome.next h
  | succ k ih =>
    have hstep : mapNext State.observed (step s) = mapNext State.observed (step s') := by
      rw [← step_observed s, h, step_observed s']
    cases hs : step s with
    | next t =>
      rw [hs, mapNext_next, eq_comm, mapNext_eq_next_iff] at hstep
      obtain ⟨t', hs', ht⟩ := hstep
      rw [runSteps_succ k hs, runSteps_succ k hs']
      exact ih ht.symm
    | fault r =>
      rw [hs, mapNext_fault, eq_comm, mapNext_eq_fault_iff] at hstep
      rw [runSteps_succ_of_fault k hs, runSteps_succ_of_fault k hstep]
    | refused r =>
      rw [hs, mapNext_refused, eq_comm, mapNext_eq_refused_iff] at hstep
      rw [runSteps_succ_of_refused k hs, runSteps_succ_of_refused k hstep]

theorem State.visible_observed (s : State) : s.observed.visible = s.visible :=
  congrArg (fun u => { s with unit := u, others := s.others.map Dqba.visible }) s.unit.visible_observed

/-- Settles O60: an idle unit's internals are no part of what a run can observe. -/
theorem idleInternalsAreNeverObserved : Obligations.IdleInternalsAreNeverObserved := by
  intro s src k hb _
  have h : (s.withUnit (s.unit.withInternals src)).observed = s.observed := by
    have hu : (s.unit.withInternals src).observed = s.unit.observed := by
      rw [Dqba.observed_of_idle hb, Dqba.observed_of_idle (by exact hb)]
      rfl
    exact congrArg s.withUnit hu
  have hv : ∀ o, mapNext State.visible (mapNext State.observed o) = mapNext State.visible o := by
    intro o
    cases o with
    | next t => exact congrArg Host.Outcome.next t.visible_observed
    | fault r => rfl
    | refused r => rfl
  rw [← hv, ← hv (runSteps k s)]
  exact congrArg (mapNext State.visible) (runSteps_observed k h)
end Sys2Proof.Machine

namespace Sys2Proof.Machine
/-! ## The memory port byte by byte (20_memory.md R61) -/

/-- Byte `j` of a little-endian number. -/
theorem getElem_leBytes (n v j : Nat) (hj : j < (leBytes n v).length) :
    (leBytes n v)[j] = BitVec.ofNat 8 (v / 256 ^ j) := by
  induction n generalizing v j with
  | zero => simp at hj
  | succ n ih =>
    cases j with
    | zero => simp [leBytes]
    | succ j =>
      simp only [leBytes, List.getElem_cons_succ]
      rw [ih, Nat.div_div_eq_div_mul, pow_succ']

/-- A store puts bits 8j+7:8j at its byte `j`. -/
theorem Memory.readByte_store_of_inside (m : Memory) (a : Word) (w : Width) (v : Word) {j : Nat}
    (hj : j < Width.bytes w) :
    (m.store a w v).readByte ((a.toNat + j) % 2 ^ 32) = v.extractLsb' (8 * j) 8 := by
  have hlen : (leBytes (Width.bytes w) v.toNat).length ≤ Config.memoryBytes := by
    rw [leBytes_length]
    exact le_trans (Width.bytes_le w) (by decide)
  have hread := Memory.readByte_writeBytes_of_inside m a.toNat _ hlen j (by simpa using hj)
  rw [getElem_leBytes] at hread
  refine hread.trans (BitVec.eq_of_toNat_eq ?_)
  simp [BitVec.extractLsb'_toNat, Nat.shiftRight_eq_div_pow, pow_mul]

theorem Memory.storesHalf_store (m : Memory) (a v : Word) :
    storesHalf m (m.store a .half v) a (v.extractLsb' 0 16) := by
  intro x
  have hbyte := fun j (hj : j < 2) => Memory.readByte_store_of_inside m a .half v hj
  have ha : (a.toNat + 0) % 2 ^ 32 = a.toNat := Nat.mod_eq_of_lt a.isLt
  split_ifs with h0 h1
  · rw [h0, ← ha, hbyte 0 (by decide)]
    ext; simp
  · rw [h1, hbyte 1 (by decide)]
    ext; simp
  · refine Memory.readByte_store_of_outside m a .half v x fun j hj => ?_
    change j < 2 at hj
    interval_cases j
    · rwa [← ha] at h0
    · exact h1

theorem Memory.storesWord_store (m : Memory) (a v : Word) : storesWord m (m.store a .word v) a v := by
  intro x
  have hbyte := fun j (hj : j < 4) => Memory.readByte_store_of_inside m a .word v hj
  have ha : (a.toNat + 0) % 2 ^ 32 = a.toNat := Nat.mod_eq_of_lt a.isLt
  split_ifs with h0 h1 h2 h3
  · rw [h0, ← ha, hbyte 0 (by decide)]
  · rw [h1, hbyte 1 (by decide)]
  · rw [h2, hbyte 2 (by decide)]
  · rw [h3, hbyte 3 (by decide)]
  · refine Memory.readByte_store_of_outside m a .word v x fun j hj => ?_
    change j < 4 at hj
    interval_cases j
    · rwa [← ha] at h0
    · exact h1
    · exact h2
    · exact h3

/-- The first byte of a little-endian number is its low byte, the rest stands above it. -/
theorem ofNat_leValue_cons (b : Byte) (bs : List Byte) :
    BitVec.ofNat 32 (leValue (b :: bs)) = b.setWidth 32 ||| BitVec.ofNat 32 (leValue bs) <<< 8 := by
  have hor : leValue (b :: bs) = leValue bs <<< 8 ||| b.toNat := by
    rw [← Nat.shiftLeft_add_eq_or_of_lt b.isLt, Nat.shiftLeft_eq, leValue]
    omega
  refine BitVec.eq_of_toNat_eq ?_
  simp [hor, Nat.or_comm, Nat.shiftLeft_eq]

theorem Memory.load_word (m : Memory) (a : Word) : m.load a .word = wordAt m a := by
  have ha : a.toNat % Config.memoryBytes = a.toNat := Nat.mod_eq_of_lt a.isLt
  simp only [Memory.load, Width.bytes, Memory.readBytes, ofNat_leValue_cons, ha]
  simp only [leValue, BitVec.shiftLeft_or_distrib, ← BitVec.shiftLeft_add]
  simp [wordAt, BitVec.or_assoc, Config.memoryBytes]

/-- A byte above another reaches no bit past the 16 of the two. -/
theorem setWidth_shiftLeft_byte (b : Byte) : (b.setWidth 16 <<< 8).setWidth 32 = b.setWidth 32 <<< 8 := by
  refine BitVec.eq_of_toNat_eq ?_
  have := b.isLt
  simp only [BitVec.toNat_setWidth, BitVec.toNat_shiftLeft, Nat.shiftLeft_eq]
  omega

theorem Memory.load_half (m : Memory) (a : Word) : m.load a .half = (halfAt m a).setWidth 32 := by
  have ha : a.toNat % Config.memoryBytes = a.toNat := Nat.mod_eq_of_lt a.isLt
  simp only [Memory.load, Width.bytes, Memory.readBytes, ofNat_leValue_cons, ha]
  simp [leValue, halfAt, setWidth_shiftLeft_byte, Config.memoryBytes]

/-- The low half of a stored word reads as a stored half does. -/
theorem Memory.load_half_store_word (m : Memory) (a v : Word) :
    (m.store a .word v).load a .half = (m.store a .half v).load a .half :=
  Memory.load_congr fun j hj =>
    (Memory.readByte_store_of_inside m a .word v (lt_of_lt_of_le hj (by decide))).trans
      (Memory.readByte_store_of_inside m a .half v hj).symm

/-- Settles O39: a store puts each of its bytes and no other, and a load assembles them. -/
theorem accessesAreLittleEndian : Obligations.AccessesAreLittleEndian := by
  intro m a v
  refine ⟨Memory.storesWord_store m a v, Memory.storesHalf_store m a v, Memory.load_word m a,
    Memory.load_half m a, ?_, ?_⟩
  · rw [Memory.load_store, show 256 ^ Width.bytes .word = 2 ^ 32 from rfl, Nat.mod_eq_of_lt v.isLt,
      BitVec.ofNat_toNat, BitVec.setWidth_eq]
  · rw [Memory.load_half_store_word, Memory.load_store]
    exact BitVec.eq_of_toNat_eq (by simp [Width.bytes])

/-! ## Where a unit step stores -/

/-- Memory after a step of the command is as before, or has one value stored at the access of a phase that
writes (20_memory.md R65). -/
def StoresAtAccess (i : Instr) (s t : State) : Prop :=
  t.mem = s.mem ∨ ∃ a w v, unitAccess i s.unit = some (a, w) ∧ s.unit.phase.reads = false ∧
    t.mem = s.mem.store a w v

/-- A write through the port stores at its address or, refused, nowhere. -/
theorem portWrite_storesAtAccess {i : Instr} {a : Word} {w : Width} {v : Word} {s : State}
    {next : State → State} (hacc : unitAccess i s.unit = some (a, w)) (hph : s.unit.phase.reads = false)
    (hnext : ∀ t, (next t).mem = t.mem) : StoresAtAccess i s (portWrite i a w v s next) := by
  rcases portWrite_cases i a w v s next with ⟨-, e⟩ | ⟨-, e⟩ <;> rw [e]
  · exact .inr ⟨a, w, v, hacc, hph, hnext _⟩
  · exact .inl rfl

/-- A read through the port stores nowhere. -/
theorem portRead_storesAtAccess {i : Instr} {a : Word} {w : Width} {s : State} {next : Word → State}
    (hnext : ∀ x, (next x).mem = s.mem) : StoresAtAccess i s (portRead i a w s next) := by
  rcases portRead_cases i a w s next with ⟨-, e⟩ | ⟨-, e⟩ <;> rw [e]
  · exact .inl (hnext _)
  · exact .inl rfl

theorem repackPad_storesAtAccess {s : State} (hp : s.unit.phase = .rpPad) :
    StoresAtAccess .repack s (repackPad s) := by
  rcases repackPad_cases s with ⟨-, e⟩ | ⟨-, -, e⟩ | ⟨h0, h1, -, e⟩ | ⟨-, -, -, e⟩ <;> rw [e]
  · exact .inl rfl
  · exact .inl rfl
  · exact .inr ⟨_, _, _, by simp [unitAccess, Dqba.repackAccess, hp, h0, h1], hp ▸ rfl, rfl⟩
  · exact .inl rfl

theorem execRepack_storesAtAccess {s t : State} (h : execRepack s = .next t) :
    StoresAtAccess .repack s t := by
  rcases execRepack_next h with ⟨-, rfl⟩ | ⟨-, rfl⟩ | ⟨k, -, rfl⟩ | ⟨-, rfl⟩ | ⟨k, hp, rfl⟩ | ⟨-, rfl⟩ |
    ⟨hp, rfl⟩ | ⟨hp, rfl⟩ | ⟨hp, rfl⟩
  · rcases repackStart_cases s with ⟨-, e⟩ | ⟨-, -, e⟩ | ⟨-, -, -, -, -, e⟩ <;> exact .inl (e ▸ rfl)
  · rcases repackCheck_cases s with ⟨-, e⟩ | ⟨-, -, e⟩ | ⟨-, -, e⟩ <;> exact .inl (e ▸ rfl)
  · exact portRead_storesAtAccess fun _ => rfl
  · rcases repackBlock_cases s with ⟨-, e⟩ | ⟨-, e⟩ <;> exact .inl (e ▸ rfl)
  · exact portWrite_storesAtAccess (by simp [unitAccess, Dqba.repackAccess, hp]) (hp ▸ rfl) fun _ => rfl
  · rcases repackEval_cases s with ⟨-, e⟩ | ⟨-, e⟩ <;> exact .inl (e ▸ rfl)
  · exact portWrite_storesAtAccess (by simp [unitAccess, Dqba.repackAccess, hp]) (hp ▸ rfl) fun _ => rfl
  · exact portWrite_storesAtAccess (by simp [unitAccess, Dqba.repackAccess, hp]) (hp ▸ rfl) fun _ => rfl
  · exact repackPad_storesAtAccess hp

theorem remapCheck_storesAtAccess (i : Instr) (s : State) : StoresAtAccess i s (remapCheck s) := by
  rcases remapCheck_cases s with ⟨-, e⟩ | ⟨-, e⟩ <;> exact .inl (e ▸ rfl)

theorem execRemap32_storesAtAccess {s t : State} (h : execRemap32 s = .next t) :
    StoresAtAccess .remap32 s t := by
  rcases execRemap32_next h with ⟨-, rfl⟩ | ⟨-, rfl⟩ | ⟨-, rfl⟩ | ⟨-, rfl⟩ | ⟨hp, rfl⟩
  · rcases remap32Start_cases s with ⟨-, e⟩ | ⟨-, -, e⟩ <;> exact .inl (e ▸ rfl)
  · exact remapCheck_storesAtAccess _ s
  · exact portRead_storesAtAccess fun _ => rfl
  · exact portRead_storesAtAccess fun _ => rfl
  · exact portWrite_storesAtAccess (by simp [unitAccess, Dqba.remapAccess, hp]) (hp ▸ rfl) fun _ => rfl

theorem execRemapg_storesAtAccess {s t : State} (h : execRemapg s = .next t) :
    StoresAtAccess .remapg s t := by
  rcases execRemapg_next h with ⟨-, rfl⟩ | ⟨-, rfl⟩ | ⟨w, -, -, rfl⟩ | ⟨-, rfl⟩ | ⟨w, hw, hp, rfl⟩
  · rcases remapgStart_cases s with ⟨-, e⟩ | ⟨w, -, ⟨-, e⟩ | ⟨-, -, e⟩⟩ <;> exact .inl (e ▸ rfl)
  · exact remapCheck_storesAtAccess _ s
  · exact portRead_storesAtAccess fun _ => rfl
  · exact portRead_storesAtAccess fun _ => rfl
  · exact portWrite_storesAtAccess (by simp [unitAccess, Dqba.remapAccess, hw, hp]) (hp ▸ rfl)
      fun _ => rfl

theorem exec_storesAtAccess {i : Instr} {s t : State} (h : exec i s = .next t) : StoresAtAccess i s t := by
  cases i with
  | setbs => exact .inl ((exec_frame h).notSetbs rfl).2
  | repack => exact execRepack_storesAtAccess h
  | remap32 => exact execRemap32_storesAtAccess h
  | remapg => exact execRemapg_storesAtAccess h

/-- Settles O25: the one store a step may make lies at its access, and leaves every other byte alone. -/
theorem unitStepStoresOnlyAtItsAddress : Obligations.UnitStepStoresOnlyAtItsAddress := by
  intro i s t x h hx
  rcases exec_storesAtAccess h with e | ⟨a, w, v, hacc, hph, e⟩ <;> rw [e]
  exact Memory.readByte_store_of_outside s.mem a w v x fun j hj he => hx ⟨a, w, hacc, hph, j, hj, he⟩

/-! ## The end of a command writes no memory -/

/-- A step of REPACK that goes on is not idle, and the ways to end write no memory. -/
theorem RepackStep.mem_of_idle {s t : State} (h : RepackStep s t) (hi : t.unit.phase = .idle) :
    t.mem = s.mem := by
  cases h with
  | goesOn m i p b v a ph hm hph ha => exact absurd hi hph
  | succeeds hph => rfl
  | fails e => rfl

/-- A step of a remap command that goes on is not idle, and the ways to end write no memory. -/
theorem RemapStep.mem_of_idle {cmd : Instr} {s t : State} (h : RemapStep cmd s t)
    (hi : t.unit.phase = .idle) : t.mem = s.mem := by
  cases h with
  | goesOn m i iv tv ph hm hph => exact absurd hi hph
  | succeeds => rfl
  | fails e => rfl

theorem exec_mem_of_idle {i : Instr} {s t : State} (h : exec i s = .next t) (hi : t.unit.phase = .idle) :
    t.mem = s.mem := by
  cases i with
  | setbs => exact ((exec_frame h).notSetbs rfl).2
  | repack => exact (execRepack_step h).mem_of_idle hi
  | remap32 => exact (execRemap32_step h).mem_of_idle hi
  | remapg => exact (execRemapg_step h).mem_of_idle hi

/-- Settles O26: a step that ends the command stores nothing, and completes or fails; the frame says the
rest. -/
theorem endingStepWritesNothing : Obligations.EndingStepWritesNothing := by
  intro i s t h
  have hf := exec_frame h
  refine ⟨fun hi => ⟨exec_mem_of_idle h hi, ?_⟩, fun hi => (hf.goesOn hi).1⟩
  rcases hf.ends hi with e | ⟨er, e⟩ <;> rw [e]
  · exact ⟨rfl, rfl⟩
  · exact ⟨rfl, rfl⟩

/-! ## Alignment of the unit's accesses (20_memory.md R63) -/

/-- An element address is a multiple of the width when the base is, the wrap at 2^32 included. -/
theorem toNat_mod_of_base {base n k : Nat} (hn : n ∣ 2 ^ 32) (hb : base % n = 0) :
    (BitVec.ofNat 32 (base + n * k)).toNat % n = 0 := by
  rw [BitVec.toNat_ofNat, Nat.mod_mod_of_dvd _ hn, Nat.add_mul_mod_self_left, hb]

theorem Width.bytes_dvd (w : Width) : Width.bytes w ∣ 2 ^ 32 := by cases w <;> decide

/-- With operands the start checks let through, every access of REPACK is aligned. -/
theorem Dqba.repackAccess_aligned {u : Dqba} {a : Word} {w : Width} (hl : u.repackLegal)
    (h : u.repackAccess = some (a, w)) : a.toNat % Width.bytes w = 0 := by
  obtain ⟨-, hin, hanc, hpk, hrm⟩ := hl
  unfold Dqba.repackAccess at h
  split at h
  case h_1 k _ => cases h; exact toNat_mod_of_base (Width.bytes_dvd .half) hin
  case h_2 k _ => cases h; exact toNat_mod_of_base (Width.bytes_dvd .half) hanc
  case h_3 => cases h; exact toNat_mod_of_base (Width.bytes_dvd .word) hpk
  case h_4 => cases h; exact toNat_mod_of_base (Width.bytes_dvd .word) hrm
  case h_5 =>
    split_ifs at h
    cases h
    exact toNat_mod_of_base (Width.bytes_dvd .word) hpk
  all_goals cases h

/-- With aligned bases every access of a remap command is aligned. -/
theorem Dqba.remapAccess_aligned {u : Dqba} {a : Word} {v w : Width}
    (hidx : u.rmIdx.toNat % Width.bytes v = 0) (htbl : u.rmTbl.toNat % 4 = 0)
    (h : u.remapAccess v = some (a, w)) : a.toNat % Width.bytes w = 0 := by
  unfold Dqba.remapAccess at h
  split at h
  case h_1 => cases h; exact toNat_mod_of_base (Width.bytes_dvd v) hidx
  case h_2 => cases h; exact toNat_mod_of_base (Width.bytes_dvd .word) htbl
  case h_3 => cases h; exact toNat_mod_of_base (Width.bytes_dvd v) hidx
  all_goals cases h

/-- Only a running REPACK is in a phase with one of its accesses. -/
theorem Dqba.repackRunning_of_access {u : Dqba} {x : Word × Width} (hinv : u.phaseInv)
    (h : u.repackAccess = some x) : u.repackRunning := by
  unfold Dqba.repackAccess at h
  unfold Dqba.phaseInv at hinv
  cases hp : u.phase <;> simp only [hp] at h hinv
  case rpRead | rpAnchor | rpPack | rpRemap | rpPad => exact hinv.1
  all_goals cases h

/-- Only a remap command in its loop is in a phase with one of its accesses. -/
theorem Dqba.remapLegal_of_access {u : Dqba} {w : Width} {x : Word × Width} (hinv : u.phaseInv)
    (h : u.remapAccess w = some x) : u.remapLegal := by
  unfold Dqba.remapAccess at h
  unfold Dqba.phaseInv at hinv
  cases hp : u.phase <;> simp only [hp] at h hinv
  case rmRdIdx | rmRdTbl | rmWrIdx => exact hinv.1
  all_goals cases h

theorem Dqba.remap32Legal_of_remapLegal {u : Dqba} (hc : u.lopc = encode .remap32) (h : u.remapLegal) :
    u.remap32Legal := by
  rcases h with ⟨-, hl⟩ | ⟨hg, -⟩
  · exact hl
  · exact absurd (hc.symm.trans hg) (by decide)

theorem Dqba.remapgLegal_of_remapLegal {u : Dqba} (hc : u.lopc = encode .remapg) (h : u.remapLegal) :
    u.remapgLegal := by
  rcases h with ⟨h32, -⟩ | ⟨-, hl⟩
  · exact absurd (hc.symm.trans h32) (by decide)
  · exact hl

/-- Settles O27: a unit in a phase with an access has passed its command's alignment check. -/
theorem unitAccessesAreAligned : Obligations.UnitAccessesAreAligned := by
  rintro i u a w ⟨-, -, -, hinv⟩ hd hacc
  have hc := eq_encode_of_decode hd
  cases i with
  | setbs => cases hacc
  | repack => exact Dqba.repackAccess_aligned (Dqba.repackRunning_of_access hinv hacc).2 hacc
  | remap32 =>
    obtain ⟨hidx, htbl⟩ := Dqba.remap32Legal_of_remapLegal hc (Dqba.remapLegal_of_access hinv hacc)
    exact Dqba.remapAccess_aligned (v := .word) hidx htbl hacc
  | remapg =>
    obtain ⟨v, hv, hacc⟩ := Option.bind_eq_some_iff.mp hacc
    obtain ⟨-, hidx, htbl⟩ := Dqba.remapgLegal_of_remapLegal hc (Dqba.remapLegal_of_access hinv hacc)
    rw [← (strideWidth_bytes hv).1] at hidx
    exact Dqba.remapAccess_aligned hidx htbl hacc

end Sys2Proof.Machine

namespace Sys2Proof.Machine
/-! ## The command words (30_encoding.md R92, R93) -/

/-- The word of each command decodes to it. -/
theorem decode_encode : ∀ i, decode (encode i) = .ok i
  | .setbs => rfl
  | .repack => rfl
  | .remap32 => rfl
  | .remapg => rfl

/-- Settles O2: `decode_encode`, and the word of a decoded command is that command's. -/
theorem decodeAndEncodeAgree : Obligations.DecodeAndEncodeAgree :=
  ⟨decode_encode, fun _ _ => eq_encode_of_decode⟩

/-- Settles O1: the four words are the commands' encodings, and a word that decodes is one of those. -/
theorem commandWordsDecodeAsTheTableSays : Obligations.CommandWordsDecodeAsTheTableSays := by
  refine ⟨decode_encode .setbs, decode_encode .repack, decode_encode .remap32, decode_encode .remapg,
    fun w i h => ?_⟩
  have hw := eq_encode_of_decode h
  cases i with
  | setbs => exact .inl hw
  | repack => exact .inr (.inl hw)
  | remap32 => exact .inr (.inr (.inl hw))
  | remapg => exact .inr (.inr (.inr hw))

/-! ## The operations of a host program (30_encoding.md R98) -/

/-- A register write at the address of an offset of the window reaches the unit's register there. -/
theorem State.busWrite_windowAddr (s : State) {off : Nat} (h : off < 0x40) (bytes : Nat) (v : Word) :
    s.busWrite (s.windowAddr off) bytes v = s.withUnit (s.unit.windowWrite off bytes v) := by
  simp only [State.busWrite, State.windowAddr, s.unit.offsetOf_window h]

/-- A register read at the address of an offset of the window records the unit's register there. -/
theorem State.busRead_windowAddr (s : State) {off : Nat} (h : off < 0x40) (bytes : Nat) :
    s.busRead (s.windowAddr off) bytes = s.logRead (s.unit.windowRead off bytes).toNat := by
  simp only [State.busRead, readWindows, State.windowAddr, s.unit.offsetOf_window h]

/-- The program's turn runs the operation its line names, when that has a meaning. -/
theorem hostLine_of_getElem {s : State} {op : HostOp} (hop : s.program[s.line]? = some op)
    (hwf : op.wellFormed = true) : hostLine s = .next (hostOp op s) := by
  simp only [hostLine, hop, hwf, if_true]

/-- Settles O45: each operation inside the window is well formed, and its access reaches the unit's own
register at that offset. -/
theorem programOperationsActOnTheWindow : Obligations.ProgramOperationsActOnTheWindow := by
  intro s off hoff
  refine ⟨fun v hop => ?_, fun hop => ?_, fun n target hn hop => ?_⟩
  · rw [hostLine_of_getElem hop (decide_eq_true hoff), hostOp, s.busWrite_windowAddr hoff]
    rfl
  · rw [hostLine_of_getElem hop (decide_eq_true hoff), hostOp, s.busRead_windowAddr hoff]
    rfl
  · have hwf : (HostOp.bit off n target).wellFormed = true := by
      simp [HostOp.wellFormed, hn, hoff, Config.windowBytes]
    rw [hostLine_of_getElem hop hwf, hostOp]
    split <;> rfl

/-! ## The expansion of a program (30_encoding.md R98 to R100) -/

/-- Settles O46: a command line is its operand writes from ARG0 up and the CMD write of its word, which
both compute; the other lines are clauses of `AsmLine.ops`. -/
theorem commandLinesExpandToRegisterWrites : Obligations.CommandLinesExpandToRegisterWrites := by
  intro labels here n inp anc pk rm stride max
  exact ⟨rfl, rfl, rfl, rfl, rfl, rfl, rfl, rfl, fun _ => rfl, fun _ _ => rfl, fun _ => rfl,
    fun _ _ _ => rfl, fun _ => rfl⟩

/-- How many operations a line expands to depends neither on the labels nor on where it stands. -/
@[simp] theorem AsmLine.length_ops (labels : Nat → Nat) (here : Nat) (l : AsmLine) :
    (l.ops labels here).length = l.size := by
  cases l <;> rfl

/-- The expansion of lines in a row: the later ones start at the operation the earlier ones end at. -/
theorem expandFrom_append (labels : Nat → Nat) (here : Nat) (xs ys : List AsmLine) :
    expandFrom labels here (xs ++ ys) =
      expandFrom labels here xs ++
        expandFrom labels (here + (expandFrom labels here xs).length) ys := by
  induction xs generalizing here with
  | nil => rfl
  | cons x xs ih => simp [expandFrom, ih, Nat.add_assoc]

/-- A label line takes no operation: the line after it starts where the label stands. -/
theorem expandFrom_append_label (labels : Nat → Nat) (before : List AsmLine) (name : Nat)
    (rest : List AsmLine) :
    expandFrom labels 0 (before ++ .label name :: rest) =
      expandFrom labels 0 before ++ expandFrom labels (expandFrom labels 0 before).length rest := by
  rw [expandFrom_append, Nat.zero_add]
  rfl

/-- The first label of a name stands where the expansion of the lines before it ends. -/
theorem labelAt_append_label (labels : Nat → Nat) (here : Nat) {before : List AsmLine} {name : Nat}
    (h : .label name ∉ before) (rest : List AsmLine) :
    labelAt here (before ++ .label name :: rest) name =
      some (here + (expandFrom labels here before).length) := by
  induction before generalizing here with
  | nil => simp [labelAt, expandFrom]
  | cons l ls ih =>
    obtain ⟨hl, hls⟩ := List.ne_and_not_mem_of_not_mem_cons h
    simp [labelAt, expandFrom, Ne.symm hl, ih _ hls, Nat.add_assoc]

theorem labelsOf_eq {prog : List AsmLine} {name k : Nat} (h : labelAt 0 prog name = some k) :
    labelsOf prog name = k := by
  rw [labelsOf, h, Option.getD_some]

/-- A bit line expands, where the lines before it end, to a branch to where its label stands. -/
theorem getElem_expandFrom_bit (labels : Nat → Nat) (here off n name : Nat) (l r : List AsmLine) :
    (expandFrom labels here (l ++ .bit off n name :: r))[(expandFrom labels here l).length]? =
      some (.bit off n (labels name)) := by
  rw [expandFrom_append, List.getElem?_append_right le_rfl, Nat.sub_self]
  rfl

/-- The expansion of a program that has one. -/
theorem eq_expandFrom_of_assemble {prog : List AsmLine} {ops : List HostOp}
    (h : assemble prog = some ops) : ops = expandFrom (labelsOf prog) 0 prog := by
  unfold assemble at h
  split_ifs at h
  exact (Option.some.inj h).symm

/-- Settles O47: the label stands at the end of the expansion of the lines before it, which is where a
branch to it goes from anywhere in the program. -/
theorem labelsNameTheNextLine : Obligations.LabelsNameTheNextLine := by
  intro before rest name ops hfirst hops
  have hexp := eq_expandFrom_of_assemble hops
  have hat := labelAt_append_label (labelsOf (before ++ .label name :: rest)) 0 hfirst rest
  rw [Nat.zero_add] at hat
  refine ⟨_, _, hexp.trans (expandFrom_append_label _ before name rest), rfl, rfl, hat,
    fun l r off n hlr => ?_⟩
  have hbit := getElem_expandFrom_bit (labelsOf (before ++ .label name :: rest)) 0 off n name l r
  rwa [← hlr, ← hexp, labelsOf_eq hat] at hbit

end Sys2Proof.Machine

namespace Sys2Proof.Machine
/-! ## The two phases of SETBS (40_block_size.md R110) -/

/-- SETBS leaves DECODE for SB_WRITE, with nothing else done yet. -/
theorem execSetbs_of_decode {s : State} (h : s.unit.phase = .decode) :
    execSetbs s = .next (s.goto .sbWrite) := by
  simp only [execSetbs, h]

/-- SETBS at SB_WRITE stores its operand and completes. -/
theorem execSetbs_of_sbWrite {s : State} (h : s.unit.phase = .sbWrite) :
    execSetbs s = .next (setBlockSize s) := by
  simp only [execSetbs, h]

/-- Settles O14: the latches of an accepted command are the ARG registers, and each phase of SETBS is the
one named update of the state its equation gives, spelled out field by field. -/
theorem setbsStoresAnyValue : Obligations.SetbsStoresAnyValue := by
  refine ⟨decode_encode .setbs, fun u hidle => ?_, fun s => ⟨fun hp => ?_, fun hp => ?_⟩⟩
  · rw [u.windowWrite_cmd, Dqba.writeCmd_idle hidle, Dqba.accept_latch]
  · exact execSetbs_of_decode hp
  · exact execSetbs_of_sbWrite hp

end Sys2Proof.Machine

namespace Sys2Proof.Machine
/-! ## The range decision of one axis (41_delta_datapath.md R121 to R125) -/

theorem clamp_of_mem {v lo hi : Int} (hlo : lo ≤ v) (hhi : v ≤ hi) : clamp v lo hi = v := by
  rw [clamp, if_neg (not_lt.mpr hlo), if_neg (not_lt.mpr hhi)]

theorem clamp_of_lt {v lo hi : Int} (h : v < lo) : clamp v lo hi = lo := if_pos h

theorem clamp_of_gt {v lo hi : Int} (hle : lo ≤ hi) (h : hi < v) : clamp v lo hi = hi := by
  rw [clamp, if_neg (not_lt.mpr (hle.trans h.le)), if_pos h]

/-- Settles O28: the three cases of the clamp. -/
theorem subtractorSaturates : Obligations.SubtractorSaturates := fun _ _ =>
  ⟨clamp_of_mem, clamp_of_lt, clamp_of_gt (by decide)⟩

theorem inRange_iff {d : Int} : inRange d = true ↔ 0 ≤ d ∧ d ≤ 1023 := by
  simp [inRange]

theorem delta_eq (c a : Half) : delta c a = 512 + sub16s c a := rfl

/-- Every displacement the comparator accepts lies inside the subtractor's range, and a saturated one is
far outside what it accepts. -/
theorem inRange_delta_iff {c a : Half} :
    inRange (delta c a) = true ↔
      -512 ≤ (c.toNat : Int) - a.toNat ∧ (c.toNat : Int) - a.toNat ≤ 511 := by
  obtain ⟨hexact, hlow, hhigh⟩ := subtractorSaturates c a
  rw [inRange_iff, delta_eq]
  rcases lt_or_ge ((c.toNat : Int) - a.toNat) (-32768) with h | hge
  · rw [hlow h]
    omega
  · rcases lt_or_ge 32767 ((c.toNat : Int) - a.toNat) with h | hle
    · rw [hhigh h]
      omega
    · rw [hexact hge hle]
      omega

/-- A delta in range is not saturated. -/
theorem delta_of_inRange {c a : Half} (h : inRange (delta c a) = true) :
    delta c a = 512 + ((c.toNat : Int) - a.toNat) := by
  obtain ⟨hlo, hhi⟩ := inRange_delta_iff.mp h
  rw [delta_eq, sub16s, clamp_of_mem (by omega) (by omega)]

/-- Settles O29: the two facts about one axis. -/
theorem saturationChangesNoRangeDecision : Obligations.SaturationChangesNoRangeDecision := fun _ _ =>
  ⟨inRange_delta_iff, delta_of_inRange⟩

theorem ovf_eq_false_iff {v a : Vec3} :
    ovf v a = false ↔ inRange (delta v.x a.x) = true ∧ inRange (delta v.y a.y) = true ∧
      inRange (delta v.z a.z) = true := by
  simp [ovf, and_assoc]

theorem delta_self (c : Half) : delta c c = 512 := by
  have h : inRange (delta c c) = true := inRange_delta_iff.mpr (by omega)
  rw [delta_of_inRange h, sub_self, add_zero]

/-- Settles O31: every delta is the bias, so the word is one closed term. -/
theorem firstVertexOfABlockNeverOverflows : Obligations.FirstVertexOfABlockNeverOverflows := by
  intro v
  refine ⟨delta_self v.x, delta_self v.y, delta_self v.z, ovf_self v, ?_, by decide⟩
  rw [vertexWord, delta_self, delta_self, delta_self]

/-! ## The packed word (41_delta_datapath.md R126 to R131) -/

/-- A delta in range is below 2^10, so no bit of it is shifted out on its way to a field. -/
theorem toNat_fieldWord_shiftLeft {d : Int} {k : Nat} (hd : inRange d = true) (hk : k ≤ 22) :
    (fieldWord d <<< k).toNat = d.toNat <<< k := by
  obtain ⟨-, hmax⟩ := inRange_iff.mp hd
  have hword : (fieldWord d).toNat = d.toNat := Nat.mod_eq_of_lt (by omega)
  have hfits : d.toNat <<< k < 2 ^ 32 := calc
    d.toNat <<< k < 2 ^ (10 + k) := Nat.shiftLeft_lt (by omega)
    _ ≤ 2 ^ 32 := Nat.pow_le_pow_right (by decide) (by omega)
  rw [BitVec.toNat_shiftLeft, hword, Nat.mod_eq_of_lt hfits]

section Packed
variable {dx dy dz : Int} (hx : inRange dx = true) (hy : inRange dy = true) (hz : inRange dz = true)
include hx hy hz

/-- Fields in range do not overlap: the packed word is the sum of the deltas at their places. -/
theorem toNat_packw :
    (packw dx dy dz).toNat = dx.toNat * 2 ^ 22 + dy.toNat * 2 ^ 12 + dz.toNat * 2 ^ 2 := by
  obtain ⟨-, hy'⟩ := inRange_iff.mp hy
  obtain ⟨-, hz'⟩ := inRange_iff.mp hz
  have hxy : dx.toNat <<< 22 ||| dy.toNat <<< 12 = (dx.toNat <<< 10 + dy.toNat) <<< 12 := by
    rw [Nat.shiftLeft_add_eq_or_of_lt (by omega), Nat.shiftLeft_or_distrib, ← Nat.shiftLeft_add]
  rw [packw, BitVec.toNat_or, BitVec.toNat_or, toNat_fieldWord_shiftLeft hx (by decide),
    toNat_fieldWord_shiftLeft hy (by decide), toNat_fieldWord_shiftLeft hz (by decide), hxy,
    ← Nat.shiftLeft_add_eq_or_of_lt (by omega)]
  omega

/-- Each field of the packed word holds its delta. -/
theorem fields_packw : (xField (packw dx dy dz)).toNat = dx.toNat ∧
    (yField (packw dx dy dz)).toNat = dy.toNat ∧ (zField (packw dx dy dz)).toNat = dz.toNat := by
  simp only [xField, yField, zField, BitVec.extractLsb'_toNat, toNat_packw hx hy hz]
  rw [inRange_iff] at hx hy hz
  omega

theorem lowBits_packw : (packw dx dy dz).extractLsb' 0 2 = 0#2 := by
  apply BitVec.eq_of_toNat_eq
  rw [BitVec.extractLsb'_toNat, toNat_packw hx hy hz, BitVec.toNat_ofNat]
  omega

/-- Each delta can be read back from its field, so the word determines all three. -/
theorem packw_inj {ex ey ez : Int} (hx' : inRange ex = true) (hy' : inRange ey = true)
    (hz' : inRange ez = true) (h : packw dx dy dz = packw ex ey ez) : dx = ex ∧ dy = ey ∧ dz = ez := by
  have hd := fields_packw hx hy hz
  have he := fields_packw hx' hy' hz'
  rw [h] at hd
  rw [inRange_iff] at hx hy hz hx' hy' hz'
  omega

theorem packw_eq_zero_iff : packw dx dy dz = 0#32 ↔ dx = 0 ∧ dy = 0 ∧ dz = 0 := by
  have h0 : inRange 0 = true := by decide
  have hw : packw 0 0 0 = 0#32 := by decide
  constructor
  · intro h
    exact packw_inj hx hy hz h0 h0 h0 (h.trans hw.symm)
  · rintro ⟨rfl, rfl, rfl⟩
    exact hw

end Packed

/-- Settles O30: the fields are read off the sum `toNat_packw`. -/
theorem packedWordLayout : Obligations.PackedWordLayout := by
  intro dx dy dz hx hy hz
  obtain ⟨hfx, hfy, hfz⟩ := fields_packw hx hy hz
  exact ⟨hfx, hfy, hfz, lowBits_packw hx hy hz, fun _ _ _ => packw_inj hx hy hz⟩

theorem delta_eq_zero_iff {c a : Half} (h : inRange (delta c a) = true) :
    delta c a = 0 ↔ (c.toNat : Int) = a.toNat - 512 := by
  rw [delta_of_inRange h]
  omega

/-- Settles O32: the word is 0 where all three deltas are, which are the displacements plus 512. -/
theorem zeroWordCanBeAVertex : Obligations.ZeroWordCanBeAVertex := by
  intro v a h
  obtain ⟨hx, hy, hz⟩ := ovf_eq_false_iff.mp h
  rw [vertexWord, packw_eq_zero_iff hx hy hz, delta_eq_zero_iff hx, delta_eq_zero_iff hy,
    delta_eq_zero_iff hz]

/-- A field that holds an in-range delta leads from the anchor's component back to the vertex's. -/
theorem decodeAxis_of_delta {c a : Half} {f : BitVec 10} (h : inRange (delta c a) = true)
    (hf : f.toNat = (delta c a).toNat) : decodeAxis a f = c.toNat := by
  obtain ⟨hlo, -⟩ := inRange_iff.mp h
  rw [decodeAxis, hf, Int.toNat_of_nonneg hlo, delta_of_inRange h, Config.deltaBias]
  omega

/-- Settles O33: each field of the word holds its axis's exact delta. -/
theorem packedWordDecodesToItsVertex : Obligations.PackedWordDecodesToItsVertex := by
  intro v a h
  obtain ⟨hx, hy, hz⟩ := ovf_eq_false_iff.mp h
  obtain ⟨hxlo, hxhi⟩ := inRange_delta_iff.mp hx
  obtain ⟨hylo, hyhi⟩ := inRange_delta_iff.mp hy
  obtain ⟨hzlo, hzhi⟩ := inRange_delta_iff.mp hz
  obtain ⟨hfx, hfy, hfz⟩ := fields_packw hx hy hz
  exact ⟨decodeAxis_of_delta hx hfx, decodeAxis_of_delta hy hfy, decodeAxis_of_delta hz hfz,
    hxlo, hxhi, hylo, hyhi, hzlo, hzhi⟩

end Sys2Proof.Machine

namespace Sys2Proof.Machine
/-! ## The phases of REPACK (42_repack.md R140)

Which function runs in each phase of `execRepack`; `repackStart_cases` to `repackPad_cases` then say what it
does. -/

theorem execRepack_of_decode {s : State} (h : s.unit.phase = .decode) :
    execRepack s = .next (repackStart s) := by
  simp only [execRepack, h]

theorem execRepack_of_rpCheck {s : State} (h : s.unit.phase = .rpCheck) :
    execRepack s = .next (repackCheck s) := by
  simp only [execRepack, h]

theorem execRepack_of_rpRead {s : State} {k : Fin 3} (h : s.unit.phase = .rpRead k) :
    execRepack s = .next (repackRead k s) := by
  simp only [execRepack, h]

theorem execRepack_of_rpBlock {s : State} (h : s.unit.phase = .rpBlock) :
    execRepack s = .next (repackBlock s) := by
  simp only [execRepack, h]

theorem execRepack_of_rpAnchor {s : State} {k : Fin 3} (h : s.unit.phase = .rpAnchor k) :
    execRepack s = .next (repackAnchor k s) := by
  simp only [execRepack, h]

theorem execRepack_of_rpEval {s : State} (h : s.unit.phase = .rpEval) :
    execRepack s = .next (repackEval s) := by
  simp only [execRepack, h]

theorem execRepack_of_rpPack {s : State} (h : s.unit.phase = .rpPack) :
    execRepack s = .next (repackPack s) := by
  simp only [execRepack, h]

theorem execRepack_of_rpRemap {s : State} (h : s.unit.phase = .rpRemap) :
    execRepack s = .next (repackRemap s) := by
  simp only [execRepack, h]

theorem execRepack_of_rpPad {s : State} (h : s.unit.phase = .rpPad) :
    execRepack s = .next (repackPad s) := by
  simp only [execRepack, h]

theorem exec_repack (s : State) : exec .repack s = execRepack s := rfl

/-! ## The steps of REPACK, spelled out -/

/-- Settles O15: the three ways REPACK's start ends exclude each other. -/
theorem repackChecksThenInitialises : Obligations.RepackChecksThenInitialises := by
  intro s hp
  rw [exec_repack, execRepack_of_decode hp]
  rcases repackStart_cases s with ⟨hbs, e⟩ | ⟨hbs, hbad, e⟩ | ⟨hbs, hin, hanc, hpk, hrm, e⟩ <;> rw [e]
  · exact ⟨fun _ => rfl, fun h => absurd h (not_lt.mpr hbs), fun h => absurd h (not_lt.mpr hbs)⟩
  · refine ⟨fun h => absurd hbs (not_lt.mpr h), fun _ _ => rfl, fun _ hin hanc hpk hrm => ?_⟩
    simp only [Dqba.rpIn, Dqba.rpAnc, Dqba.rpPk, Dqba.rpRm] at hbad
    omega
  · refine ⟨fun h => absurd hbs (not_lt.mpr h), fun _ hbad => ?_, fun _ _ _ _ _ => rfl⟩
    simp only [Dqba.rpIn, Dqba.rpAnc, Dqba.rpPk, Dqba.rpRm] at hin hanc hpk hrm
    omega

/-- Settles O16: the three ways RP_CHECK ends exclude each other. -/
theorem repackCheckEndsFailsOrReads : Obligations.RepackCheckEndsFailsOrReads := by
  intro s hp
  rw [exec_repack, execRepack_of_rpCheck hp]
  rcases repackCheck_cases s with ⟨hi, e⟩ | ⟨hi, hmax, e⟩ | ⟨hi, hmax, e⟩ <;> rw [e]
  · exact ⟨fun _ => rfl, fun h => absurd hi h, fun h => absurd hi h⟩
  · exact ⟨fun h => absurd h hi, fun _ _ => rfl, fun _ h => absurd hmax (not_le.mpr h)⟩
  · exact ⟨fun h => absurd h hi, fun _ h => absurd hmax (not_lt.mpr h), fun _ _ => rfl⟩

/-- An admitted read of component `k` latches what memory holds at its address. -/
theorem execRepack_of_read {s : State} {k : Fin 3} (hp : s.unit.phase = .rpRead k)
    (hok : memOK s.refused (s.unit.inputAddr s.unit.i.toNat k) .half = true) :
    execRepack s =
      .next (s.withUnit { s.unit with
        v := s.unit.v.set k (halfAt s.mem (s.unit.inputAddr s.unit.i.toNat k))
        phase := afterRead k }) := by
  have hload : (s.mem.load (s.unit.inputAddr s.unit.i.toNat k) .half).setWidth 16 =
      halfAt s.mem (s.unit.inputAddr s.unit.i.toNat k) := by
    rw [Memory.load_half, BitVec.setWidth_setWidth_of_le _ (by decide), BitVec.setWidth_eq]
  rw [execRepack_of_rpRead hp, repackRead, portRead_admitted hok, hload]

/-- Settles O17: the address is `inputAddr` of the vertex and component. -/
theorem repackReadsTheVertex : Obligations.RepackReadsTheVertex := by
  intro s a
  refine ⟨fun hp ha hok => ?_, fun hp ha hok => ?_, fun hp ha hok => ?_⟩ <;> subst ha
  all_goals exact execRepack_of_read hp hok

/-- Settles O18: the two ways RP_BLOCK ends. -/
theorem repackStartsABlockAtItsFirstSlot : Obligations.RepackStartsABlockAtItsFirstSlot := by
  intro s hp
  rw [exec_repack, execRepack_of_rpBlock hp]
  rcases repackBlock_cases s with ⟨h0, e⟩ | ⟨h0, e⟩ <;> rw [e]
  · exact ⟨fun _ => rfl, fun h => absurd h0 h⟩
  · exact ⟨fun h => absurd h h0, fun _ => rfl⟩

/-- An admitted store of anchor component `k`. -/
theorem execRepack_of_anchor {s : State} {k : Fin 3} (hp : s.unit.phase = .rpAnchor k)
    (hok : memOK s.refused (s.unit.anchorAddr s.unit.b.toNat k) .half = true) :
    execRepack s =
      .next ((s.withMem (s.mem.store (s.unit.anchorAddr s.unit.b.toNat k) .half
        ((s.unit.anchor.get k).setWidth 32))).goto (afterAnchor k)) := by
  rw [execRepack_of_rpAnchor hp, repackAnchor, portWrite_admitted hok]

theorem Memory.storesHalf_store_setWidth (m : Memory) (a : Word) (h : Half) :
    storesHalf m (m.store a .half (h.setWidth 32)) a h := by
  have hlow : (h.setWidth 32).extractLsb' 0 16 = h := by
    refine BitVec.eq_of_toNat_eq ?_
    simpa [BitVec.extractLsb'_toNat] using h.isLt
  simpa only [hlow] using Memory.storesHalf_store m a (h.setWidth 32)

/-- Settles O19: the address is `anchorAddr` of the block and component, and the store puts the two bytes
of the component there. -/
theorem repackStoresTheAnchor : Obligations.RepackStoresTheAnchor := by
  intro s a
  refine ⟨fun hp ha hok => ?_, fun hp ha hok => ?_, fun hp ha hok => ?_⟩ <;> subst ha
  all_goals exact ⟨_, Memory.storesHalf_store_setWidth _ _ _, execRepack_of_anchor hp hok⟩

/-- A vertex does not overflow exactly when every axis displacement lies in -512..511
(41_delta_datapath.md R124, R125). -/
theorem ovf_eq_false_iff_displacements {v a : Vec3} :
    ovf v a = false ↔
      (-512 ≤ (v.x.toNat : Int) - a.x.toNat ∧ (v.x.toNat : Int) - a.x.toNat ≤ 511) ∧
      (-512 ≤ (v.y.toNat : Int) - a.y.toNat ∧ (v.y.toNat : Int) - a.y.toNat ≤ 511) ∧
      (-512 ≤ (v.z.toNat : Int) - a.z.toNat ∧ (v.z.toNat : Int) - a.z.toNat ≤ 511) := by
  rw [ovf_eq_false_iff, inRange_delta_iff, inRange_delta_iff, inRange_delta_iff]

/-- Settles O20: the overflow detector is the condition on exact displacements. -/
theorem repackOverflowSelectsPadding : Obligations.RepackOverflowSelectsPadding := by
  intro s hp
  rw [exec_repack, execRepack_of_rpEval hp]
  rcases repackEval_cases s with ⟨ho, e⟩ | ⟨ho, e⟩ <;> rw [e]
  · have hnot : ¬ ovf s.unit.v s.unit.anchor = false := by simp [ho]
    rw [if_neg (mt ovf_eq_false_iff_displacements.mpr hnot)]
    rfl
  · rw [if_pos (ovf_eq_false_iff_displacements.mp ho)]
    rfl

/-- An admitted store of the packed word. -/
theorem execRepack_of_pack {s : State} (hp : s.unit.phase = .rpPack)
    (hok : memOK s.refused (s.unit.packedAddr s.unit.p.toNat) .word = true) :
    execRepack s =
      .next ((s.withMem (s.mem.store (s.unit.packedAddr s.unit.p.toNat) .word
        (vertexWord s.unit.v s.unit.anchor))).goto .rpRemap) := by
  rw [execRepack_of_rpPack hp, repackPack, portWrite_admitted hok]

/-- An admitted store of the remap entry. -/
theorem execRepack_of_remap {s : State} (hp : s.unit.phase = .rpRemap)
    (hok : memOK s.refused (s.unit.remapAddr s.unit.i.toNat) .word = true) :
    execRepack s =
      .next ((s.withMem (s.mem.store (s.unit.remapAddr s.unit.i.toNat) .word s.unit.p)).withUnit
        { s.unit with p := s.unit.p + 1#32, i := s.unit.i + 1#32, phase := .rpCheck }) := by
  rw [execRepack_of_rpRemap hp, repackRemap, portWrite_admitted hok]
  rfl

/-- Settles O21: the addresses are `packedAddr` of `p` and `remapAddr` of `i`. -/
theorem repackPacksThenRecordsTheSlot : Obligations.RepackPacksThenRecordsTheSlot := by
  intro s a hok
  refine ⟨fun hp ha => ?_, fun hp ha => ?_⟩
  · subst ha
    exact ⟨_, Memory.storesWord_store _ _ _, execRepack_of_pack hp hok⟩
  · subst ha
    exact ⟨_, Memory.storesWord_store _ _ _, execRepack_of_remap hp hok⟩

/-- An admitted store of a padding word. -/
theorem execRepack_of_pad {s : State} (hp : s.unit.phase = .rpPad)
    (hin : s.unit.p.toNat % s.unit.lbs.toNat ≠ 0) (hmax : s.unit.p.toNat < s.unit.rpMax.toNat)
    (hok : memOK s.refused (s.unit.packedAddr s.unit.p.toNat) .word = true) :
    execRepack s =
      .next ((s.withMem (s.mem.store (s.unit.packedAddr s.unit.p.toNat) .word 0#32)).withUnit
        { s.unit with p := s.unit.p + 1#32 }) := by
  rw [execRepack_of_rpPad hp]
  rcases repackPad_cases s with ⟨h, -⟩ | ⟨-, h, -⟩ | ⟨-, -, -, e⟩ | ⟨-, -, h, -⟩
  · exact absurd h hin
  · exact absurd hmax (not_lt.mpr h)
  · rw [e]
  · simp [hok] at h

/-- Settles O22: the ways RP_PAD ends, told apart by the block boundary and the capacity. -/
theorem repackPadsThenRetries : Obligations.RepackPadsThenRetries := by
  intro s hp
  refine ⟨fun h0 => ?_, fun h0 hmax => ?_, fun h0 hmax a ha hok => ?_⟩
  · rw [exec_repack, execRepack_of_rpPad hp]
    rcases repackPad_cases s with ⟨-, e⟩ | ⟨h, -⟩ | ⟨h, -⟩ | ⟨h, -⟩
    · rw [e]
      rfl
    all_goals exact absurd h0 h
  · rw [exec_repack, execRepack_of_rpPad hp]
    rcases repackPad_cases s with ⟨h, -⟩ | ⟨-, -, e⟩ | ⟨-, h, -⟩ | ⟨-, h, -⟩
    · exact absurd h h0
    · rw [e]
      rfl
    all_goals exact absurd hmax (not_le.mpr h)
  · subst ha
    exact ⟨_, Memory.storesWord_store _ _ _, execRepack_of_pad hp h0 hmax hok⟩

end Sys2Proof.Machine

namespace Sys2Proof.Machine
/-! ## What the invariant says of a REPACK step (42_repack.md R153 to R157) -/

/-- Only RP_BLOCK leads to the first anchor write, with `p` and the block size as they were. -/
theorem execRepack_to_anchor {s t : State} (ht : execRepack s = .next t)
    (hp : t.unit.phase = .rpAnchor 0) : s.unit.phase = .rpBlock ∧ t.unit.p = s.unit.p := by
  rcases execRepack_next ht with ⟨-, rfl⟩ | ⟨-, rfl⟩ | ⟨k, -, rfl⟩ | ⟨hb, rfl⟩ | ⟨k, -, rfl⟩ | ⟨-, rfl⟩ |
    ⟨-, rfl⟩ | ⟨-, rfl⟩ | ⟨hpad, rfl⟩
  · rcases repackStart_cases s with ⟨-, e⟩ | ⟨-, -, e⟩ | ⟨-, -, -, -, -, e⟩ <;> rw [e] at hp <;> cases hp
  · rcases repackCheck_cases s with ⟨-, e⟩ | ⟨-, -, e⟩ | ⟨-, -, e⟩ <;> rw [e] at hp <;> cases hp
  · rcases repackRead_cases k s with ⟨-, e⟩ | ⟨-, e⟩ <;> rw [e] at hp
    · match k with
      | 0 | 1 | 2 => cases hp
    · cases hp
  · rcases repackBlock_cases s with ⟨-, e⟩ | ⟨-, e⟩ <;> rw [e]
    · exact ⟨hb, rfl⟩
    · exact ⟨hb, rfl⟩
  · rcases repackAnchor_cases k s with ⟨-, e⟩ | ⟨-, e⟩ <;> rw [e] at hp
    · match k with
      | 0 | 1 | 2 => cases hp
    · cases hp
  · rcases repackEval_cases s with ⟨-, e⟩ | ⟨-, e⟩ <;> rw [e] at hp <;> cases hp
  · rcases repackPack_cases s with ⟨-, e⟩ | ⟨-, e⟩ <;> rw [e] at hp <;> cases hp
  · rcases repackRemap_cases s with ⟨-, e⟩ | ⟨-, e⟩ <;> rw [e] at hp <;> cases hp
  · rcases repackPad_cases s with ⟨-, e⟩ | ⟨-, -, e⟩ | ⟨-, -, -, e⟩ | ⟨-, -, -, e⟩ <;> rw [e] at hp <;>
      simp [hpad] at hp

/-- Settles O51: the invariant after a block start numbers the block by its slot, and an overflow happens
inside a block only. -/
theorem blocksAreNumberedByTheirSlots : Obligations.BlocksAreNumberedByTheirSlots := by
  rintro s t ⟨-, -, -, hinv⟩ hc ht
  refine ⟨fun hp => ?_, fun hp hpad => ?_⟩
  · have hinv' := execRepack_phaseInv hc hinv ht
    simp only [Dqba.phaseInv, hp] at hinv'
    obtain ⟨-, ⟨-, hb, -⟩, h0⟩ := hinv'
    rw [(execRepack_to_anchor ht hp).2, (exec_frame ht).lbs] at hb h0
    exact ⟨hb, by rw [hb, Nat.div_mul_cancel (Nat.dvd_of_mod_eq_zero h0)]⟩
  · simp only [Dqba.phaseInv, hp] at hinv
    obtain ⟨-, hin⟩ := hinv
    rw [exec_repack, execRepack_of_rpEval hp] at ht
    cases ht
    rcases repackEval_cases s with ⟨ho, -⟩ | ⟨-, e⟩
    · exact Dqba.inside_of_ovf hin ho
    · rw [e] at hpad
      cases hpad

/-- A REPACK step that ends without error is RP_CHECK's with every vertex packed (42_repack.md R151). -/
theorem execRepack_success {s t : State} (ht : execRepack s = .next t) (hidle : t.unit.phase = .idle)
    (herr : t.unit.status.err = false) :
    s.unit.phase = .rpCheck ∧ s.unit.i = s.unit.count ∧ t = complete (some s.unit.p) s := by
  cases execRepack_step ht with
  | goesOn m i p b v a ph hm hph ha => exact absurd hidle hph
  | fails e => cases herr
  | succeeds hp =>
    rw [execRepack_of_rpCheck hp, Host.Outcome.next.injEq] at ht
    rcases repackCheck_cases s with ⟨hi, -⟩ | ⟨-, -, e⟩ | ⟨-, -, e⟩
    · exact ⟨hp, hi, rfl⟩
    · rw [e] at ht
      exact absurd (congrArg (fun u : State => u.unit.status.err) ht) (by simp)
    · rw [e] at ht
      exact absurd (congrArg (fun u : State => u.unit.phase) ht) (by simp)

/-- Settles O52: at the successful end the invariant of RP_CHECK bounds `p`, which RESULT takes. -/
theorem repackLengthIsBounded : Obligations.RepackLengthIsBounded := by
  rintro s t ⟨-, -, -, hinv⟩ hc ht hidle herr hn
  obtain ⟨hp, hi, rfl⟩ := execRepack_success ht hidle herr
  simp only [Dqba.phaseInv, hp] at hinv
  obtain ⟨hrun, -, -, hmax, hip, hslots⟩ := hinv
  have hbs := Dqba.lbs_pos hrun
  obtain ⟨bs, hbs⟩ : ∃ bs, s.unit.lbs.toNat = bs + 1 := ⟨s.unit.lbs.toNat - 1, by omega⟩
  obtain ⟨n, hn⟩ : ∃ n, s.unit.count.toNat = n + 1 := ⟨s.unit.count.toNat - 1, by omega⟩
  have hresult : (complete (some s.unit.p) s).unit.result = s.unit.p := rfl
  have hlast : s.unit.p.toNat ≤ n * (bs + 1) + 1 := by
    rw [hi, hn, hbs] at hslots
    rcases hslots with ⟨h, -⟩ | ⟨-, h⟩ | ⟨h, -⟩
    · exact absurd h (Nat.succ_ne_zero n)
    · exact h
    · exact absurd h (lt_irrefl _)
  rw [hi, hn] at hip
  rw [hresult, hn, hbs, Nat.add_sub_cancel, Nat.add_sub_cancel]
  refine ⟨hip, ?_, ?_, hmax⟩
  · linarith [Nat.mul_succ n bs]
  · linarith [Nat.succ_mul n (bs + 1), Nat.mul_succ n bs]

/-! ## The buffers of a REPACK (42_repack.md R157) -/

/-- The address of element `j` of a buffer with elements of width `w` (20_memory.md R65). -/
def elementAddr (base : Word) (w : Width) (j : Nat) : Word :=
  BitVec.ofNat 32 (base.toNat + Width.bytes w * j)

theorem Dqba.anchorAddr_eq (u : Dqba) (b k : Nat) :
    u.anchorAddr b k = elementAddr u.rpAnc .half (3 * b + k) := rfl

/-- The bytes of element `j` are the bytes `bytes w * j` and up of the buffer. -/
theorem inBytes_elementAddr {base : Word} {w : Width} {j x : Nat} :
    inBytes (elementAddr base w j).toNat (Width.bytes w) x ↔
      ∃ r < Width.bytes w, x = (base.toNat + (Width.bytes w * j + r)) % 2 ^ 32 := by
  simp only [inBytes, elementAddr, BitVec.toNat_ofNat, Nat.mod_add_mod, Nat.add_assoc]

/-- Byte `r` of element `j` lies below the end of element `j`, and so below that of every later one. -/
theorem Width.offset_lt {w : Width} {j n r : Nat} (hj : j < n) (hr : r < Width.bytes w) :
    Width.bytes w * j + r < Width.bytes w * n := by
  have : Width.bytes w * (j + 1) ≤ Width.bytes w * n := Nat.mul_le_mul_left _ hj
  rw [Nat.mul_succ] at this
  omega

/-- The bytes of an element lie in the buffer. -/
theorem inBytes_of_elementAddr {base : Word} {w : Width} {j n x : Nat} (hj : j < n)
    (h : inBytes (elementAddr base w j).toNat (Width.bytes w) x) :
    inBytes base.toNat (Width.bytes w * n) x := by
  obtain ⟨r, hr, rfl⟩ := inBytes_elementAddr.mp h
  exact ⟨_, Width.offset_lt hj hr, rfl⟩

theorem packedByte_of_slot {s : State} {p n x : Nat} (hp : p < n)
    (h : inBytes (s.unit.packedAddr p).toNat 4 x) : packedByte s n x :=
  inBytes_of_elementAddr (w := .word) hp h

theorem remapByte_of_entry {s : State} {i n x : Nat} (hi : i < n)
    (h : inBytes (s.unit.remapAddr i).toNat 4 x) : remapByte s n x :=
  inBytes_of_elementAddr (w := .word) hi h

theorem anchorByte_of_component {s : State} {b n x : Nat} {k : Fin 3} (hb : b < n)
    (h : inBytes (s.unit.anchorAddr b k).toNat 2 x) : anchorByte s n x := by
  have hj : 3 * b + k < 3 * n := by omega
  have hbyte := inBytes_of_elementAddr (w := .half) hj h
  rwa [show Width.bytes .half * (3 * n) = 6 * n by simp only [Width.bytes]; omega] at hbyte

/-- The phases of REPACK with an access, and the access of each. -/
theorem Dqba.repackAccess_cases {u : Dqba} {a : Word} {w : Width} (h : u.repackAccess = some (a, w)) :
    (∃ k, u.phase = .rpRead k ∧ a = u.inputAddr u.i.toNat k ∧ w = .half) ∨
    (∃ k, u.phase = .rpAnchor k ∧ a = u.anchorAddr u.b.toNat k ∧ w = .half) ∨
    (u.phase = .rpPack ∧ a = u.packedAddr u.p.toNat ∧ w = .word) ∨
    (u.phase = .rpRemap ∧ a = u.remapAddr u.i.toNat ∧ w = .word) ∨
    (u.phase = .rpPad ∧ u.p.toNat < u.rpMax.toNat ∧ a = u.packedAddr u.p.toNat ∧ w = .word) := by
  unfold Dqba.repackAccess at h
  split at h
  case h_1 k hp => cases h; exact .inl ⟨k, hp, rfl, rfl⟩
  case h_2 k hp => cases h; exact .inr (.inl ⟨k, hp, rfl, rfl⟩)
  case h_3 hp => cases h; exact .inr (.inr (.inl ⟨hp, rfl, rfl⟩))
  case h_4 hp => cases h; exact .inr (.inr (.inr (.inl ⟨hp, rfl, rfl⟩)))
  case h_5 hp =>
    split_ifs at h with hno
    cases h
    exact .inr (.inr (.inr (.inr ⟨hp, not_le.mp fun hle => hno (.inr hle), rfl, rfl⟩)))
  all_goals cases h

/-- The bytes a REPACK step stores to lie in its three output buffers. -/
theorem repackStores_in_buffers {s : State} {x : Nat} (hinv : s.unit.phaseInv)
    (h : unitStores .repack s.unit x) :
    packedByte s s.unit.rpMax.toNat x ∨ anchorByte s (maxBlocks s) x ∨
      remapByte s s.unit.count.toNat x := by
  obtain ⟨a, w, hacc, hwrite, hx⟩ := h
  rcases Dqba.repackAccess_cases hacc with ⟨k, hp, -⟩ | ⟨k, hp, rfl, rfl⟩ | ⟨hp, rfl, rfl⟩ |
    ⟨hp, rfl, rfl⟩ | ⟨-, hmax, rfl, rfl⟩
  · simp [hp, Phase.reads] at hwrite
  · simp only [Dqba.phaseInv, hp] at hinv
    obtain ⟨hrun, ⟨⟨-, hmax, -⟩, hb, -⟩, -⟩ := hinv
    have hblock : s.unit.b.toNat < maxBlocks s := hb ▸ div_lt_blocksBelow (Dqba.lbs_pos hrun) hmax
    exact .inr (.inl (anchorByte_of_component hblock hx))
  · simp only [Dqba.phaseInv, hp] at hinv
    obtain ⟨-, ⟨⟨-, hmax, -⟩, -⟩, -⟩ := hinv
    exact .inl (packedByte_of_slot hmax hx)
  · simp only [Dqba.phaseInv, hp] at hinv
    obtain ⟨-, ⟨⟨hi, -⟩, -⟩, -⟩ := hinv
    exact .inr (.inr (remapByte_of_entry hi hx))
  · exact .inl (packedByte_of_slot hmax hx)

/-- Settles O53: a byte that changes is one the step stores to, and the one access that reads is RP_READ's. -/
theorem repackStaysInItsBuffers : Obligations.RepackStaysInItsBuffers := by
  rintro s t ⟨-, -, -, hinv⟩ hc ht
  refine ⟨fun x hx => repackStores_in_buffers hinv ?_, fun a w hacc hread => ?_⟩
  · by_contra hstore
    exact hx (unitStepStoresOnlyAtItsAddress .repack s t x ht hstore)
  · rcases Dqba.repackAccess_cases hacc with ⟨k, hp, rfl, -⟩ | ⟨k, hp, -⟩ | ⟨hp, -⟩ | ⟨hp, -⟩ | ⟨hp, -⟩
    · simp only [Dqba.phaseInv, hp] at hinv
      obtain ⟨-, -, hi, -⟩ := hinv
      exact ⟨_, hi, k, k.isLt, rfl⟩
    all_goals simp [hp, Phase.reads] at hread

end Sys2Proof.Machine

namespace Sys2Proof.Machine
/-! ## Packing one vertex after another (42_repack.md R140)

`packVertices` gives what the rest of the vertices produces from a slot on. REPACK works the other way: it
adds the output of each vertex to what it has produced so far. `packVertices_eq_foldlM` says that the two
agree, so that statements about a packing are inductions over the vertices done so far. -/

/-- The output of two stretches of vertices in a row. -/
def Packed.append (out r : Packed) : Packed :=
  { words := out.words ++ r.words, anchors := out.anchors ++ r.anchors, slots := out.slots ++ r.slots }

@[simp] theorem Packed.append_words (a b : Packed) : (a.append b).words = a.words ++ b.words := rfl

@[simp] theorem Packed.append_anchors (a b : Packed) :
    (a.append b).anchors = a.anchors ++ b.anchors := rfl

@[simp] theorem Packed.append_slots (a b : Packed) : (a.append b).slots = a.slots ++ b.slots := rfl

/-- The packing of no vertex. -/
def Packed.empty : Packed := { words := [], anchors := [], slots := [] }

theorem Packed.append_assoc (a b c : Packed) : (a.append b).append c = a.append (b.append c) := by
  simp [Packed.append]

theorem Packed.append_empty (r : Packed) : r.append Packed.empty = r := by
  simp [Packed.append, Packed.empty]

/-- What one vertex adds from slot `p` on with current anchor `a`: at the first slot of a block it starts the
block, after an overflow it starts the next one, and otherwise it joins the block. -/
def placeVertex (bs max p : Nat) (a v : Vec3) : Option Packed :=
  if max ≤ p then none
  else if p % bs = 0 then some ⟨[vertexWord v v], [v], [p]⟩
  else if ovf v a then
    if max ≤ p + (bs - p % bs) then none
    else some ⟨List.replicate (bs - p % bs) 0#32 ++ [vertexWord v v], [v], [p + (bs - p % bs)]⟩
  else some ⟨[vertexWord v a], [], [p]⟩

/-- The current anchor after some output: the last one started, or the register's first value. -/
def Packed.current (out : Packed) (a : Vec3) : Vec3 := out.anchors.getLastD a

/-- Add one vertex to the output so far. -/
def Packed.push (bs max : Nat) (a : Vec3) (out : Packed) (v : Vec3) : Option Packed :=
  (placeVertex bs max out.words.length (out.current a) v).map out.append

theorem Packed.current_append (out r : Packed) (a : Vec3) :
    (out.append r).current a = r.current (out.current a) := by
  simp only [Packed.current, Packed.append, List.getLastD_eq_getLast?, List.getLast?_append]
  cases r.anchors.getLast? <;> rfl

/-- Packing vertices from where some output ends is adding them to it one by one. -/
theorem packVertices_append_eq_foldlM (bs max : Nat) (a : Vec3) (vs : List Vec3) (out : Packed) :
    (packVertices bs max vs out.words.length (out.current a)).map out.append =
      vs.foldlM (Packed.push bs max a) out := by
  induction vs generalizing out with
  | nil => exact congrArg some out.append_empty
  | cons v vs ih =>
    have hrest : ∀ (o : Packed) (n : Nat), o.words.length = n →
        ((packVertices bs max vs (out.words.length + n) (o.current (out.current a))).map
          o.append).map out.append = vs.foldlM (Packed.push bs max a) (out.append o) := by
      rintro o n rfl
      have hcomp : out.append ∘ o.append = (out.append o).append :=
        funext fun r => (Packed.append_assoc out o r).symm
      rw [← ih, Option.map_map, hcomp, Packed.current_append, Packed.append_words, List.length_append]
    rw [List.foldlM_cons, Packed.push, packVertices, placeVertex]
    split_ifs
    · rfl
    · exact hrest ⟨[vertexWord v v], [v], [out.words.length]⟩ 1 rfl
    · rfl
    · exact hrest ⟨List.replicate _ 0#32 ++ [vertexWord v v], [v], [_]⟩ _ (by simp; rfl)
    · exact hrest ⟨[vertexWord v (out.current a)], [], [out.words.length]⟩ 1 rfl

/-- A packing from slot 0 adds its vertices one by one to no output. -/
theorem packVertices_eq_foldlM (bs max : Nat) (a : Vec3) (vs : List Vec3) :
    packVertices bs max vs 0 a = vs.foldlM (Packed.push bs max a) Packed.empty := by
  rw [← packVertices_append_eq_foldlM]
  exact (congrFun Option.map_id _).symm

/-- Where the block of a slot ends, the next one starts. -/
theorem next_block_eq (p : Nat) {bs : Nat} (hbs : 0 < bs) : p + (bs - p % bs) = bs * (p / bs + 1) := by
  have := Nat.div_add_mod p bs
  have := Nat.mod_lt p hbs
  rw [Nat.mul_succ]
  omega

/-- The ways a vertex adds its output: after `d` padding words its word goes to its slot against the anchor of
that slot's block, which the vertex itself becomes or which is the current one. -/
theorem placeVertex_eq_some {bs max p : Nat} {a v : Vec3} {o : Packed} (hbs : 0 < bs)
    (h : placeVertex bs max p a v = some o) :
    ∃ d as c, o = ⟨List.replicate d 0#32 ++ [vertexWord v c], as, [p + d]⟩ ∧ p + d < max ∧
      ovf v c = false ∧
      ((as = [c] ∧ blocksBelow p bs = (p + d) / bs) ∨ (as = [] ∧ c = a ∧ d = 0 ∧ p % bs ≠ 0)) := by
  unfold placeVertex at h
  split_ifs at h with hmax h0 ho hmax' <;> cases h
  · exact ⟨0, [v], v, rfl, not_le.mp hmax, ovf_self v, .inl ⟨rfl, blocksBelow_of_boundary hbs h0⟩⟩
  · refine ⟨bs - p % bs, [v], v, rfl, not_le.mp hmax', ovf_self v, .inl ⟨rfl, ?_⟩⟩
    rw [blocksBelow_of_inside hbs h0, next_block_eq p hbs, Nat.mul_div_cancel_left _ hbs]
  · exact ⟨0, [], a, rfl, not_le.mp hmax, by simpa using ho, .inr ⟨rfl, rfl, rfl, h0⟩⟩

/-- What a packing of the vertices `vs` has (42_repack.md R153, R156, R160). -/
structure PackingOf (bs max : Nat) (vs : List Vec3) (r : Packed) : Prop where
  slots_length : r.slots.length = vs.length
  slots_increasing : r.slots.Pairwise (· < ·)
  slots_lt : ∀ q ∈ r.slots, q < r.words.length
  words_le : r.words.length ≤ max
  anchors_length : r.anchors.length = blocksBelow r.words.length bs
  vertex : ∀ (i q : Nat) (v : Vec3), r.slots[i]? = some q → vs[i]? = some v →
    ∃ c, r.anchors[q / bs]? = some c ∧ r.words[q]? = some (vertexWord v c) ∧ ovf v c = false
  padding : ∀ (p : Nat) (w : Word), r.words[p]? = some w → p ∉ r.slots → w = 0#32

theorem PackingOf.empty (bs max : Nat) (hbs : 0 < bs) : PackingOf bs max [] Packed.empty where
  slots_length := rfl
  slots_increasing := List.Pairwise.nil
  slots_lt := nofun
  words_le := Nat.zero_le _
  anchors_length := (Nat.div_eq_of_lt (by simp [Packed.empty]; omega)).symm
  vertex := by simp [Packed.empty]
  padding := by simp [Packed.empty]

/-- Inside a block the current anchor is the one of that block. -/
theorem PackingOf.anchor_of_inside {bs max : Nat} {vs : List Vec3} {r : Packed} (h : PackingOf bs max vs r)
    (hbs : 0 < bs) (hin : r.words.length % bs ≠ 0) (a : Vec3) :
    r.anchors[r.words.length / bs]? = some (r.current a) := by
  have hlen := h.anchors_length
  rw [blocksBelow_of_inside hbs hin] at hlen
  have hlast : r.anchors.getLast? = r.anchors[r.words.length / bs]? := by
    rw [List.getLast?_eq_getElem?, hlen, Nat.add_sub_cancel]
  rw [Packed.current, List.getLastD_eq_getLast?, hlast]
  rw [List.getElem?_eq_getElem (by omega)]
  rfl

/-- Adding a vertex to a packing gives a packing. -/
theorem PackingOf.push {bs max : Nat} {vs : List Vec3} {r r' : Packed} {a v : Vec3} (hbs : 0 < bs)
    (h : PackingOf bs max vs r) (hr : r.push bs max a v = some r') : PackingOf bs max (vs ++ [v]) r' := by
  obtain ⟨o, ho, rfl⟩ := Option.map_eq_some_iff.mp hr
  obtain ⟨d, as, c, rfl, hmax, hovf, hblock⟩ := placeVertex_eq_some hbs ho
  have hlen : (r.append ⟨List.replicate d 0#32 ++ [vertexWord v c], as, [r.words.length + d]⟩).words.length =
      r.words.length + d + 1 := by simp [Packed.append, Nat.add_assoc]
  have hanchor : (r.anchors ++ as)[(r.words.length + d) / bs]? = some c := by
    rcases hblock with ⟨rfl, hb⟩ | ⟨rfl, rfl, rfl, hin⟩
    · rw [← hb, ← h.anchors_length]
      simp
    · simpa using h.anchor_of_inside hbs hin a
  constructor
  case slots_length => simp [Packed.append, h.slots_length]
  case slots_increasing =>
    refine List.pairwise_append.mpr ⟨h.slots_increasing, List.pairwise_singleton _ _, fun q hq q' hq' => ?_⟩
    rw [List.mem_singleton.mp hq']
    exact Nat.lt_add_right d (h.slots_lt q hq)
  case slots_lt =>
    intro q hq
    rw [hlen]
    rcases List.mem_append.mp hq with hq | hq
    · have := h.slots_lt q hq
      omega
    · rw [List.mem_singleton.mp hq]
      omega
  case words_le => rw [hlen]; exact hmax
  case anchors_length =>
    rw [hlen, blocksBelow_succ hbs]
    rcases hblock with ⟨rfl, hb⟩ | ⟨rfl, -, rfl, hin⟩
    · simp [Packed.append, h.anchors_length, hb]
    · simp [Packed.append, h.anchors_length, blocksBelow_of_inside hbs hin]
  case vertex =>
    intro i q u hq hu
    simp only [Packed.append] at hq ⊢
    rcases Nat.lt_or_ge i vs.length with hi | hi
    · rw [List.getElem?_append_left (by rw [h.slots_length]; exact hi)] at hq
      rw [List.getElem?_append_left hi] at hu
      obtain ⟨c', hc, hw, ho'⟩ := h.vertex i q u hq hu
      refine ⟨c', ?_, ?_, ho'⟩
      · exact List.getElem?_append_left (List.getElem?_eq_some_iff.mp hc).1 ▸ hc
      · exact List.getElem?_append_left (List.getElem?_eq_some_iff.mp hw).1 ▸ hw
    · obtain ⟨k, rfl⟩ := Nat.exists_eq_add_of_le hi
      rw [List.getElem?_append_right hi, Nat.add_sub_cancel_left] at hu
      rw [List.getElem?_append_right (by rw [h.slots_length]; exact hi), h.slots_length,
        Nat.add_sub_cancel_left] at hq
      cases k with
      | succ k => cases hu
      | zero =>
        cases hu
        cases hq
        exact ⟨c, hanchor, by simp, hovf⟩
  case padding =>
    intro p w hw hp
    simp only [Packed.append_words, Packed.append_slots, List.mem_append, not_or] at hw hp
    rcases Nat.lt_or_ge p r.words.length with hlt | hge
    · rw [List.getElem?_append_left hlt] at hw
      exact h.padding p w hw hp.1
    · obtain ⟨k, rfl⟩ := Nat.exists_eq_add_of_le hge
      rw [List.getElem?_append_right hge, Nat.add_sub_cancel_left] at hw
      rcases Nat.lt_trichotomy k d with hk | rfl | hk
      · rw [List.getElem?_append_left (by simpa using hk), List.getElem?_replicate, if_pos hk] at hw
        exact (Option.some.inj hw).symm
      · simp at hp
      · rw [List.getElem?_eq_none (by simp; omega)] at hw
        cases hw

/-- Adding vertices one by one to a packing gives a packing. -/
theorem PackingOf.foldlM {bs max : Nat} {a : Vec3} (hbs : 0 < bs) {done : List Vec3} (vs : List Vec3)
    {out r : Packed} (h : PackingOf bs max done out) (hr : vs.foldlM (Packed.push bs max a) out = some r) :
    PackingOf bs max (done ++ vs) r := by
  induction vs generalizing done out with
  | nil =>
    cases hr
    simpa using h
  | cons v vs ih =>
    rw [List.foldlM_cons] at hr
    obtain ⟨out', hpush, hrest⟩ := Option.bind_eq_some_iff.mp hr
    simpa using ih (h.push hbs hpush) hrest

/-- `packVertices` gives a packing of its vertices. -/
theorem packingOf_packVertices {bs max : Nat} {vs : List Vec3} {a : Vec3} {r : Packed} (hbs : 0 < bs)
    (h : packVertices bs max vs 0 a = some r) : PackingOf bs max vs r := by
  rw [packVertices_eq_foldlM] at h
  exact (PackingOf.empty bs max hbs).foldlM hbs vs h

/-- Settles O57: `PackingOf` read at each vertex and slot. -/
theorem packingMapsEachVertexToItsSlot : Obligations.PackingMapsEachVertexToItsSlot := by
  intro bs max vs a r hbs h
  have hr := packingOf_packVertices hbs h
  refine ⟨hr.slots_length, hr.slots_increasing, hr.words_le, hr.anchors_length, fun i hi hv => ?_,
    fun p hp hslot => hr.padding p _ (List.getElem?_eq_getElem hp) hslot⟩
  obtain ⟨c, hc, hw, ho⟩ :=
    hr.vertex i _ _ (List.getElem?_eq_getElem hi) (List.getElem?_eq_getElem hv)
  obtain ⟨hb, rfl⟩ := List.getElem?_eq_some_iff.mp hc
  obtain ⟨hlt, hw⟩ := List.getElem?_eq_some_iff.mp hw
  exact ⟨hlt, hb, hw, ho⟩

end Sys2Proof.Machine

namespace Sys2Proof.Machine
/-! ## How many accesses a REPACK can still make (42_repack.md R161)

A budget that every access of the unit uses up and no step raises: three reads for each of the at most two
attempts at a vertex, and no second attempt where slot `p` starts a block; one write for each slot and each
remap entry; three for each block not started yet, of which there is at most one per vertex. -/

/-- Reads left at the start of an attempt at vertex `i`: at the first slot of a block it needs no retry. -/
def readsLeft (n bs i p : Nat) : Nat := if p % bs = 0 then 6 * (n - i) - 3 else 6 * (n - i)

/-- Writes left when `blocks` blocks have their anchor stored. -/
def writesLeft (n max bs i p blocks : Nat) : Nat :=
  (max - p) + (n - i) + 3 * (min n (blocksBelow max bs) - blocks)

/-- Accesses left in a phase of REPACK. -/
def accessBudget (n max bs i p : Nat) : Phase → Nat
  | .decode => 6 * n + max + n + 3 * min n (blocksBelow max bs)
  | .rpCheck => readsLeft n bs i p + writesLeft n max bs i p (blocksBelow p bs)
  | .rpRead k => readsLeft n bs i p - k + writesLeft n max bs i p (blocksBelow p bs)
  | .rpBlock => readsLeft n bs i p - 3 + writesLeft n max bs i p (blocksBelow p bs)
  | .rpAnchor k => readsLeft n bs i p - 3 + (writesLeft n max bs i p (p / bs) - k)
  | .rpEval => readsLeft n bs i p - 3 + writesLeft n max bs i p (p / bs + 1)
  | .rpPack => readsLeft n bs i p - 3 + writesLeft n max bs i p (p / bs + 1)
  | .rpRemap => readsLeft n bs i p - 3 + (writesLeft n max bs i p (p / bs + 1) - 1)
  | .rpPad => 6 * (n - i) - 3 + writesLeft n max bs i p (blocksBelow p bs)
  | .idle | .sbWrite | .rmCheck | .rmRdIdx | .rmRdTbl | .rmWrIdx => 0

/-- Accesses a unit can still make in its REPACK. -/
def Dqba.accessesLeft (u : Dqba) : Nat :=
  accessBudget u.count.toNat u.rpMax.toNat u.lbs.toNat u.i.toNat u.p.toNat u.phase

theorem Dqba.accessesLeft_of_phase {u : Dqba} {ph : Phase} (h : u.phase = ph) :
    u.accessesLeft = accessBudget u.count.toNat u.rpMax.toNat u.lbs.toNat u.i.toNat u.p.toNat ph := by
  rw [Dqba.accessesLeft, h]

theorem Dqba.accessesLeft_of_idle {u : Dqba} (h : u.phase = .idle) : u.accessesLeft = 0 :=
  Dqba.accessesLeft_of_phase h

section Budget
variable {n max bs i p : Nat}

theorem readsLeft_succ_le (h : i < n) (q : Nat) : readsLeft n bs (i + 1) q ≤ readsLeft n bs i p - 3 := by
  unfold readsLeft
  split_ifs <;> omega

theorem three_le_readsLeft (h : i < n) : 3 ≤ readsLeft n bs i p := by
  unfold readsLeft
  split_ifs <;> omega

theorem accessBudget_start : accessBudget n max bs 0 0 .rpCheck ≤ accessBudget n max bs i p .decode := by
  simp only [accessBudget, readsLeft, writesLeft, Nat.zero_mod, if_true]
  omega

theorem accessBudget_read (h : i < n) (k : Fin 3) :
    1 + accessBudget n max bs i p (afterRead k) ≤ accessBudget n max bs i p (.rpRead k) := by
  have := three_le_readsLeft (bs := bs) (p := p) h
  match k with
  | 0 | 1 | 2 =>
    simp only [accessBudget, afterRead, Fin.isValue, Fin.val_zero, Fin.val_one, Fin.val_two]
    omega

theorem accessBudget_block (hbs : 0 < bs) (h0 : p % bs = 0) :
    accessBudget n max bs i p (.rpAnchor 0) ≤ accessBudget n max bs i p .rpBlock := by
  simp only [accessBudget, blocksBelow_of_boundary hbs h0]
  exact le_refl _

theorem accessBudget_noBlock (hbs : 0 < bs) (h0 : p % bs ≠ 0) :
    accessBudget n max bs i p .rpEval ≤ accessBudget n max bs i p .rpBlock := by
  simp only [accessBudget, blocksBelow_of_inside hbs h0]
  exact le_refl _

/-- The block that starts is one of those the budget still holds. -/
theorem accessBudget_anchor (hn : p / bs < n) (hmax : p / bs < blocksBelow max bs) (k : Fin 3) :
    1 + accessBudget n max bs i p (afterAnchor k) ≤ accessBudget n max bs i p (.rpAnchor k) := by
  have : p / bs < min n (blocksBelow max bs) := lt_min hn hmax
  match k with
  | 0 | 1 | 2 =>
    simp only [accessBudget, afterAnchor, writesLeft, Fin.isValue, Fin.val_zero, Fin.val_one, Fin.val_two]
    omega

theorem accessBudget_overflow (hbs : 0 < bs) (h0 : p % bs ≠ 0) :
    accessBudget n max bs i p .rpPad ≤ accessBudget n max bs i p .rpEval := by
  simp only [accessBudget, readsLeft, if_neg h0, blocksBelow_of_inside hbs h0]
  exact le_refl _

theorem accessBudget_pack (hmax : p < max) :
    1 + accessBudget n max bs i p .rpRemap ≤ accessBudget n max bs i p .rpPack := by
  simp only [accessBudget, writesLeft]
  omega

theorem accessBudget_remap (hbs : 0 < bs) (hi : i < n) (hmax : p < max) :
    1 + accessBudget n max bs (i + 1) (p + 1) .rpCheck ≤ accessBudget n max bs i p .rpRemap := by
  have := readsLeft_succ_le (bs := bs) (p := p) hi (p + 1)
  simp only [accessBudget, writesLeft, blocksBelow_succ hbs]
  omega

theorem accessBudget_pad (hbs : 0 < bs) (hmax : p < max) (h0 : p % bs ≠ 0) :
    1 + accessBudget n max bs i (p + 1) .rpPad ≤ accessBudget n max bs i p .rpPad := by
  simp only [accessBudget, writesLeft, blocksBelow_succ hbs, blocksBelow_of_inside hbs h0]
  omega

/-- Padding ends at the first slot of a block, where the retry is the vertex's last attempt. -/
theorem accessBudget_retry (h0 : p % bs = 0) :
    accessBudget n max bs i p .rpCheck ≤ accessBudget n max bs i p .rpPad := by
  simp only [accessBudget, readsLeft, if_pos h0]
  exact le_refl _

end Budget

/-- How many accesses the unit's next step performs: the one of its phase, where MemOK admits it. -/
def admittedAccesses (i : Instr) (s : State) : Nat :=
  match unitAccess i s.unit with
  | some (a, w) => if memOK s.refused a w then 1 else 0
  | none => 0

theorem admittedAccesses_of_none {i : Instr} {s : State} (h : unitAccess i s.unit = none) :
    admittedAccesses i s = 0 := by
  simp only [admittedAccesses, h]

theorem admittedAccesses_of_refused {i : Instr} {s : State} {a : Word} {w : Width}
    (h : unitAccess i s.unit = some (a, w)) (hok : memOK s.refused a w = false) :
    admittedAccesses i s = 0 := by
  simp [admittedAccesses, h, hok]

theorem admittedAccesses_le_one (i : Instr) (s : State) : admittedAccesses i s ≤ 1 := by
  unfold admittedAccesses
  split
  · split_ifs <;> decide
  · exact Nat.zero_le 1

/-- A step pays for its access out of the budget. -/
def PaysForItsAccess (s t : State) : Prop :=
  admittedAccesses .repack s + t.unit.accessesLeft ≤ s.unit.accessesLeft

/-- A step that ends the command performs no access, so it pays. -/
theorem paysForItsAccess_of_end {s t : State} (h : admittedAccesses .repack s = 0)
    (ht : t.unit.phase = .idle) : PaysForItsAccess s t := by
  rw [PaysForItsAccess, h, Dqba.accessesLeft_of_idle ht]
  exact Nat.zero_le _

theorem paysForItsAccess_of_free {s t : State} (h : s.unit.repackAccess = none)
    (hle : t.unit.accessesLeft ≤ s.unit.accessesLeft) : PaysForItsAccess s t := by
  rw [PaysForItsAccess, admittedAccesses_of_none (i := .repack) h, Nat.zero_add]
  exact hle

theorem paysForItsAccess_of_access {s t : State} (hle : 1 + t.unit.accessesLeft ≤ s.unit.accessesLeft) :
    PaysForItsAccess s t :=
  (Nat.add_le_add_right (admittedAccesses_le_one .repack s) _).trans hle

theorem repackStart_pays {s : State} (hp : s.unit.phase = .decode) : PaysForItsAccess s (repackStart s) := by
  have hnone : s.unit.repackAccess = none := by simp only [Dqba.repackAccess, hp]
  rcases repackStart_cases s with ⟨-, e⟩ | ⟨-, -, e⟩ | ⟨-, -, -, -, -, e⟩ <;> rw [e]
  · exact paysForItsAccess_of_end (admittedAccesses_of_none hnone) rfl
  · exact paysForItsAccess_of_end (admittedAccesses_of_none hnone) rfl
  · refine paysForItsAccess_of_free hnone ?_
    rw [Dqba.accessesLeft_of_phase hp]
    exact accessBudget_start

theorem repackCheck_pays {s : State} (hp : s.unit.phase = .rpCheck) :
    PaysForItsAccess s (repackCheck s) := by
  have hnone : s.unit.repackAccess = none := by simp only [Dqba.repackAccess, hp]
  rcases repackCheck_cases s with ⟨-, e⟩ | ⟨-, -, e⟩ | ⟨-, -, e⟩ <;> rw [e]
  · exact paysForItsAccess_of_end (admittedAccesses_of_none hnone) rfl
  · exact paysForItsAccess_of_end (admittedAccesses_of_none hnone) rfl
  · refine paysForItsAccess_of_free hnone ?_
    rw [Dqba.accessesLeft_of_phase hp]
    exact le_refl _

theorem repackRead_pays {s : State} {k : Fin 3} (hp : s.unit.phase = .rpRead k) (h : s.unit.phaseInv) :
    PaysForItsAccess s (repackRead k s) := by
  have hacc : s.unit.repackAccess = some (s.unit.inputAddr s.unit.i.toNat k, .half) := by
    simp only [Dqba.repackAccess, hp]
  simp only [Dqba.phaseInv, hp] at h
  obtain ⟨-, -, hi, -⟩ := h
  rcases repackRead_cases k s with ⟨-, e⟩ | ⟨hok, e⟩ <;> rw [e]
  · refine paysForItsAccess_of_access ?_
    rw [Dqba.accessesLeft_of_phase hp]
    exact accessBudget_read hi k
  · exact paysForItsAccess_of_end (admittedAccesses_of_refused hacc hok) rfl

theorem repackBlock_pays {s : State} (hp : s.unit.phase = .rpBlock) (h : s.unit.phaseInv) :
    PaysForItsAccess s (repackBlock s) := by
  have hnone : s.unit.repackAccess = none := by simp only [Dqba.repackAccess, hp]
  simp only [Dqba.phaseInv, hp] at h
  have hbs := Dqba.lbs_pos h.1
  rcases repackBlock_cases s with ⟨h0, e⟩ | ⟨h0, e⟩ <;> rw [e] <;>
    refine paysForItsAccess_of_free hnone ?_ <;> rw [Dqba.accessesLeft_of_phase hp]
  · exact accessBudget_block hbs h0
  · exact accessBudget_noBlock hbs h0

theorem repackAnchor_pays {s : State} {k : Fin 3} (hp : s.unit.phase = .rpAnchor k) (h : s.unit.phaseInv) :
    PaysForItsAccess s (repackAnchor k s) := by
  have hacc : s.unit.repackAccess = some (s.unit.anchorAddr s.unit.b.toNat k, .half) := by
    simp only [Dqba.repackAccess, hp]
  simp only [Dqba.phaseInv, hp] at h
  obtain ⟨hrun, ⟨⟨hi, hmax, -, hslots⟩, -⟩, -⟩ := h
  have hbs := Dqba.lbs_pos hrun
  rcases repackAnchor_cases k s with ⟨-, e⟩ | ⟨hok, e⟩ <;> rw [e]
  · have hblock : s.unit.p.toNat / s.unit.lbs.toNat < s.unit.count.toNat :=
      lt_of_le_of_lt (Nat.div_le_of_le_mul (by rwa [Nat.mul_comm])) hi
    refine paysForItsAccess_of_access ?_
    rw [Dqba.accessesLeft_of_phase hp]
    exact accessBudget_anchor hblock (div_lt_blocksBelow hbs hmax) k
  · exact paysForItsAccess_of_end (admittedAccesses_of_refused hacc hok) rfl

theorem repackEval_pays {s : State} (hp : s.unit.phase = .rpEval) (h : s.unit.phaseInv) :
    PaysForItsAccess s (repackEval s) := by
  have hnone : s.unit.repackAccess = none := by simp only [Dqba.repackAccess, hp]
  simp only [Dqba.phaseInv, hp] at h
  obtain ⟨hrun, hin⟩ := h
  rcases repackEval_cases s with ⟨ho, e⟩ | ⟨-, e⟩ <;> rw [e] <;>
    refine paysForItsAccess_of_free hnone ?_ <;> rw [Dqba.accessesLeft_of_phase hp]
  · exact accessBudget_overflow (Dqba.lbs_pos hrun) (Dqba.inside_of_ovf hin ho)
  · exact le_refl _

theorem repackPack_pays {s : State} (hp : s.unit.phase = .rpPack) (h : s.unit.phaseInv) :
    PaysForItsAccess s (repackPack s) := by
  have hacc : s.unit.repackAccess = some (s.unit.packedAddr s.unit.p.toNat, .word) := by
    simp only [Dqba.repackAccess, hp]
  simp only [Dqba.phaseInv, hp] at h
  obtain ⟨-, ⟨⟨-, hmax, -⟩, -⟩, -⟩ := h
  rcases repackPack_cases s with ⟨-, e⟩ | ⟨hok, e⟩ <;> rw [e]
  · refine paysForItsAccess_of_access ?_
    rw [Dqba.accessesLeft_of_phase hp]
    exact accessBudget_pack hmax
  · exact paysForItsAccess_of_end (admittedAccesses_of_refused hacc hok) rfl

theorem repackRemap_pays {s : State} (hp : s.unit.phase = .rpRemap) (h : s.unit.phaseInv) :
    PaysForItsAccess s (repackRemap s) := by
  have hacc : s.unit.repackAccess = some (s.unit.remapAddr s.unit.i.toNat, .word) := by
    simp only [Dqba.repackAccess, hp]
  simp only [Dqba.phaseInv, hp] at h
  obtain ⟨hrun, ⟨⟨hi, hmax, -⟩, -⟩, -⟩ := h
  rcases repackRemap_cases s with ⟨-, e⟩ | ⟨hok, e⟩ <;> rw [e]
  · refine paysForItsAccess_of_access ?_
    have hpay := accessBudget_remap (Dqba.lbs_pos hrun) hi hmax
    rw [← toNat_succ_of_lt hi, ← toNat_succ_of_lt hmax] at hpay
    rw [Dqba.accessesLeft_of_phase hp]
    exact hpay
  · exact paysForItsAccess_of_end (admittedAccesses_of_refused hacc hok) rfl

theorem repackPad_pays {s : State} (hp : s.unit.phase = .rpPad) (h : s.unit.phaseInv) :
    PaysForItsAccess s (repackPad s) := by
  simp only [Dqba.phaseInv, hp] at h
  have hbs := Dqba.lbs_pos h.1
  rcases repackPad_cases s with ⟨h0, e⟩ | ⟨h0, hmax, e⟩ | ⟨h0, hmax, -, e⟩ | ⟨h0, hmax, hok, e⟩ <;> rw [e]
  · refine paysForItsAccess_of_free (by simp [Dqba.repackAccess, hp, h0]) ?_
    rw [Dqba.accessesLeft_of_phase hp]
    exact accessBudget_retry h0
  · exact paysForItsAccess_of_end
      (admittedAccesses_of_none (by simp [unitAccess, Dqba.repackAccess, hp, hmax])) rfl
  · refine paysForItsAccess_of_access ?_
    have hpay := accessBudget_pad (n := s.unit.count.toNat) (i := s.unit.i.toNat) hbs hmax h0
    rw [← toNat_succ_of_lt hmax] at hpay
    rw [Dqba.accessesLeft_of_phase hp, Dqba.accessesLeft_of_phase (by exact hp)]
    exact hpay
  · exact paysForItsAccess_of_end (admittedAccesses_of_refused
      (by simp [unitAccess, Dqba.repackAccess, hp, h0, hmax]) hok) rfl

/-- Every step of REPACK pays for its access. -/
theorem execRepack_pays {s t : State} (h : s.unit.phaseInv) (ht : execRepack s = .next t) :
    PaysForItsAccess s t := by
  rcases execRepack_next ht with ⟨hp, rfl⟩ | ⟨hp, rfl⟩ | ⟨k, hp, rfl⟩ | ⟨hp, rfl⟩ | ⟨k, hp, rfl⟩ |
    ⟨hp, rfl⟩ | ⟨hp, rfl⟩ | ⟨hp, rfl⟩ | ⟨hp, rfl⟩
  · exact repackStart_pays hp
  · exact repackCheck_pays hp
  · exact repackRead_pays hp h
  · exact repackBlock_pays hp h
  · exact repackAnchor_pays hp h
  · exact repackEval_pays hp h
  · exact repackPack_pays hp h
  · exact repackRemap_pays hp h
  · exact repackPad_pays hp h

/-! ## The budget over every schedule -/

/-- The unit is in a REPACK, or its command has ended. -/
def Dqba.inRepack (u : Dqba) : Prop :=
  u.phase ≠ .idle → u.status.busy = true ∧ u.lopc = encode .repack ∧ u.phaseInv

/-- A host write to a unit in a REPACK touches neither the command nor its budget (60_exceptions.md R213). -/
theorem Dqba.inRepack.windowWrite {u : Dqba} (h : u.inRepack) (hp : u.phase ≠ .idle) (off bytes : Nat)
    (v : Word) : (u.windowWrite off bytes v).inRepack ∧
      (u.windowWrite off bytes v).accessesLeft = u.accessesLeft := by
  obtain ⟨hb, -, -⟩ := h hp
  rcases u.windowWrite_cases off bytes v with e | ⟨k, -, -, e⟩ | ⟨-, -, e⟩ <;> rw [e]
  · exact ⟨h, rfl⟩
  · exact ⟨h, rfl⟩
  · rw [Dqba.writeCmd_busy hb]
    exact ⟨h, rfl⟩

/-- The unit's own step pays and leaves it in its REPACK or idle. -/
theorem unitStep_pays {s t : State} (h : s.unit.inRepack) (hp : s.unit.phase ≠ .idle)
    (ht : unitStep s = .next t) : t.unit.inRepack ∧ PaysForItsAccess s t := by
  obtain ⟨hb, hc, hinv⟩ := h hp
  rw [unitStep_busy hb (hc ▸ decode_encode .repack)] at ht
  have hf := exec_frame ht
  refine ⟨fun hidle => ⟨?_, hf.lopc.trans hc, execRepack_phaseInv hc hinv ht⟩, execRepack_pays hinv ht⟩
  rw [(hf.goesOn hidle).1, hb]

/-- How many accesses the machine's next step performs for the unit. -/
def State.accessesNext (i : Instr) (s : State) : Nat :=
  if s.nextTurn = some (.unit 0) then admittedAccesses i s else 0

/-- A step of any agent pays for the access, if it is the unit's. -/
theorem step_pays {s t : State} (h : s.unit.inRepack) (hp : s.unit.phase ≠ .idle) (ht : step s = .next t) :
    t.unit.inRepack ∧ s.accessesNext .repack + t.unit.accessesLeft ≤ s.unit.accessesLeft := by
  rw [step_eq_nextTurn] at ht
  rw [State.accessesNext]
  cases hn : s.nextTurn with
  | none =>
    rw [hn] at ht
    cases ht
    exact ⟨h, by simp⟩
  | some tr =>
    rw [hn] at ht
    have hown : unitStep (s.withTurns s.turns.tail) = .next t →
        t.unit.inRepack ∧ admittedAccesses .repack s + t.unit.accessesLeft ≤ s.unit.accessesLeft :=
      fun h' => unitStep_pays (s := s.withTurns s.turns.tail) h hp h'
    by_cases htr : tr = .unit 0
    · subst htr
      simpa using hown ht
    · rw [if_neg (by simpa using htr), Nat.zero_add]
      by_cases hreset : tr = .act (.reset 0)
      · subst hreset
        cases ht
        exact ⟨fun hidle => absurd rfl hidle, Nat.zero_le _⟩
      · rcases takeTurn_unit ht hreset with h' | e | ⟨off, bytes, v, e⟩
        · exact ⟨(hown h').1, (Nat.le_add_left _ _).trans (hown h').2⟩
        · rw [e]
          exact ⟨h, le_refl _⟩
        · rw [e]
          exact ⟨(h.windowWrite hp off bytes v).1, (h.windowWrite hp off bytes v).2.le⟩

/-- A phase of REPACK with an access has a step. -/
theorem repackAccess_of_stop {s : State} (h : ∀ t, execRepack s ≠ .next t) : s.unit.repackAccess = none := by
  refine Option.eq_none_iff_forall_ne_some.mpr fun ⟨a, w⟩ hacc => ?_
  rcases Dqba.repackAccess_cases hacc with ⟨k, hp, -⟩ | ⟨k, hp, -⟩ | ⟨hp, -⟩ | ⟨hp, -⟩ | ⟨hp, -⟩
  · exact h _ (execRepack_of_rpRead hp)
  · exact h _ (execRepack_of_rpAnchor hp)
  · exact h _ (execRepack_of_rpPack hp)
  · exact h _ (execRepack_of_rpRemap hp)
  · exact h _ (execRepack_of_rpPad hp)

/-- A turn that stops the machine performs no access. -/
theorem admittedAccesses_of_stop {s : State} (h : s.unit.inRepack) (hp : s.unit.phase ≠ .idle)
    (hstop : ∀ t, step s ≠ .next t) (hn : s.nextTurn = some (.unit 0)) :
    admittedAccesses .repack s = 0 := by
  obtain ⟨hb, hc, -⟩ := h hp
  have hstep : step s = execRepack (s.withTurns s.turns.tail) := by
    rw [step_eq_nextTurn, hn]
    exact unitStep_busy (s := s.withTurns s.turns.tail) hb (hc ▸ decode_encode .repack)
  exact admittedAccesses_of_none
    (repackAccess_of_stop (s := s.withTurns s.turns.tail) fun t ht => hstop t (hstep.trans ht))

/-- The accesses of a run: those of its first step, then those of the rest. -/
theorem accessesIn_of_next (i : Instr) (k : Nat) {s t : State} (hp : s.unit.phase ≠ .idle)
    (ht : step s = .next t) : accessesIn i (k + 1) s = s.accessesNext i + accessesIn i k t := by
  simp only [accessesIn, if_neg hp, ht]
  rfl

/-- A run that stops at its first step. -/
theorem accessesIn_of_stop (i : Instr) (k : Nat) {s : State} (hp : s.unit.phase ≠ .idle)
    (hstop : ∀ t, step s ≠ .next t) : accessesIn i (k + 1) s = s.accessesNext i := by
  simp only [accessesIn, if_neg hp]
  cases hs : step s with
  | next t => exact absurd hs (hstop t)
  | fault r => rfl
  | refused r => rfl

/-- The accesses of a run stay within the budget, whoever acts in between. -/
theorem accessesIn_le_accessesLeft (k : Nat) {s : State} (h : s.unit.inRepack) :
    accessesIn .repack k s ≤ s.unit.accessesLeft := by
  induction k generalizing s with
  | zero => exact Nat.zero_le _
  | succ k ih =>
    by_cases hp : s.unit.phase = .idle
    · rw [accessesIn_idle hp]
      exact Nat.zero_le _
    by_cases hs : ∃ t, step s = .next t
    · obtain ⟨t, hs⟩ := hs
      obtain ⟨ht, hpay⟩ := step_pays h hp hs
      rw [accessesIn_of_next _ _ hp hs]
      exact (Nat.add_le_add_left (ih ht) _).trans hpay
    · have hstop := not_exists.mp hs
      rw [accessesIn_of_stop _ _ hp hstop, State.accessesNext]
      split_ifs with hn
      · rw [admittedAccesses_of_stop h hp hstop hn]
        exact Nat.zero_le _
      · exact Nat.zero_le _

/-- Settles O55: the budget in DECODE is the bound. -/
theorem repackAccessesAreBounded : Obligations.RepackAccessesAreBounded := by
  intro s k hb hp hc
  have hrun : s.unit.inRepack := fun _ => ⟨hb, hc, by simp only [Dqba.phaseInv, hp]⟩
  have hbound := accessesIn_le_accessesLeft k hrun
  rwa [Dqba.accessesLeft_of_phase hp] at hbound

end Sys2Proof.Machine

namespace Sys2Proof.Machine
/-! ## Arrays in memory

The bytes a stretch of elements of one width holds, and what a store to the next element or elsewhere does to
them (20_memory.md R61, R65). -/

/-- Memory holds the values `xs` as the first elements of width `w` at `base`. -/
def HoldsArray (m : Memory) (base : Word) (w : Width) (xs : List Word) : Prop :=
  ∀ (j : Nat) (h : j < xs.length), m.load (elementAddr base w j) w = xs[j]

theorem HoldsArray.nil (m : Memory) (base : Word) (w : Width) : HoldsArray m base w [] := nofun

theorem inBytes_mono {a n n' x : Nat} (hn : n ≤ n') (h : inBytes a n x) : inBytes a n' x := by
  obtain ⟨j, hj, rfl⟩ := h
  exact ⟨j, hj.trans_le hn, rfl⟩

/-- A store apart from a value's bytes leaves it as it was. -/
theorem Memory.load_store_apart (m : Memory) {a b : Word} {w w' : Width} (v : Word)
    (h : ∀ x, inBytes b.toNat (Width.bytes w') x → ¬ inBytes a.toNat (Width.bytes w) x) :
    (m.store a w v).load b w' = m.load b w' :=
  Memory.load_congr fun j hj =>
    Memory.readByte_store_of_outside m a w v _ fun r hr e => h _ ⟨j, hj, rfl⟩ ⟨r, hr, e⟩

/-- Two elements of an array that does not wrap onto itself have no byte in common. -/
theorem elements_apart {base : Word} {w : Width} {j k n : Nat} (hj : j < n) (hk : k < n) (hne : j ≠ k)
    (hfits : Width.bytes w * n ≤ 2 ^ 32) {x : Nat}
    (hx : inBytes (elementAddr base w j).toNat (Width.bytes w) x) :
    ¬ inBytes (elementAddr base w k).toNat (Width.bytes w) x := by
  intro hx'
  obtain ⟨r, hr, rfl⟩ := inBytes_elementAddr.mp hx
  obtain ⟨r', hr', e⟩ := inBytes_elementAddr.mp hx'
  have hlt := Width.offset_lt hj hr
  have hlt' := Width.offset_lt hk hr'
  have heq : Width.bytes w * j + r = Width.bytes w * k + r' := by omega
  cases w <;> simp only [Width.bytes] at heq hr hr' <;> omega

/-- A store of a value that fits reads back. -/
theorem Memory.load_store_of_lt (m : Memory) (a : Word) {w : Width} {v : Word}
    (h : v.toNat < 256 ^ Width.bytes w) : (m.store a w v).load a w = v := by
  rw [Memory.load_store, Nat.mod_eq_of_lt h, BitVec.ofNat_toNat, BitVec.setWidth_eq]

/-- A store to the element after an array makes it one longer. -/
theorem HoldsArray.store_next {m : Memory} {base : Word} {w : Width} {xs : List Word}
    (h : HoldsArray m base w xs) {v : Word} (hfits : Width.bytes w * (xs.length + 1) ≤ 2 ^ 32)
    (hv : v.toNat < 256 ^ Width.bytes w) :
    HoldsArray (m.store (elementAddr base w xs.length) w v) base w (xs ++ [v]) := by
  intro j hj
  rw [List.length_append, List.length_singleton] at hj
  rcases Nat.lt_succ_iff_lt_or_eq.mp hj with hlt | rfl
  · rw [List.getElem_append_left hlt, ← h j hlt]
    exact Memory.load_store_apart m v fun x hx =>
      elements_apart hj (Nat.lt_succ_self _) (Nat.ne_of_lt hlt) hfits hx
  · rw [List.getElem_concat_length rfl, Memory.load_store_of_lt _ _ hv]

/-- A store apart from an array leaves it as it was. -/
theorem HoldsArray.store_apart {m : Memory} {base : Word} {w : Width} {xs : List Word}
    (h : HoldsArray m base w xs) {a : Word} {w' : Width} (v : Word)
    (hapart : ∀ x, inBytes a.toNat (Width.bytes w') x → ¬ inBytes base.toNat (Width.bytes w * xs.length) x) :
    HoldsArray (m.store a w' v) base w xs := by
  intro j hj
  rw [← h j hj]
  exact Memory.load_store_apart m v fun x hx hx' => hapart x hx' (inBytes_of_elementAddr hj hx)

/-- A store to element `j` leaves every byte outside the first `j + 1` elements alone. -/
theorem Memory.readByte_store_element (m : Memory) {base : Word} {w : Width} {j x : Nat} (v : Word)
    (hx : ¬ inBytes base.toNat (Width.bytes w * (j + 1)) x) :
    (m.store (elementAddr base w j) w v).readByte x = m.readByte x :=
  Memory.readByte_store_of_outside m _ w v x fun r hr e =>
    hx (inBytes_of_elementAddr (Nat.lt_succ_self j) ⟨r, hr, e⟩)

/-! ## The output of a REPACK in memory -/

/-- Memory is that of `s` with the packed words `ws`, the anchor components `hs` and the remap entries `es`
written to the output buffers, inside their capacities. -/
structure Wrote (s : State) (m : Memory) (ws hs es : List Word) : Prop where
  packed : HoldsArray m s.unit.rpPk .word ws
  anchors : HoldsArray m s.unit.rpAnc .half hs
  remap : HoldsArray m s.unit.rpRm .word es
  packed_le : ws.length ≤ s.unit.rpMax.toNat
  anchors_le : hs.length ≤ 3 * maxBlocks s
  remap_le : es.length ≤ s.unit.count.toNat
  frame : ∀ x, ¬ inBytes s.unit.rpPk.toNat (4 * ws.length) x →
    ¬ inBytes s.unit.rpAnc.toNat (2 * hs.length) x → ¬ inBytes s.unit.rpRm.toNat (4 * es.length) x →
    m.readByte x = s.mem.readByte x

theorem Wrote.nothing (s : State) : Wrote s s.mem [] [] [] :=
  ⟨.nil _ _ _, .nil _ _ _, .nil _ _ _, Nat.zero_le _, Nat.zero_le _, Nat.zero_le _, fun _ _ _ _ => rfl⟩

section Output
variable {s : State} {m : Memory} {ws hs es : List Word} (hbuf : RepackBuffers s) (h : Wrote s m ws hs es)

include h

theorem Wrote.packedByte {x : Nat} (hx : inBytes s.unit.rpPk.toNat (4 * ws.length) x) :
    packedByte s s.unit.rpMax.toNat x :=
  inBytes_mono (Nat.mul_le_mul_left 4 h.packed_le) hx

theorem Wrote.anchorByte {x : Nat} (hx : inBytes s.unit.rpAnc.toNat (2 * hs.length) x) :
    anchorByte s (maxBlocks s) x := by
  have := h.anchors_le
  exact inBytes_mono (by omega) hx

theorem Wrote.remapByte {x : Nat} (hx : inBytes s.unit.rpRm.toNat (4 * es.length) x) :
    remapByte s s.unit.count.toNat x :=
  inBytes_mono (Nat.mul_le_mul_left 4 h.remap_le) hx

include hbuf

/-- What the output buffers hold changes no byte of the input (20_memory.md R80). -/
theorem Wrote.readByte_of_inputByte {x : Nat} (hx : inputByte s x) : m.readByte x = s.mem.readByte x := by
  obtain ⟨hpk, hanc, hrm⟩ := hbuf.inputApart x hx
  exact h.frame x (fun hx' => hpk (h.packedByte hx')) (fun hx' => hanc (h.anchorByte hx'))
    fun hx' => hrm (h.remapByte hx')

theorem Wrote.halfAt_input {i k : Nat} (hi : i < s.unit.count.toNat) (hk : k < 3) :
    halfAt m (s.unit.inputAddr i k) = halfAt s.mem (s.unit.inputAddr i k) := by
  have hbyte : ∀ j < 2, m.readByte (((s.unit.inputAddr i k).toNat + j) % 2 ^ 32) =
      s.mem.readByte (((s.unit.inputAddr i k).toNat + j) % 2 ^ 32) := fun j hj =>
    h.readByte_of_inputByte hbuf ⟨i, hi, k, hk, j, hj, rfl⟩
  have h0 := hbyte 0 (by decide)
  rw [Nat.add_zero, Nat.mod_eq_of_lt (BitVec.isLt _)] at h0
  rw [halfAt, halfAt, h0, hbyte 1 (by decide)]

/-- The next packed word. -/
theorem Wrote.storePacked (hlt : ws.length < s.unit.rpMax.toNat) (w : Word) :
    Wrote s (m.store (s.unit.packedAddr ws.length) .word w) (ws ++ [w]) hs es := by
  have hfits := hbuf.packedFits
  refine ⟨h.packed.store_next (by simp only [Width.bytes]; omega) w.isLt,
    h.anchors.store_apart w fun x hx hx' =>
      hbuf.packedAnchors x (packedByte_of_slot hlt hx) (h.anchorByte hx'),
    h.remap.store_apart w fun x hx hx' =>
      hbuf.packedRemap x (packedByte_of_slot hlt hx) (h.remapByte hx'),
    by simpa using hlt, h.anchors_le, h.remap_le, fun x hpk hanc hrm => ?_⟩
  rw [List.length_append, List.length_singleton] at hpk
  rw [← h.frame x (fun hx => hpk (inBytes_mono (by omega) hx)) hanc hrm]
  exact Memory.readByte_store_element (w := .word) m w hpk

/-- The next remap entry. -/
theorem Wrote.storeRemap (hlt : es.length < s.unit.count.toNat) (w : Word) :
    Wrote s (m.store (s.unit.remapAddr es.length) .word w) ws hs (es ++ [w]) := by
  have hfits := hbuf.remapFits
  refine ⟨h.packed.store_apart w fun x hx hx' =>
      hbuf.packedRemap x (h.packedByte hx') (remapByte_of_entry hlt hx),
    h.anchors.store_apart w fun x hx hx' =>
      hbuf.anchorsRemap x (h.anchorByte hx') (remapByte_of_entry hlt hx),
    h.remap.store_next (by simp only [Width.bytes]; omega) w.isLt,
    h.packed_le, h.anchors_le, by simpa using hlt, fun x hpk hanc hrm => ?_⟩
  rw [List.length_append, List.length_singleton] at hrm
  rw [← h.frame x hpk hanc (fun hx => hrm (inBytes_mono (by omega) hx))]
  exact Memory.readByte_store_element (w := .word) m w hrm

/-- The next anchor component, `k` of block `b`. -/
theorem Wrote.storeAnchor {b : Nat} {k : Fin 3} (hb : b < maxBlocks s) (hlen : hs.length = 3 * b + k)
    (c : Half) :
    Wrote s (m.store (s.unit.anchorAddr b k) .half (c.setWidth 32)) ws (hs ++ [c.setWidth 32]) es := by
  have hfits := hbuf.anchorsFit
  have hc : (c.setWidth 32).toNat < 256 ^ Width.bytes .half := by
    rw [BitVec.toNat_setWidth_of_le (by decide)]
    exact c.isLt
  have hnext := h.anchors.store_next (v := c.setWidth 32) (by simp only [Width.bytes]; omega) hc
  rw [hlen] at hnext
  refine ⟨h.packed.store_apart _ fun x hx hx' =>
      hbuf.packedAnchors x (h.packedByte hx') (anchorByte_of_component hb hx),
    hnext,
    h.remap.store_apart _ fun x hx hx' =>
      hbuf.anchorsRemap x (anchorByte_of_component hb hx) (h.remapByte hx'),
    h.packed_le, by simp; omega, h.remap_le, fun x hpk hanc hrm => ?_⟩
  rw [List.length_append, List.length_singleton] at hanc
  rw [← h.frame x hpk (fun hx => hanc (inBytes_mono (by omega) hx)) hrm]
  rw [hlen] at hanc
  exact Memory.readByte_store_element (w := .half) m _ hanc

end Output

end Sys2Proof.Machine

namespace Sys2Proof.Machine
/-! ## A REPACK that runs alone (42_repack.md R140)

The states such a run goes through, named by what changes in it: memory, the counters, the vertex latch, ANCHOR
and the phase. Each phase leads from one of them to another. -/

/-- `t` is reached from `s` in some number of steps. -/
abbrev Reaches : State → State → Prop := Relation.ReflTransGen fun s t => step s = .next t

theorem Reaches.exists_runSteps {s t : State} (h : Reaches s t) : ∃ k, runSteps k s = .next t := by
  induction h using Relation.ReflTransGen.head_induction_on with
  | refl => exact ⟨0, rfl⟩
  | head hstep _ ih =>
    obtain ⟨k, hk⟩ := ih
    exact ⟨k + 1, (runSteps_succ k hstep).trans hk⟩

/-- The machine `s` in a phase of its REPACK, with memory `m`, at vertex `i` and slot `p`, after `b` blocks were
started, with vertex latch `v` and ANCHOR `a`. -/
def State.repackAt (s : State) (m : Memory) (i p b : Nat) (v a : Vec3) (ph : Phase) : State :=
  (s.withMem m).withUnit { s.unit with
    i := BitVec.ofNat 32 i
    p := BitVec.ofNat 32 p
    b := BitVec.ofNat 32 b - 1#32
    v := v
    anchor := a
    phase := ph }

theorem toNat_ofNat_of_le {n : Nat} {x : Word} (h : n ≤ x.toNat) : (BitVec.ofNat 32 n).toNat = n :=
  (BitVec.toNat_ofNat n 32).trans (Nat.mod_eq_of_lt (lt_of_le_of_lt h x.isLt))

/-- The number of the current block and the count of blocks started (42_repack.md R142). -/
theorem ofNat_succ_sub_one (b : Nat) : BitVec.ofNat 32 (b + 1) - 1#32 = BitVec.ofNat 32 b := by
  rw [BitVec.ofNat_add, BitVec.add_sub_cancel]

theorem RepackBuffers.lbs_pos {s : State} (h : RepackBuffers s) : 0 < s.unit.lbs.toNat := by
  obtain ⟨hbs, -⟩ := h.legal
  exact (toNat_of_toInt_pos hbs).1

/-- The end of a REPACK that ran out of capacity (42_repack.md R150, R152). -/
def RepackFailed (s t : State) : Prop :=
  onlyUnitAndMem s t ∧ t.unit.phase = .idle ∧ t.unit.status.done = true ∧ t.unit.status.err = true ∧
    t.unit.status.errcode = 1#4 ∧ t.unit.result = 0xFFFFFFFF#32

theorem repackFailed_of_capacity (s : State) (m : Memory) (i p b : Nat) (v a : Vec3) (ph : Phase) :
    RepackFailed s (raiseError (some .repack) .capacity (s.repackAt m i p b v a ph)) :=
  ⟨rfl, rfl, rfl, rfl, rfl, rfl⟩

section Alone
variable {s : State} (hacc : accepted .repack s) (hbuf : RepackBuffers s)
  {m : Memory} {i p b : Nat} {v a : Vec3}

include hacc

/-- Nobody else moves, so every step is REPACK's (log 6). -/
theorem step_repackAt (ph : Phase) :
    step (s.repackAt m i p b v a ph) = execRepack (s.repackAt m i p b v a ph) := by
  obtain ⟨hturns, hbusy, -, hc⟩ := hacc
  have hd : decode s.unit.lopc = .ok .repack := hc ▸ decode_encode .repack
  exact (stepRunsTheDecodedCommand (s.repackAt m i p b v a ph) .repack hbusy hd).1 hturns

/-- One step that its phase's equation gives. -/
theorem reaches_of_execRepack {ph : Phase} {t : State}
    (h : execRepack (s.repackAt m i p b v a ph) = .next t) : Reaches (s.repackAt m i p b v a ph) t :=
  .single ((step_repackAt hacc ph).trans h)

theorem reaches_check (hi : i < s.unit.count.toNat) (hp : p < s.unit.rpMax.toNat) :
    Reaches (s.repackAt m i p b v a .rpCheck) (s.repackAt m i p b v a (.rpRead 0)) := by
  have hi' := toNat_ofNat_of_le hi.le
  have hp' := toNat_ofNat_of_le hp.le
  refine reaches_of_execRepack hacc (execRepack_of_rpCheck rfl |>.trans ?_)
  rcases repackCheck_cases (s.repackAt m i p b v a .rpCheck) with ⟨h, -⟩ | ⟨-, h, -⟩ | ⟨-, -, e⟩
  · exact absurd (hi'.symm.trans (congrArg BitVec.toNat h)) (Nat.ne_of_lt hi)
  · exact absurd (hp' ▸ h) (not_le.mpr hp)
  · rw [e]
    rfl

/-- Out of capacity, the command fails before it reads the vertex (42_repack.md R143). -/
theorem reaches_check_full (hi : i < s.unit.count.toNat) (hp : p = s.unit.rpMax.toNat) :
    ∃ t, Reaches (s.repackAt m i p b v a .rpCheck) t ∧ RepackFailed s t := by
  have hi' := toNat_ofNat_of_le hi.le
  have hp' := toNat_ofNat_of_le hp.le
  refine ⟨_, reaches_of_execRepack hacc (execRepack_of_rpCheck rfl), ?_⟩
  rcases repackCheck_cases (s.repackAt m i p b v a .rpCheck) with ⟨h, -⟩ | ⟨-, -, e⟩ | ⟨-, h, -⟩
  · exact absurd (hi'.symm.trans (congrArg BitVec.toNat h)) (Nat.ne_of_lt hi)
  · rw [e]
    exact repackFailed_of_capacity _ _ _ _ _ _ _ _
  · exact absurd (hp' ▸ h) (not_lt.mpr hp.ge)

/-- With every vertex packed the command completes. -/
theorem reaches_check_done (hi : i = s.unit.count.toNat) :
    Reaches (s.repackAt m i p b v a .rpCheck)
      (complete (some (BitVec.ofNat 32 p)) (s.repackAt m i p b v a .rpCheck)) := by
  refine reaches_of_execRepack hacc (execRepack_of_rpCheck rfl |>.trans ?_)
  have hcount : (s.repackAt m i p b v a .rpCheck).unit.i = (s.repackAt m i p b v a .rpCheck).unit.count :=
    BitVec.eq_of_toNat_eq ((toNat_ofNat_of_le hi.le).trans hi)
  rcases repackCheck_cases (s.repackAt m i p b v a .rpCheck) with ⟨-, e⟩ | ⟨h, -⟩ | ⟨h, -⟩
  · rw [e]
    rfl
  · exact absurd hcount h
  · exact absurd hcount h

theorem reaches_block (h0 : p % s.unit.lbs.toNat = 0) (hp : p ≤ s.unit.rpMax.toNat) :
    Reaches (s.repackAt m i p b v a .rpBlock) (s.repackAt m i p (b + 1) v v (.rpAnchor 0)) := by
  have hp' := toNat_ofNat_of_le hp
  refine reaches_of_execRepack hacc (execRepack_of_rpBlock rfl |>.trans ?_)
  rcases repackBlock_cases (s.repackAt m i p b v a .rpBlock) with ⟨-, e⟩ | ⟨h, -⟩
  · rw [e]
    simp only [State.repackAt, ofNat_succ_sub_one, State.withUnit_unit, BitVec.sub_add_cancel]
    rfl
  · exact absurd (hp'.symm ▸ h0) h

theorem reaches_noBlock (h0 : p % s.unit.lbs.toNat ≠ 0) (hp : p ≤ s.unit.rpMax.toNat) :
    Reaches (s.repackAt m i p b v a .rpBlock) (s.repackAt m i p b v a .rpEval) := by
  have hp' := toNat_ofNat_of_le hp
  refine reaches_of_execRepack hacc (execRepack_of_rpBlock rfl |>.trans ?_)
  rcases repackBlock_cases (s.repackAt m i p b v a .rpBlock) with ⟨h, -⟩ | ⟨-, e⟩
  · exact absurd (hp' ▸ h) h0
  · rw [e]
    rfl

theorem reaches_eval :
    Reaches (s.repackAt m i p b v a .rpEval)
      (s.repackAt m i p b v a (if ovf v a then .rpPad else .rpPack)) := by
  refine reaches_of_execRepack hacc (execRepack_of_rpEval rfl |>.trans ?_)
  rcases repackEval_cases (s.repackAt m i p b v a .rpEval) with ⟨h, e⟩ | ⟨h, e⟩ <;>
    rw [e, show ovf v a = _ from h] <;> rfl

/-- Padding ends at the first slot of a block. -/
theorem reaches_retry (h0 : p % s.unit.lbs.toNat = 0) (hp : p ≤ s.unit.rpMax.toNat) :
    Reaches (s.repackAt m i p b v a .rpPad) (s.repackAt m i p b v a .rpCheck) := by
  have hp' := toNat_ofNat_of_le hp
  refine reaches_of_execRepack hacc (execRepack_of_rpPad rfl |>.trans ?_)
  rcases repackPad_cases (s.repackAt m i p b v a .rpPad) with ⟨-, e⟩ | ⟨h, -⟩ | ⟨h, -⟩ | ⟨h, -⟩
  · rw [e]
    rfl
  all_goals exact absurd (hp'.symm ▸ h0) h

/-- Out of capacity inside a block, the command fails. -/
theorem reaches_pad_full (h0 : p % s.unit.lbs.toNat ≠ 0) (hp : p = s.unit.rpMax.toNat) :
    ∃ t, Reaches (s.repackAt m i p b v a .rpPad) t ∧ RepackFailed s t := by
  have hp' := toNat_ofNat_of_le hp.le
  refine ⟨_, reaches_of_execRepack hacc (execRepack_of_rpPad rfl), ?_⟩
  rcases repackPad_cases (s.repackAt m i p b v a .rpPad) with ⟨h, -⟩ | ⟨-, -, e⟩ | ⟨-, h, -⟩ | ⟨-, h, -⟩
  · exact absurd (hp' ▸ h) h0
  · rw [e]
    exact repackFailed_of_capacity _ _ _ _ _ _ _ _
  all_goals exact absurd (hp' ▸ h) (not_lt.mpr hp.ge)

include hbuf

theorem reaches_read (hi : i < s.unit.count.toNat) (k : Fin 3) :
    Reaches (s.repackAt m i p b v a (.rpRead k))
      (s.repackAt m i p b (v.set k (halfAt m (s.unit.inputAddr i k))) a (afterRead k)) := by
  have hi' : (s.repackAt m i p b v a (.rpRead k)).unit.i.toNat = i := toNat_ofNat_of_le hi.le
  have e := execRepack_of_read (s := s.repackAt m i p b v a (.rpRead k)) (k := k) rfl
    (by rw [hi']; exact hbuf.inputAdmitted i hi k k.isLt)
  rw [hi'] at e
  exact reaches_of_execRepack hacc e

theorem reaches_anchor (hb : b < maxBlocks s) (k : Fin 3) :
    Reaches (s.repackAt m i p (b + 1) v a (.rpAnchor k))
      (s.repackAt (m.store (s.unit.anchorAddr b k) .half ((a.get k).setWidth 32)) i p (b + 1) v a
        (afterAnchor k)) := by
  have hb' : (s.repackAt m i p (b + 1) v a (.rpAnchor k)).unit.b.toNat = b := by
    have hfits := hbuf.anchorsFit
    refine (congrArg BitVec.toNat (ofNat_succ_sub_one b)).trans ?_
    rw [BitVec.toNat_ofNat]
    omega
  have e := execRepack_of_anchor (s := s.repackAt m i p (b + 1) v a (.rpAnchor k)) (k := k) rfl
    (by rw [hb']; exact hbuf.anchorsAdmitted b hb k k.isLt)
  rw [hb'] at e
  exact reaches_of_execRepack hacc e

theorem reaches_pack (hp : p < s.unit.rpMax.toNat) :
    Reaches (s.repackAt m i p b v a .rpPack)
      (s.repackAt (m.store (s.unit.packedAddr p) .word (vertexWord v a)) i p b v a .rpRemap) := by
  have hp' : (s.repackAt m i p b v a .rpPack).unit.p.toNat = p := toNat_ofNat_of_le hp.le
  have e := execRepack_of_pack (s := s.repackAt m i p b v a .rpPack) rfl
    (by rw [hp']; exact hbuf.packedAdmitted p hp)
  rw [hp'] at e
  exact reaches_of_execRepack hacc e

theorem reaches_remap (hi : i < s.unit.count.toNat) :
    Reaches (s.repackAt m i p b v a .rpRemap)
      (s.repackAt (m.store (s.unit.remapAddr i) .word (BitVec.ofNat 32 p)) (i + 1) (p + 1) b v a
        .rpCheck) := by
  have hi' : (s.repackAt m i p b v a .rpRemap).unit.i.toNat = i := toNat_ofNat_of_le hi.le
  have e := execRepack_of_remap (s := s.repackAt m i p b v a .rpRemap) rfl
    (by rw [hi']; exact hbuf.remapAdmitted i hi)
  rw [hi'] at e
  refine reaches_of_execRepack hacc (e.trans ?_)
  simp only [State.repackAt, BitVec.ofNat_add]
  rfl

theorem reaches_pad (h0 : p % s.unit.lbs.toNat ≠ 0) (hp : p < s.unit.rpMax.toNat) :
    Reaches (s.repackAt m i p b v a .rpPad)
      (s.repackAt (m.store (s.unit.packedAddr p) .word 0#32) i (p + 1) b v a .rpPad) := by
  have hp' : (s.repackAt m i p b v a .rpPad).unit.p.toNat = p := toNat_ofNat_of_le hp.le
  have e := execRepack_of_pad (s := s.repackAt m i p b v a .rpPad) rfl (by rw [hp']; exact h0)
    (by rw [hp']; exact hp) (by rw [hp']; exact hbuf.packedAdmitted p hp)
  rw [hp'] at e
  refine reaches_of_execRepack hacc (e.trans ?_)
  simp only [State.repackAt, BitVec.ofNat_add]
  rfl

/-! ### From one vertex to the next -/

/-- The three reads latch vertex `i` as it was before the command (42_repack.md R144). -/
theorem reaches_vertex {ws hs es : List Word} (h : Wrote s m ws hs es) (hi : i < s.unit.count.toNat)
    (hp : p < s.unit.rpMax.toNat) :
    Reaches (s.repackAt m i p b v a .rpCheck) (s.repackAt m i p b (vertexAt s i) a .rpBlock) := by
  have hread := fun u k => reaches_read (m := m) (i := i) (p := p) (b := b) (v := u) (a := a) hacc hbuf hi k
  have hv : vertexAt s i = ⟨halfAt m (s.unit.inputAddr i 0), halfAt m (s.unit.inputAddr i 1),
      halfAt m (s.unit.inputAddr i 2)⟩ := by
    rw [h.halfAt_input hbuf hi (by decide), h.halfAt_input hbuf hi (by decide),
      h.halfAt_input hbuf hi (by decide)]
    rfl
  rw [hv]
  exact (((reaches_check hacc hi hp).trans (hread v 0)).trans (hread _ 1)).trans (hread _ 2)

/-- A vertex in range of ANCHOR is packed and recorded (42_repack.md R148). -/
theorem reaches_placed {ws hs es : List Word} (h : Wrote s m ws hs es) (ho : ovf v a = false)
    (hes : es.length = i) (hi : i < s.unit.count.toNat) (hp : ws.length < s.unit.rpMax.toNat) :
    ∃ m', Wrote s m' (ws ++ [vertexWord v a]) hs (es ++ [BitVec.ofNat 32 ws.length]) ∧
      Reaches (s.repackAt m i ws.length b v a .rpEval)
        (s.repackAt m' (i + 1) (ws.length + 1) b v a .rpCheck) := by
  subst hes
  have heval := reaches_eval (m := m) (i := es.length) (p := ws.length) (b := b) (v := v) (a := a) hacc
  rw [ho] at heval
  exact ⟨_, (h.storePacked hbuf hp _).storeRemap hbuf hi _,
    (heval.trans (reaches_pack hacc hbuf hp)).trans (reaches_remap hacc hbuf hi)⟩

/-- The components of a vertex as they are stored. -/
def Vec3.halves (v : Vec3) : List Word := [v.x.setWidth 32, v.y.setWidth 32, v.z.setWidth 32]

/-- At the first slot of a block the vertex becomes ANCHOR and is stored (42_repack.md R145, R146). -/
theorem reaches_anchored {ws hs es : List Word} (h : Wrote s m ws hs es)
    (h0 : p % s.unit.lbs.toNat = 0) (hp : p ≤ s.unit.rpMax.toNat) (hb : b < maxBlocks s)
    (hlen : hs.length = 3 * b) :
    ∃ m', Wrote s m' ws (hs ++ v.halves) es ∧
      Reaches (s.repackAt m i p b v a .rpBlock) (s.repackAt m' i p (b + 1) v v .rpEval) := by
  have hw := ((h.storeAnchor hbuf (k := 0) hb hlen v.x).storeAnchor hbuf (k := 1) hb (by simp [hlen])
    v.y).storeAnchor hbuf (k := 2) hb (by simp [hlen]) v.z
  rw [List.append_assoc, List.append_assoc] at hw
  have hanchor := fun m k => reaches_anchor (m := m) (i := i) (p := p) (v := v) (a := v) hacc hbuf hb k
  exact ⟨_, hw, (((reaches_block hacc h0 hp).trans (hanchor m 0)).trans (hanchor _ 1)).trans (hanchor _ 2)⟩

/-- Padding from slot `p` for `d` slots: to the first slot of the next block, or out of capacity. -/
theorem reaches_padded {hs es : List Word} (d : Nat) {m : Memory} {ws : List Word} (h : Wrote s m ws hs es)
    (hd : (ws.length + d) % s.unit.lbs.toNat = 0) (hlt : d < s.unit.lbs.toNat) :
    (ws.length + d ≤ s.unit.rpMax.toNat ∧ ∃ m', Wrote s m' (ws ++ List.replicate d 0#32) hs es ∧
      Reaches (s.repackAt m i ws.length b v a .rpPad) (s.repackAt m' i (ws.length + d) b v a .rpCheck)) ∨
    (s.unit.rpMax.toNat < ws.length + d ∧ ∃ t, Reaches (s.repackAt m i ws.length b v a .rpPad) t ∧
      RepackFailed s t) := by
  induction d generalizing m ws with
  | zero =>
    exact .inl ⟨h.packed_le, m, by simpa using h, reaches_retry hacc hd h.packed_le⟩
  | succ d ih =>
    have hin : ws.length % s.unit.lbs.toNat ≠ 0 := fun h0 => by
      rw [Nat.add_mod, h0, Nat.zero_add, Nat.mod_mod, Nat.mod_eq_of_lt hlt] at hd
      cases hd
    rcases Nat.lt_or_eq_of_le h.packed_le with hp | hp
    · have hpad := reaches_pad (m := m) (i := i) (b := b) (v := v) (a := a) hacc hbuf hin hp
      have hnext := h.storePacked hbuf hp 0#32
      have hlen : (ws ++ [0#32]).length = ws.length + 1 := by simp
      have ih := ih hnext (by rw [hlen, ← hd]; congr 1; omega) (by omega)
      rw [hlen, Nat.add_assoc, Nat.add_comm 1 d, List.append_assoc] at ih
      rcases ih with ⟨hle, m', hw, hr⟩ | ⟨hgt, t, hr, hf⟩
      · exact .inl ⟨hle, m', hw, hpad.trans hr⟩
      · exact .inr ⟨hgt, t, hpad.trans hr, hf⟩
    · exact .inr ⟨by omega, reaches_pad_full hacc hin hp⟩

end Alone
end Sys2Proof.Machine

namespace Sys2Proof.Machine
/-! ## A REPACK that runs alone computes `packVertices`

At RP_CHECK the counters are the lengths of the output so far and memory holds it. One vertex takes the run from
the output so far to `Packed.push` of it, and so the whole run to the fold over the vertices. -/

/-- The components of the anchors of a packing as they are stored. -/
def Packed.halves (out : Packed) : List Word := out.anchors.flatMap Vec3.halves

theorem length_flatMap_halves (as : List Vec3) : (as.flatMap Vec3.halves).length = 3 * as.length := by
  simp [Vec3.halves, List.length_flatMap, Nat.mul_comm]

/-- Component `k` of anchor `b` among the stored components. -/
theorem getElem?_flatMap_halves (as : List Vec3) (b : Nat) (hb : b < as.length) (k : Fin 3) :
    (as.flatMap Vec3.halves)[3 * b + k]? = some ((as[b].get k).setWidth 32) := by
  induction as generalizing b with
  | nil => cases hb
  | cons a as ih =>
    cases b with
    | zero =>
      match k with
      | 0 | 1 | 2 => rfl
    | succ b =>
      have hrest := ih b (Nat.lt_of_succ_lt_succ hb)
      rwa [List.flatMap_cons, List.getElem?_append_right (by simp [Vec3.halves]; omega),
        show 3 * (b + 1) + (k : Nat) - a.halves.length = 3 * b + k by simp [Vec3.halves]; omega]

/-- Memory holds the output so far. -/
abbrev WroteOutput (s : State) (m : Memory) (out : Packed) : Prop :=
  Wrote s m out.words out.halves (out.slots.map (BitVec.ofNat 32))

/-- The machine `s` in RP_CHECK with the output so far. -/
def State.atCheck (s : State) (m : Memory) (out : Packed) (v : Vec3) : State :=
  s.repackAt m out.slots.length out.words.length out.anchors.length v (out.current s.unit.anchor) .rpCheck

/-- The vertex to be packed next. -/
abbrev nextVertex (s : State) (out : Packed) : Vec3 := vertexAt s out.slots.length

/-- From `t` the run of `s` goes on to RP_CHECK with some output, or to the end for want of capacity. -/
def RepackGoesTo (s t : State) : Option Packed → Prop
  | some out => ∃ m v, WroteOutput s m out ∧ Reaches t (s.atCheck m out v)
  | none => ∃ t', Reaches t t' ∧ RepackFailed s t'

theorem RepackGoesTo.head {s t t' : State} {o : Option Packed} (h : Reaches t t')
    (h' : RepackGoesTo s t' o) : RepackGoesTo s t o := by
  cases o with
  | none =>
    obtain ⟨u, hr, hf⟩ := h'
    exact ⟨u, h.trans hr, hf⟩
  | some out =>
    obtain ⟨m, v, hw, hr⟩ := h'
    exact ⟨m, v, hw, h.trans hr⟩

section Alone
variable {s : State} (hacc : accepted .repack s) (hbuf : RepackBuffers s)
include hacc

/-- Out of capacity. -/
theorem goesTo_full {m : Memory} {out : Packed} (v : Vec3) (hi : out.slots.length < s.unit.count.toNat)
    (hp : out.words.length = s.unit.rpMax.toNat) : RepackGoesTo s (s.atCheck m out v) none :=
  reaches_check_full hacc hi hp

include hbuf

/-- A vertex that starts a block (42_repack.md R145, R148). -/
theorem goesTo_firstOfBlock {m : Memory} {out : Packed} (v : Vec3) (h : WroteOutput s m out)
    (hi : out.slots.length < s.unit.count.toNat) (hp : out.words.length < s.unit.rpMax.toNat)
    (h0 : out.words.length % s.unit.lbs.toNat = 0) (hb : out.anchors.length < maxBlocks s) :
    RepackGoesTo s (s.atCheck m out v)
      (some (out.append ⟨[vertexWord (nextVertex s out) (nextVertex s out)],
        [nextVertex s out], [out.words.length]⟩)) := by
  obtain ⟨m₁, hw₁, hr₁⟩ := reaches_anchored (i := out.slots.length) (v := nextVertex s out)
    (a := out.current s.unit.anchor) hacc hbuf h h0 hp.le hb (length_flatMap_halves _)
  obtain ⟨m₂, hw₂, hr₂⟩ := reaches_placed hacc hbuf hw₁ (ovf_self _) (List.length_map _) hi hp
  refine ⟨m₂, nextVertex s out, ?_, ?_⟩
  · simpa [WroteOutput, Packed.append, Packed.halves] using hw₂
  · have hcheck := ((reaches_vertex (v := v) hacc hbuf h hi hp).trans hr₁).trans hr₂
    simpa [State.atCheck, Packed.current] using hcheck

/-- A vertex that joins the current block (42_repack.md R148). -/
theorem goesTo_joined {m : Memory} {out : Packed} (v : Vec3) (h : WroteOutput s m out)
    (hi : out.slots.length < s.unit.count.toNat) (hp : out.words.length < s.unit.rpMax.toNat)
    (h0 : out.words.length % s.unit.lbs.toNat ≠ 0)
    (ho : ovf (nextVertex s out) (out.current s.unit.anchor) = false) :
    RepackGoesTo s (s.atCheck m out v)
      (some (out.append ⟨[vertexWord (nextVertex s out) (out.current s.unit.anchor)], [],
        [out.words.length]⟩)) := by
  obtain ⟨m₁, hw₁, hr₁⟩ := reaches_placed (b := out.anchors.length) hacc hbuf h ho (List.length_map _) hi hp
  refine ⟨m₁, nextVertex s out, ?_, ?_⟩
  · simpa [WroteOutput, Packed.append, Packed.halves] using hw₁
  · have hcheck := ((reaches_vertex (v := v) hacc hbuf h hi hp).trans
      (reaches_noBlock hacc h0 hp.le)).trans hr₁
    simpa [State.atCheck, Packed.current] using hcheck

/-- A vertex that overflows closes the block (42_repack.md R149, R150). -/
theorem goesTo_padded {m : Memory} {out : Packed} (v : Vec3) (h : WroteOutput s m out)
    (hi : out.slots.length < s.unit.count.toNat) (hp : out.words.length < s.unit.rpMax.toNat)
    (h0 : out.words.length % s.unit.lbs.toNat ≠ 0)
    (ho : ovf (nextVertex s out) (out.current s.unit.anchor) = true) (d : Nat)
    (hd : (out.words.length + d) % s.unit.lbs.toNat = 0) (hlt : d < s.unit.lbs.toNat) :
    RepackGoesTo s (s.atCheck m out v)
      (if out.words.length + d ≤ s.unit.rpMax.toNat then some (out.append ⟨List.replicate d 0#32, [], []⟩)
        else none) := by
  have heval := reaches_eval (m := m) (i := out.slots.length) (p := out.words.length)
    (b := out.anchors.length) (v := nextVertex s out) (a := out.current s.unit.anchor) hacc
  rw [ho] at heval
  have hpad := ((reaches_vertex (v := v) hacc hbuf h hi hp).trans (reaches_noBlock hacc h0 hp.le)).trans heval
  rcases reaches_padded (i := out.slots.length) (b := out.anchors.length)
    (v := nextVertex s out) (a := out.current s.unit.anchor) hacc hbuf d h hd hlt with
    ⟨hle, m', hw, hr⟩ | ⟨hgt, t, hr, hf⟩
  · rw [if_pos hle]
    refine ⟨m', nextVertex s out, ?_, ?_⟩
    · simpa [WroteOutput, Packed.append, Packed.halves] using hw
    · simpa [State.atCheck, Packed.current] using hpad.trans hr
  · rw [if_neg (not_le.mpr hgt)]
    exact ⟨t, hpad.trans hr, hf⟩

/-- A vertex that overflows is packed as the first of the next block, if there is room (42_repack.md R150). -/
theorem goesTo_overflowed {m : Memory} {out : Packed} {done : List Vec3} (v : Vec3) (h : WroteOutput s m out)
    (hout : PackingOf s.unit.lbs.toNat s.unit.rpMax.toNat done out)
    (hi : out.slots.length < s.unit.count.toNat) (hp : out.words.length < s.unit.rpMax.toNat)
    (h0 : out.words.length % s.unit.lbs.toNat ≠ 0)
    (ho : ovf (nextVertex s out) (out.current s.unit.anchor) = true) {d : Nat}
    (hd : d = s.unit.lbs.toNat - out.words.length % s.unit.lbs.toNat) :
    RepackGoesTo s (s.atCheck m out v)
      (if s.unit.rpMax.toNat ≤ out.words.length + d then none
        else some (out.append ⟨List.replicate d 0#32 ++
            [vertexWord (nextVertex s out) (nextVertex s out)],
          [nextVertex s out], [out.words.length + d]⟩)) := by
  have hbs := hbuf.lbs_pos
  have hnext := next_block_eq out.words.length hbs
  rw [← hd] at hnext
  have hmod : (out.words.length + d) % s.unit.lbs.toNat = 0 := by rw [hnext, Nat.mul_mod_right]
  have hpad := goesTo_padded hacc hbuf v h hi hp h0 ho d hmod (by omega)
  rcases Nat.lt_trichotomy (out.words.length + d) s.unit.rpMax.toNat with hlt | heq | hgt
  · rw [if_pos hlt.le] at hpad
    obtain ⟨m', v', hw', hr⟩ := hpad
    rw [if_neg (not_le.mpr hlt)]
    have hb : out.anchors.length < maxBlocks s := by
      have hlast := div_lt_blocksBelow hbs hlt
      rwa [hnext, Nat.mul_div_cancel_left _ hbs, ← blocksBelow_of_inside hbs h0,
        ← hout.anchors_length] at hlast
    have hfirst := goesTo_firstOfBlock hacc hbuf v' hw' (by simpa using hi) (by simpa using hlt)
      (by simpa using hmod) (by simpa using hb)
    simpa [Packed.append] using hfirst.head hr
  · rw [if_pos heq.le] at hpad
    obtain ⟨m', v', -, hr⟩ := hpad
    rw [if_pos heq.ge]
    exact (goesTo_full hacc v' (by simpa using hi) (by simpa using heq)).head hr
  · rw [if_neg (not_le.mpr hgt)] at hpad
    rw [if_pos hgt.le]
    exact hpad

/-- One vertex takes the run from the output so far to `push` of it. -/
theorem goesTo_push {m : Memory} {out : Packed} {done : List Vec3} (v : Vec3) (h : WroteOutput s m out)
    (hout : PackingOf s.unit.lbs.toNat s.unit.rpMax.toNat done out)
    (hi : out.slots.length < s.unit.count.toNat) :
    RepackGoesTo s (s.atCheck m out v)
      (out.push s.unit.lbs.toNat s.unit.rpMax.toNat s.unit.anchor (nextVertex s out)) := by
  have hbs := hbuf.lbs_pos
  unfold Packed.push placeVertex
  split_ifs with hmax h0 ho hmax'
  · exact goesTo_full hacc v hi (le_antisymm h.packed_le hmax)
  · have hb : out.anchors.length < maxBlocks s := by
      rw [hout.anchors_length, blocksBelow_of_boundary hbs h0]
      exact div_lt_blocksBelow hbs (not_le.mp hmax)
    exact goesTo_firstOfBlock hacc hbuf v h hi (not_le.mp hmax) h0 hb
  · have hover := goesTo_overflowed hacc hbuf v h hout hi (not_le.mp hmax) h0 ho rfl
    rwa [if_pos hmax'] at hover
  · have hover := goesTo_overflowed hacc hbuf v h hout hi (not_le.mp hmax) h0 ho rfl
    rwa [if_neg hmax'] at hover
  · exact goesTo_joined hacc hbuf v h hi (not_le.mp hmax) h0 (by simpa using ho)

/-- The rest of the vertices take the run to the fold of `push` over them. -/
theorem goesTo_foldlM {done : List Vec3} (vs : List Vec3) (hvs : inputVertices s = done ++ vs) {m : Memory}
    {out : Packed} (v : Vec3) (h : WroteOutput s m out)
    (hout : PackingOf s.unit.lbs.toNat s.unit.rpMax.toNat done out) :
    RepackGoesTo s (s.atCheck m out v)
      (vs.foldlM (Packed.push s.unit.lbs.toNat s.unit.rpMax.toNat s.unit.anchor) out) := by
  induction vs generalizing done m out v with
  | nil => exact ⟨m, v, h, .refl⟩
  | cons x vs ih =>
    have hlen : done.length < (inputVertices s).length := by simp [hvs]
    have hx : x = nextVertex s out := by
      have hget : (inputVertices s)[done.length] = x := by simp [hvs]
      rw [← hget, nextVertex, hout.slots_length]
      simp [inputVertices]
    have hi : out.slots.length < s.unit.count.toNat := by
      simpa [hout.slots_length, inputVertices] using hlen
    have hpush := goesTo_push hacc hbuf v h hout hi
    rw [← hx] at hpush
    rw [List.foldlM_cons]
    cases hr : out.push s.unit.lbs.toNat s.unit.rpMax.toNat s.unit.anchor x with
    | none =>
      rw [hr] at hpush
      exact hpush
    | some out' =>
      rw [hr] at hpush
      obtain ⟨m', v', hw', hreach⟩ := hpush
      have hbs := hbuf.lbs_pos
      exact (ih (by simp [hvs]) v' hw' (hout.push hbs hr)).head hreach

/-- From its acceptance the command gets to RP_CHECK with no output yet (42_repack.md R142). -/
theorem reaches_start : Reaches s (s.atCheck s.mem Packed.empty s.unit.v) := by
  obtain ⟨hturns, hbusy, hp, hc⟩ := hacc
  obtain ⟨hbs, hin, hanc, hpk, hrm⟩ := hbuf.legal
  have hstart : execRepack s = .next (s.atCheck s.mem Packed.empty s.unit.v) :=
    (repackChecksThenInitialises s hp).2.2 hbs hin hanc hpk hrm
  exact .single (((stepRunsTheDecodedCommand s .repack hbusy (hc ▸ decode_encode .repack)).1 hturns).trans
    hstart)

/-- A REPACK that runs alone goes on to RP_CHECK with the packing of its vertices, or fails. -/
theorem goesTo_packVertices :
    RepackGoesTo s s
      (packVertices s.unit.lbs.toNat s.unit.rpMax.toNat (inputVertices s) 0 s.unit.anchor) := by
  have hbs := hbuf.lbs_pos
  rw [packVertices_eq_foldlM]
  exact (goesTo_foldlM hacc hbuf (inputVertices s) rfl s.unit.v (Wrote.nothing s)
    (PackingOf.empty _ _ hbs)).head (reaches_start hacc hbuf)

end Alone

/-- The packed words in memory, as the statement reads them. -/
theorem WroteOutput.wordAt_packed {s : State} {m : Memory} {r : Packed} (h : WroteOutput s m r) {p : Nat}
    (hp : p < r.words.length) : wordAt m (s.unit.packedAddr p) = r.words[p] := by
  rw [← Memory.load_word]
  exact h.packed p hp

theorem WroteOutput.wordAt_remap {s : State} {m : Memory} {r : Packed} (h : WroteOutput s m r) {i : Nat}
    (hi : i < r.slots.length) : wordAt m (s.unit.remapAddr i) = BitVec.ofNat 32 r.slots[i] := by
  have hload := h.remap i (by simpa using hi)
  rw [List.getElem_map] at hload
  rw [← Memory.load_word]
  exact hload

theorem WroteOutput.halfAt_anchor {s : State} {m : Memory} {r : Packed} (h : WroteOutput s m r) {b : Nat}
    (hb : b < r.anchors.length) (k : Fin 3) : halfAt m (s.unit.anchorAddr b k) = r.anchors[b].get k := by
  obtain ⟨hlt, hget⟩ := List.getElem?_eq_some_iff.mp (getElem?_flatMap_halves r.anchors b hb k)
  have hload := (h.anchors _ hlt).trans hget
  rw [← Dqba.anchorAddr_eq, Memory.load_half] at hload
  have hlow := congrArg (BitVec.setWidth 16) hload
  rwa [BitVec.setWidth_setWidth_of_le _ (by decide), BitVec.setWidth_setWidth_of_le _ (by decide),
    BitVec.setWidth_eq, BitVec.setWidth_eq] at hlow

/-- No byte outside the output changes. -/
theorem WroteOutput.readByte_of_outside {s : State} {m : Memory} {r : Packed} (h : WroteOutput s m r)
    {x : Nat} (hpk : ¬ packedByte s r.words.length x) (hanc : ¬ anchorByte s r.anchors.length x)
    (hrm : ¬ remapByte s r.slots.length x) : m.readByte x = s.mem.readByte x := by
  have hlen : 2 * r.halves.length = 6 * r.anchors.length := by
    rw [Packed.halves, length_flatMap_halves]
    omega
  exact h.frame x hpk (by rwa [hlen]) (by rwa [List.length_map])

/-- Settles O56: the run goes on to RP_CHECK with the packing of its vertices in memory, where it completes,
or it fails. -/
theorem repackComputesThePacking : Obligations.RepackComputesThePacking := by
  intro s hacc hbuf
  have hbs := hbuf.lbs_pos
  have hgo := goesTo_packVertices hacc hbuf
  cases hr : packVertices s.unit.lbs.toNat s.unit.rpMax.toNat (inputVertices s) 0 s.unit.anchor with
  | none =>
    rw [hr] at hgo
    obtain ⟨t, hreach, hfailed⟩ := hgo
    obtain ⟨k, hk⟩ := Reaches.exists_runSteps hreach
    exact ⟨k, t, hk, hfailed⟩
  | some r =>
    rw [hr] at hgo
    obtain ⟨m, v, hw, hreach⟩ := hgo
    have hall : r.slots.length = s.unit.count.toNat := by
      rw [(packingOf_packVertices hbs hr).slots_length]
      simp [inputVertices]
    obtain ⟨k, hk⟩ := Reaches.exists_runSteps (hreach.trans (reaches_check_done hacc hall))
    exact ⟨k, _, hk, rfl, rfl, rfl, rfl, rfl, fun p hp => hw.wordAt_packed hp,
      fun b hb k => hw.halfAt_anchor hb k, fun i hi => hw.wordAt_remap hi,
      fun x => hw.readByte_of_outside⟩

end Sys2Proof.Machine

namespace Sys2Proof.Machine
/-! ## The phases of REMAP32 and REMAPG (43_remap.md R170, R171)

Which function runs in each phase. In its loop a command is named by its width: REMAP32 works on 32-bit elements,
REMAPG on those its stride selects. -/

/-- The command `i` works on index elements of width `w`. -/
def Dqba.remapsWith (u : Dqba) (i : Instr) (w : Width) : Prop :=
  (i = .remap32 ∧ w = .word) ∨ (i = .remapg ∧ strideWidth u.rmStride = some w)

theorem exec_remap32_of_decode {s : State} (h : s.unit.phase = .decode) :
    exec .remap32 s = .next (remap32Start s) := by
  simp only [exec, execRemap32, h]

theorem exec_remapg_of_decode {s : State} (h : s.unit.phase = .decode) :
    exec .remapg s = .next (remapgStart s) := by
  simp only [exec, execRemapg, h]

theorem atStride_of_some {s : State} {w : Width} (h : strideWidth s.unit.rmStride = some w)
    (f : Width → State) : atStride s f = .next (f w) := by
  simp only [atStride, h]

theorem strideWidth_eq_none_iff {x : Word} : strideWidth x = none ↔ x ≠ 2#32 ∧ x ≠ 4#32 := by
  unfold strideWidth
  split_ifs with h2 h4
  · simp [h2]
  · simp [h4]
  · simp [h2, h4]

section Phases
variable {s : State} {i : Instr} {w : Width} (h : s.unit.remapsWith i w)
include h

theorem exec_remap_of_rmCheck (hp : s.unit.phase = .rmCheck) : exec i s = .next (remapCheck s) := by
  rcases h with ⟨rfl, -⟩ | ⟨rfl, -⟩
  · simp only [exec, execRemap32, hp]
  · simp only [exec, execRemapg, hp]

theorem exec_remap_of_rmRdIdx (hp : s.unit.phase = .rmRdIdx) :
    exec i s = .next (remapReadIndex i w s) := by
  rcases h with ⟨rfl, rfl⟩ | ⟨rfl, hw⟩
  · simp only [exec, execRemap32, hp]
  · simp only [exec, execRemapg, hp, atStride_of_some hw]

theorem exec_remap_of_rmRdTbl (hp : s.unit.phase = .rmRdTbl) : exec i s = .next (remapReadTable i s) := by
  rcases h with ⟨rfl, -⟩ | ⟨rfl, -⟩
  · simp only [exec, execRemap32, hp]
  · simp only [exec, execRemapg, hp]

theorem exec_remap_of_rmWrIdx (hp : s.unit.phase = .rmWrIdx) :
    exec i s = .next (remapWriteIndex i w s) := by
  rcases h with ⟨rfl, rfl⟩ | ⟨rfl, hw⟩
  · simp only [exec, execRemap32, hp]
  · simp only [exec, execRemapg, hp, atStride_of_some hw]

/-! ### One element, its accesses admitted -/

/-- After the last element the command completes and leaves RESULT. -/
theorem exec_remap_done (hp : s.unit.phase = .rmCheck) (hi : s.unit.i = s.unit.count) :
    exec i s = .next (s.withUnit (s.unit.endedWell s.unit.result)) := by
  rw [exec_remap_of_rmCheck h hp, remapCheck, if_pos hi]
  rfl

theorem exec_remap_more (hp : s.unit.phase = .rmCheck) (hi : s.unit.i ≠ s.unit.count) :
    exec i s = .next (s.goto .rmRdIdx) := by
  rw [exec_remap_of_rmCheck h hp, remapCheck, if_neg hi]

theorem exec_remap_readIndex (hp : s.unit.phase = .rmRdIdx)
    (hok : memOK s.refused (s.unit.indexAddr w s.unit.i.toNat) w = true) :
    exec i s =
      .next (s.withUnit { s.unit with
        iv := s.mem.load (s.unit.indexAddr w s.unit.i.toNat) w
        phase := .rmRdTbl }) := by
  rw [exec_remap_of_rmRdIdx h hp, remapReadIndex, portRead_admitted hok]

theorem exec_remap_readTable (hp : s.unit.phase = .rmRdTbl)
    (hok : memOK s.refused (s.unit.tableAddr s.unit.iv.toNat) .word = true) :
    exec i s =
      .next (s.withUnit { s.unit with
        tv := s.mem.load (s.unit.tableAddr s.unit.iv.toNat) .word
        phase := .rmWrIdx }) := by
  rw [exec_remap_of_rmRdTbl h hp, remapReadTable, portRead_admitted hok]

theorem exec_remap_writeIndex (hp : s.unit.phase = .rmWrIdx)
    (hok : memOK s.refused (s.unit.indexAddr w s.unit.i.toNat) w = true) :
    exec i s =
      .next ((s.withMem (s.mem.store (s.unit.indexAddr w s.unit.i.toNat) w (narrow w s.unit.tv))).withUnit
        { s.unit with i := s.unit.i + 1#32, phase := .rmCheck }) := by
  rw [exec_remap_of_rmWrIdx h hp, remapWriteIndex, portWrite_admitted hok]
  rfl

end Phases

/-! ## The steps of REMAP32 and REMAPG, spelled out -/

/-- With stride 4 the start of REMAPG makes the checks of REMAP32's: the stride passes, and no error of either
changes RESULT (60_exceptions.md R206). -/
theorem remapgStart_of_stride_four {s : State} (h : s.unit.rmStride = 4#32) :
    remapgStart s = remap32Start s := by
  rw [remapgStart, h]
  rfl

/-- Settles O38: phase by phase, the two commands run the same function, at width 4. -/
theorem remapgWithStrideFourIsRemap32 : Obligations.RemapgWithStrideFourIsRemap32 := by
  intro s h4
  have hg : s.unit.remapsWith .remapg .word := .inr ⟨rfl, congrArg strideWidth h4⟩
  have h32 : s.unit.remapsWith .remap32 .word := .inl ⟨rfl, rfl⟩
  cases hp : s.unit.phase with
  | decode => rw [exec_remapg_of_decode hp, exec_remap32_of_decode hp, remapgStart_of_stride_four h4]
  | rmCheck => rw [exec_remap_of_rmCheck hg hp, exec_remap_of_rmCheck h32 hp]
  | rmRdIdx =>
    rw [exec_remap_of_rmRdIdx hg hp, exec_remap_of_rmRdIdx h32 hp]
    rfl
  | rmRdTbl =>
    rw [exec_remap_of_rmRdTbl hg hp, exec_remap_of_rmRdTbl h32 hp]
    rfl
  | rmWrIdx =>
    rw [exec_remap_of_rmWrIdx hg hp, exec_remap_of_rmWrIdx h32 hp]
    rfl
  | idle | sbWrite | rpCheck | rpRead | rpBlock | rpAnchor | rpEval | rpPack | rpRemap | rpPad =>
    simp only [exec, execRemapg, execRemap32, hp]

/-- Settles O34: the two ways the start of REMAP32 ends. -/
theorem remap32ChecksAlignment : Obligations.Remap32ChecksAlignment := by
  intro s hp
  rw [exec_remap32_of_decode hp]
  rcases remap32Start_cases s with ⟨hbad, e⟩ | ⟨hidx, htbl, e⟩ <;> rw [e]
  · exact ⟨fun _ => rfl, fun hidx htbl => False.elim (hbad.elim (· hidx) (· htbl))⟩
  · exact ⟨fun hbad => False.elim (hbad.elim (· hidx) (· htbl)), fun _ _ => rfl⟩

/-- Settles O35: a stride that selects no width, else the two ways the alignment check ends at that width. -/
theorem remapgChecksStrideThenAlignment : Obligations.RemapgChecksStrideThenAlignment := by
  intro s hp
  rw [exec_remapg_of_decode hp]
  rcases remapgStart_cases s with ⟨hnone, e⟩ | ⟨w, hw, hstart⟩
  · obtain ⟨h2, h4⟩ := strideWidth_eq_none_iff.mp hnone
    have hno (h : s.unit.rmStride = 2#32 ∨ s.unit.rmStride = 4#32) : False := h.elim h2 h4
    rw [e]
    exact ⟨fun _ _ => rfl, fun h => (hno h).elim, fun h => (hno h).elim⟩
  · obtain ⟨hbytes, hstride⟩ := strideWidth_bytes hw
    rw [hbytes] at hstart
    have hno (h2 : s.unit.rmStride ≠ 2#32) (h4 : s.unit.rmStride ≠ 4#32) : False := hstride.elim h2 h4
    rcases hstart with ⟨hbad, e⟩ | ⟨hidx, htbl, e⟩ <;> rw [e]
    · exact ⟨fun h2 h4 => (hno h2 h4).elim, fun _ _ => rfl,
        fun _ hidx htbl => False.elim (hbad.elim (· hidx) (· htbl))⟩
    · exact ⟨fun h2 h4 => (hno h2 h4).elim, fun _ hbad => False.elim (hbad.elim (· hidx) (· htbl)),
        fun _ _ _ => rfl⟩

/-- Settles O36: the addresses are `indexAddr` of the element at width 4 and `tableAddr` of IV. -/
theorem remap32RewritesAnElement : Obligations.Remap32RewritesAnElement := by
  intro s
  have h : s.unit.remapsWith .remap32 .word := .inl ⟨rfl, rfl⟩
  refine ⟨exec_remap_done h, exec_remap_more h, fun a hp ha hok => ?_, fun a hp ha hok => ?_,
    fun a hp ha hok => ?_⟩ <;> subst ha
  · rw [← Memory.load_word]
    exact exec_remap_readIndex h hp hok
  · rw [← Memory.load_word]
    exact exec_remap_readTable h hp hok
  · exact ⟨_, Memory.storesWord_store _ _ _, exec_remap_writeIndex h hp hok⟩

/-- Settles O37: the addresses are `indexAddr` of the element at width 2 and `tableAddr` of IV; the value stored
is the low half of TV. -/
theorem remapgRewritesA16BitElement : Obligations.RemapgRewritesA16BitElement := by
  intro s h2
  have h : s.unit.remapsWith .remapg .half := .inr ⟨rfl, congrArg strideWidth h2⟩
  refine ⟨exec_remap_done h, exec_remap_more h, fun a hp ha hok => ?_, fun a hp ha hok => ?_,
    fun a hp ha hok => ?_⟩ <;> subst ha
  · rw [← Memory.load_half]
    exact exec_remap_readIndex h hp hok
  · rw [← Memory.load_word]
    exact exec_remap_readTable h hp hok
  · rw [← BitVec.setWidth_eq_extractLsb' (by decide)]
    exact ⟨_, Memory.storesHalf_store_setWidth _ _ _, exec_remap_writeIndex h hp hok⟩

end Sys2Proof.Machine

namespace Sys2Proof.Machine
/-! ## A remap command that runs alone (43_remap.md R175) -/

theorem remapElements_succ (u : Dqba) (w : Width) (m : Memory) (n : Nat) :
    remapElements u w m (n + 1) = remapElement u w (remapElements u w m n) n := by
  rw [remapElements, List.range_succ, List.foldl_append]
  rfl

/-- The machine `s` in a phase of its remap command, with memory `m`, at element `j`, with temporaries `iv` and
`tv`. -/
def State.remapAt (s : State) (m : Memory) (j : Nat) (iv tv : Word) (ph : Phase) : State :=
  (s.withMem m).withUnit { s.unit with i := BitVec.ofNat 32 j, iv := iv, tv := tv, phase := ph }

/-- Nobody else moves, so the step is the command's (log 6). -/
theorem step_eq_exec {s : State} {i : Instr} (hturns : s.turns = []) (hbusy : s.unit.status.busy = true)
    (hc : s.unit.lopc = encode i) : step s = exec i s :=
  (stepRunsTheDecodedCommand s i hbusy (hc ▸ decode_encode i)).1 hturns

/-! ### One element -/

section Element
variable {s : State} {i : Instr} {w : Width} (h : s.unit.remapsWith i w) {m : Memory} {j : Nat} {iv tv : Word}
include h

theorem exec_remapAt_done (hj : j = s.unit.count.toNat) :
    exec i (s.remapAt m j iv tv .rmCheck) =
      .next ((s.remapAt m j iv tv .rmCheck).withUnit
        ((s.remapAt m j iv tv .rmCheck).unit.endedWell s.unit.result)) := by
  have hi : BitVec.ofNat 32 j = s.unit.count := by rw [hj, BitVec.ofNat_toNat, BitVec.setWidth_eq]
  exact exec_remap_done (s := s.remapAt m j iv tv .rmCheck) h rfl hi

theorem exec_remapAt_more (hj : j < s.unit.count.toNat) :
    exec i (s.remapAt m j iv tv .rmCheck) = .next (s.remapAt m j iv tv .rmRdIdx) := by
  have hi : BitVec.ofNat 32 j ≠ s.unit.count := fun e =>
    Nat.ne_of_lt hj ((toNat_ofNat_of_le hj.le).symm.trans (congrArg BitVec.toNat e))
  exact exec_remap_more (s := s.remapAt m j iv tv .rmCheck) h rfl hi

variable (hok : ∀ a v, memOK s.refused a v = true)
include hok

theorem exec_remapAt_readIndex (hj : j < s.unit.count.toNat) :
    exec i (s.remapAt m j iv tv .rmRdIdx) =
      .next (s.remapAt m j (m.load (s.unit.indexAddr w j) w) tv .rmRdTbl) := by
  have hread := exec_remap_readIndex (s := s.remapAt m j iv tv .rmRdIdx) h rfl (hok _ _)
  rwa [show (s.remapAt m j iv tv .rmRdIdx).unit.i.toNat = j from toNat_ofNat_of_le hj.le] at hread

theorem exec_remapAt_readTable :
    exec i (s.remapAt m j iv tv .rmRdTbl) =
      .next (s.remapAt m j iv (m.load (s.unit.tableAddr iv.toNat) .word) .rmWrIdx) :=
  exec_remap_readTable (s := s.remapAt m j iv tv .rmRdTbl) h rfl (hok _ _)

theorem exec_remapAt_writeIndex (hj : j < s.unit.count.toNat) :
    exec i (s.remapAt m j iv tv .rmWrIdx) =
      .next (s.remapAt (m.store (s.unit.indexAddr w j) w (narrow w tv)) (j + 1) iv tv .rmCheck) := by
  have hwrite := exec_remap_writeIndex (s := s.remapAt m j iv tv .rmWrIdx) h rfl (hok _ _)
  rw [show (s.remapAt m j iv tv .rmWrIdx).unit.i.toNat = j from toNat_ofNat_of_le hj.le] at hwrite
  unfold State.remapAt
  rw [BitVec.ofNat_add]
  exact hwrite

end Element

/-! ### The run -/

section Run
variable {s : State} {i : Instr} {w : Width} (hacc : accepted i s) {m : Memory} {j : Nat} {iv tv : Word}
include hacc

theorem runSteps_remapAt {ph : Phase} {t : State} (k : Nat)
    (ht : exec i (s.remapAt m j iv tv ph) = .next t) :
    runSteps (k + 1) (s.remapAt m j iv tv ph) = runSteps k t := by
  obtain ⟨hturns, hbusy, -, hc⟩ := hacc
  exact runSteps_succ k ((step_eq_exec (s := s.remapAt m j iv tv ph) hturns hbusy hc).trans ht)

/-- With legal operands a remap command goes from its acceptance to element 0. -/
theorem runSteps_remapStart (k : Nat)
    (hl : (i = .remap32 ∧ s.unit.remap32Legal) ∨ (i = .remapg ∧ s.unit.remapgLegal)) :
    runSteps (k + 1) s = runSteps k (s.remapAt s.mem 0 s.unit.iv s.unit.tv .rmCheck) := by
  obtain ⟨hturns, hbusy, hp, hc⟩ := hacc
  refine runSteps_succ k ((step_eq_exec hturns hbusy hc).trans ?_)
  rcases hl with ⟨rfl, hidx, htbl⟩ | ⟨rfl, hstride, hidx, htbl⟩
  · exact (remap32ChecksAlignment s hp).2 hidx htbl
  · exact (remapgChecksStrideThenAlignment s hp).2.2 hstride hidx htbl

variable (h : s.unit.remapsWith i w) (hok : ∀ a v, memOK s.refused a v = true)
include h hok

/-- Four steps rewrite one element: the test, the index read, the table read, the index write. -/
theorem runSteps_remapElement (k : Nat) (hj : j < s.unit.count.toNat) :
    ∃ iv' tv', runSteps (k + 4) (s.remapAt m j iv tv .rmCheck) =
      runSteps k (s.remapAt (remapElement s.unit w m j) (j + 1) iv' tv' .rmCheck) :=
  ⟨_, _,
    (runSteps_remapAt hacc (k + 3) (exec_remapAt_more h hj)).trans <|
    (runSteps_remapAt hacc (k + 2) (exec_remapAt_readIndex h hok hj)).trans <|
    (runSteps_remapAt hacc (k + 1) (exec_remapAt_readTable h hok)).trans <|
    runSteps_remapAt hacc k (exec_remapAt_writeIndex h hok hj)⟩

/-- Four steps for each of the first `j` elements. -/
theorem runSteps_remapElements (hj : j ≤ s.unit.count.toNat) (k : Nat) :
    ∃ iv' tv', runSteps (k + 4 * j) (s.remapAt s.mem 0 iv tv .rmCheck) =
      runSteps k (s.remapAt (remapElements s.unit w s.mem j) j iv' tv' .rmCheck) := by
  induction j generalizing k with
  | zero => exact ⟨iv, tv, rfl⟩
  | succ j ih =>
    obtain ⟨iv₁, tv₁, hfirst⟩ := ih (Nat.le_of_succ_le hj) (k + 4)
    obtain ⟨iv₂, tv₂, hnext⟩ := runSteps_remapElement hacc h hok
      (m := remapElements s.unit w s.mem j) (iv := iv₁) (tv := tv₁) k hj
    refine ⟨iv₂, tv₂, ?_⟩
    rw [remapElements_succ, ← hnext, ← hfirst]
    congr 1
    omega

end Run

/-- Settles O58: one step for the start, four for each element, one for the end. -/
theorem remapCommandsRewriteInOrder : Obligations.RemapCommandsRewriteInOrder := by
  intro s i w hcmd hacc hok
  have h : s.unit.remapsWith i w := hcmd.imp (fun ⟨hi, hw, _⟩ => ⟨hi, hw⟩) fun ⟨hi, hw, _⟩ => ⟨hi, hw⟩
  have hl : (i = .remap32 ∧ s.unit.remap32Legal) ∨ (i = .remapg ∧ s.unit.remapgLegal) :=
    hcmd.imp (fun ⟨hi, _, hl⟩ => ⟨hi, hl⟩) fun ⟨hi, _, hl⟩ => ⟨hi, hl⟩
  have hstart := runSteps_remapStart hacc (1 + 4 * s.unit.count.toNat) hl
  obtain ⟨iv, tv, hloop⟩ := runSteps_remapElements hacc h hok (iv := s.unit.iv) (tv := s.unit.tv)
    (Nat.le_refl s.unit.count.toNat) 1
  have hend := runSteps_remapAt hacc 0 (exec_remapAt_done h rfl
    (m := remapElements s.unit w s.mem s.unit.count.toNat) (iv := iv) (tv := tv))
  have hrun := hstart.trans (hloop.trans hend)
  rw [show 1 + 4 * s.unit.count.toNat + 1 = 4 * s.unit.count.toNat + 2 by omega] at hrun
  exact ⟨_, hrun, rfl, rfl, rfl, rfl, rfl, rfl, rfl⟩

end Sys2Proof.Machine

namespace Sys2Proof.Machine
/-! ## Rewriting without overlap applies the table (43_remap.md R177) -/

/-- What one look-up in memory `m` writes back to element `j`. -/
def mappedIndex (u : Dqba) (w : Width) (m : Memory) (j : Nat) : Word :=
  narrow w (m.load (u.tableAddr (m.load (u.indexAddr w j) w).toNat) .word)

theorem remapElement_eq (u : Dqba) (w : Width) (m : Memory) (j : Nat) :
    remapElement u w m j = m.store (elementAddr u.rmIdx w j) w (mappedIndex u w m j) := rfl

/-- The narrowed value fits its element (R174). -/
theorem toNat_narrow_lt (w : Width) (v : Word) : (narrow w v).toNat < 256 ^ Width.bytes w := by
  cases w with
  | half =>
    rw [narrow, BitVec.toNat_setWidth_of_le (by decide)]
    exact (v.setWidth 16).isLt
  | word => exact v.isLt

theorem toNat_mappedIndex_lt (u : Dqba) (w : Width) (m : Memory) (j : Nat) :
    (mappedIndex u w m j).toNat < 256 ^ Width.bytes w := toNat_narrow_lt w _

/-- An element lies outside those before it. -/
theorem not_inBytes_of_elementAddr {base : Word} {w : Width} {j k n x : Nat} (hjk : j ≤ k) (hk : k < n)
    (hfits : Width.bytes w * n ≤ 2 ^ 32) (hx : inBytes (elementAddr base w k).toNat (Width.bytes w) x) :
    ¬ inBytes base.toNat (Width.bytes w * j) x := by
  rintro ⟨q, hq, rfl⟩
  obtain ⟨r, hr, e⟩ := inBytes_elementAddr.mp hx
  have hlt := Width.offset_lt hk hr
  have hle : Width.bytes w * j ≤ Width.bytes w * k := Nat.mul_le_mul_left _ hjk
  omega

/-- Rewriting the first `n` elements changes no byte outside them, whatever overlaps. -/
theorem readByte_remapElements {u : Dqba} {w : Width} {m : Memory} {n x : Nat}
    (hx : ¬ inBytes u.rmIdx.toNat (Width.bytes w * n) x) :
    (remapElements u w m n).readByte x = m.readByte x := by
  induction n with
  | zero => rfl
  | succ n ih =>
    rw [remapElements_succ, remapElement_eq, Memory.readByte_store_element _ _ hx]
    exact ih fun hx' => hx (inBytes_mono (Nat.mul_le_mul_left _ (Nat.le_succ n)) hx')

/-- A value with no byte in the first `n` elements reads as before. -/
theorem load_remapElements {u : Dqba} {w w' : Width} {m : Memory} {n : Nat} {a : Word}
    (h : ∀ x, inBytes a.toNat (Width.bytes w') x → ¬ inBytes u.rmIdx.toNat (Width.bytes w * n) x) :
    (remapElements u w m n).load a w' = m.load a w' :=
  Memory.load_congr fun r hr => readByte_remapElements (h _ ⟨r, hr, rfl⟩)

section Apart
variable {s : State} {w : Width} (h : RemapBuffers s w) {j : Nat}
include h

/-- Where no overlap is, the look-up of an element gives the same after the elements before it are rewritten. -/
theorem mappedIndex_remapElements (hj : j < s.unit.count.toNat) :
    mappedIndex s.unit w (remapElements s.unit w s.mem j) j = mappedIndex s.unit w s.mem j := by
  have hindex : (remapElements s.unit w s.mem j).load (s.unit.indexAddr w j) w =
      s.mem.load (s.unit.indexAddr w j) w :=
    load_remapElements fun x => not_inBytes_of_elementAddr (Nat.le_refl j) hj h.fits
  rw [mappedIndex, mappedIndex, hindex, load_remapElements]
  exact fun x hx hx' => h.tableApart j hj x hx (inBytes_mono (Nat.mul_le_mul_left _ hj.le) hx')

/-- The first `j` elements rewritten hold the table's entries of their old values. -/
theorem holdsArray_remapElements (hj : j ≤ s.unit.count.toNat) :
    HoldsArray (remapElements s.unit w s.mem j) s.unit.rmIdx w
      ((List.range j).map (mappedIndex s.unit w s.mem)) := by
  induction j with
  | zero => exact HoldsArray.nil _ _ _
  | succ j ih =>
    have hfits : Width.bytes w * (j + 1) ≤ 2 ^ 32 := (Nat.mul_le_mul_left _ hj).trans h.fits
    rw [remapElements_succ, remapElement_eq, mappedIndex_remapElements h hj, List.range_succ, List.map_append]
    simpa using (ih (Nat.le_of_succ_le hj)).store_next (by simpa using hfits) (toNat_mappedIndex_lt s.unit w s.mem j)

end Apart

/-- Settles O59: the elements hold an array of look-ups in the old memory, and only they changed. -/
theorem remapAppliesTheTable : Obligations.RemapAppliesTheTable := by
  intro s w h
  refine ⟨fun i hi => ?_, fun x hx => readByte_remapElements hx⟩
  have hload := holdsArray_remapElements h (Nat.le_refl s.unit.count.toNat) i (by simpa using hi)
  rw [List.getElem_map, List.getElem_range] at hload
  exact hload

end Sys2Proof.Machine

namespace Sys2Proof.Machine
/-! ## Errors, dropped commands and idle units (60_exceptions.md) -/

/-- Error completion, spelled out (60_exceptions.md R206). -/
theorem raiseError_eq_endedWithError (i : Instr) (e : Error) (s : State) :
    raiseError (some i) e s = { s with unit := s.unit.endedWithError e.code (errorResult i s.unit) } := by
  cases i <;> rfl

/-- A word that is none of the numbers 1 to 4 decodes to no command (30_encoding.md R93). -/
theorem exists_decode_eq_error {w : Word} (h : ∀ n : Nat, 1 ≤ n → n ≤ 4 → w ≠ BitVec.ofNat 32 n) :
    ∃ e, decode w = .error e := by
  cases hd : decode w with
  | error e => exact ⟨e, rfl⟩
  | ok i =>
    have hw := eq_encode_of_decode hd
    cases i with
    | setbs => exact absurd hw (h 1 (by decide) (by decide))
    | repack => exact absurd hw (h 2 (by decide) (by decide))
    | remap32 => exact absurd hw (h 3 (by decide) (by decide))
    | remapg => exact absurd hw (h 4 (by decide) (by decide))

/-- Settles O3: such a word does not decode, and in DECODE that is the error ILLEGAL_CMD. -/
theorem otherWordsEndAsIllegalCommands : Obligations.OtherWordsEndAsIllegalCommands := by
  intro s hb hp hw
  obtain ⟨e, hd⟩ := exists_decode_eq_error hw
  simp only [unitStep, hb, if_true, hd, hp]
  rfl

/-- A unit step takes no notice of CMD_LOST and leaves it as it is (60_exceptions.md R213). -/
theorem unitStep_cmdLost (s : State) :
    unitStep (s.withUnit { s.unit with status := s.unit.status.lost }) =
      mapNext (fun t => t.withUnit { t.unit with status := t.unit.status.lost }) (unitStep s) :=
  unitStep_mapUnread id (fun _ => true) id s

/-- Settles O12: the write sets CMD_LOST alone, which a unit step neither reads nor writes. -/
theorem droppedCommandLeavesTheCommandInFlightAlone :
    Obligations.DroppedCommandLeavesTheCommandInFlightAlone := by
  intro s w hb
  have hw : s.unit.windowWrite 0x00 4 w = { s.unit with status := s.unit.status.lost } :=
    Dqba.writeCmd_busy hb w
  rw [hw]
  exact ⟨rfl, unitStep_cmdLost s⟩

theorem unitStep_idle {s : State} (h : s.unit.status.busy = false) : unitStep s = .next s := by
  simp [unitStep, h]

/-- With a turn in the schedule the step is that turn, taken off the schedule. -/
theorem step_of_turns_cons {s : State} {tr : Turn} {rest : List Turn} (h : s.turns = tr :: rest) :
    step s = takeTurn tr (s.withTurns rest) := by
  simp only [step, machineStep, h]

/-- Settles O5: alone by the sequencer's BUSY test; in the schedule the turn is the unit's step. -/
theorem idleUnitTakesNoStep : Obligations.IdleUnitTakesNoStep := by
  refine fun s hb => ⟨unitStep_idle hb, fun rest ht => ?_⟩
  rw [step_of_turns_cons ht]
  exact unitStep_idle (s := s.withTurns rest) hb

/-- Settles O42: the turn of the unit changes the unit and memory, the turn of another unit its entry in the
list and memory. -/
theorem instancesShareNoRegister : Obligations.InstancesShareNoRegister := by
  intro k s t h
  cases k with
  | zero =>
    obtain ⟨hout, -, -⟩ := unitStep_outside h
    rw [hout]
    exact ⟨rfl, fun h0 => absurd rfl h0, fun _ _ => rfl, rfl⟩
  | succ k =>
    cases hu : s.others[k]? with
    | none =>
      rw [stepUnit_succ_of_none hu] at h
      cases h
      exact ⟨rfl, fun _ => rfl, fun _ _ => rfl, rfl⟩
    | some u =>
      rw [stepUnit_succ_of_getElem hu, mapNext_eq_next_iff] at h
      obtain ⟨v, -, rfl⟩ := h
      exact ⟨List.length_set, fun _ => rfl,
        fun j hj => List.getElem?_set_ne fun hkj => hj (congrArg (· + 1) hkj), rfl⟩

end Sys2Proof.Machine

namespace Sys2Proof.Machine
/-! ## Refused accesses (60_exceptions.md R208) -/

/-- The phases of a remap command with an access, and the access of each. -/
theorem Dqba.remapAccess_cases {u : Dqba} {v w : Width} {a : Word} (h : u.remapAccess v = some (a, w)) :
    (u.phase = .rmRdIdx ∧ a = u.indexAddr v u.i.toNat ∧ w = v) ∨
    (u.phase = .rmRdTbl ∧ a = u.tableAddr u.iv.toNat ∧ w = .word) ∨
    (u.phase = .rmWrIdx ∧ a = u.indexAddr v u.i.toNat ∧ w = v) := by
  unfold Dqba.remapAccess at h
  split at h
  case h_1 hp => cases h; exact .inl ⟨hp, rfl, rfl⟩
  case h_2 hp => cases h; exact .inr (.inl ⟨hp, rfl, rfl⟩)
  case h_3 hp => cases h; exact .inr (.inr ⟨hp, rfl, rfl⟩)
  all_goals cases h

/-- An access of RP_PAD means that neither the block's end nor the capacity comes first, so its refusal is what
ends the step. -/
theorem repackPad_refused {s : State} {a : Word} {w : Width} (hp : s.unit.phase = .rpPad)
    (hacc : s.unit.repackAccess = some (a, w)) (hok : memOK s.refused a w = false) :
    repackPad s = raiseError (some .repack) .busError s := by
  simp only [Dqba.repackAccess, hp] at hacc
  split_ifs at hacc with hno
  cases hacc
  rcases repackPad_cases s with ⟨h0, -⟩ | ⟨-, hmax, -⟩ | ⟨-, -, hok', -⟩ | ⟨-, -, -, e⟩
  · exact absurd (.inl h0) hno
  · exact absurd (.inr hmax) hno
  · exact absurd (hok.symm.trans hok') (by decide)
  · exact e

theorem exec_repack_refused {s : State} {a : Word} {w : Width} (hacc : s.unit.repackAccess = some (a, w))
    (hok : memOK s.refused a w = false) :
    exec .repack s = .next (raiseError (some .repack) .busError s) := by
  rw [exec_repack]
  rcases Dqba.repackAccess_cases hacc with ⟨k, hp, rfl, rfl⟩ | ⟨k, hp, rfl, rfl⟩ | ⟨hp, rfl, rfl⟩ |
    ⟨hp, rfl, rfl⟩ | ⟨hp, -⟩
  · rw [execRepack_of_rpRead hp, repackRead, portRead_refused hok]
  · rw [execRepack_of_rpAnchor hp, repackAnchor, portWrite_refused hok]
  · rw [execRepack_of_rpPack hp, repackPack, portWrite_refused hok]
  · rw [execRepack_of_rpRemap hp, repackRemap, portWrite_refused hok]
  · rw [execRepack_of_rpPad hp, repackPad_refused hp hacc hok]

theorem exec_remap_refused {s : State} {i : Instr} {a : Word} {v w : Width} (h : s.unit.remapsWith i v)
    (hacc : s.unit.remapAccess v = some (a, w)) (hok : memOK s.refused a w = false) :
    exec i s = .next (raiseError (some i) .busError s) := by
  rcases Dqba.remapAccess_cases hacc with ⟨hp, rfl, rfl⟩ | ⟨hp, rfl, rfl⟩ | ⟨hp, rfl, rfl⟩
  · rw [exec_remap_of_rmRdIdx h hp, remapReadIndex, portRead_refused hok]
  · rw [exec_remap_of_rmRdTbl h hp, remapReadTable, portRead_refused hok]
  · rw [exec_remap_of_rmWrIdx h hp, remapWriteIndex, portWrite_refused hok]

/-- A refused access raises BUS_ERROR, whatever the command. -/
theorem exec_refused {i : Instr} {s : State} {a : Word} {w : Width}
    (hacc : unitAccess i s.unit = some (a, w)) (hok : memOK s.refused a w = false) :
    exec i s = .next (raiseError (some i) .busError s) := by
  cases i with
  | setbs => cases hacc
  | repack => exact exec_repack_refused hacc hok
  | remap32 => exact exec_remap_refused (.inl ⟨rfl, rfl⟩) hacc hok
  | remapg =>
    obtain ⟨v, hv, hacc⟩ := Option.bind_eq_some_iff.mp hacc
    exact exec_remap_refused (.inr ⟨rfl, hv⟩) hacc hok

/-- Settles O23: the refusal raises BUS_ERROR, and error completion is all that changes. -/
theorem refusedAccessEndsTheCommand : Obligations.RefusedAccessEndsTheCommand := by
  intro i s a w hacc hok
  rw [exec_refused hacc hok, raiseError_eq_endedWithError]
  rfl

end Sys2Proof.Machine

namespace Sys2Proof.Machine
/-! ## Reset (70_reset_and_hazards.md R230 to R232) -/

/-- A reset gives the registers the values of R45 and leaves the window where it is. -/
theorem Dqba.doReset_holdsResetValues (u : Dqba) : u.doReset.holdsResetValues := by
  obtain ⟨hbs, hst, hres, hargs, hanchor, hphase⟩ := resetLeavesTheSpecifiedValues
  exact ⟨hbs, hst, hres, hargs, hanchor, hphase⟩

@[simp] theorem Dqba.doReset_base (u : Dqba) : u.doReset.base = u.base := rfl

/-- Settles O41: the turn is `resetUnit`, which resets the unit in its place, or one entry of the list of other
units. -/
theorem resetAbandonsTheCommandAndKeepsMemory : Obligations.ResetAbandonsTheCommandAndKeepsMemory := by
  refine ⟨fun s rest ht => ?_, fun s rest k u ht hu => ?_⟩
  · exact ⟨_, step_of_turns_cons ht, rfl, s.unit.doReset_holdsResetValues, rfl⟩
  · have hself : (s.others.modify k Dqba.doReset)[k]? = some u.doReset := by
      rw [List.getElem?_modify_eq, hu]
      rfl
    exact ⟨_, u.doReset, step_of_turns_cons ht, rfl, List.length_modify .., hself,
      u.doReset_holdsResetValues, rfl, fun j hj => List.getElem?_modify_ne _ _ (Ne.symm hj)⟩

/-! ## A busy unit has a step (70_reset_and_hazards.md R243) -/

theorem unitStep_eq_exec {s : State} {i : Instr} (hb : s.unit.status.busy = true)
    (hc : s.unit.lopc = encode i) : unitStep s = exec i s :=
  unitStep_busy hb (hc ▸ decode_encode i)

/-- A remap command in its loop has the element width its start check selected. -/
theorem Dqba.remapsWith_of_remapLegal {u : Dqba} (h : u.remapLegal) :
    ∃ i w, u.lopc = encode i ∧ u.remapsWith i w := by
  rcases h with ⟨hc, -⟩ | ⟨hc, hstride, -⟩
  · exact ⟨.remap32, .word, hc, .inl ⟨rfl, rfl⟩⟩
  · rcases hstride with hs | hs
    · exact ⟨.remapg, .half, hc, .inr ⟨rfl, by rw [hs]; rfl⟩⟩
    · exact ⟨.remapg, .word, hc, .inr ⟨rfl, by rw [hs]; rfl⟩⟩

/-- In DECODE every command has a step. -/
theorem exists_exec_of_decode (i : Instr) {s : State} (hp : s.unit.phase = .decode) :
    ∃ t, exec i s = .next t := by
  cases i with
  | setbs => exact ⟨_, execSetbs_of_decode hp⟩
  | repack => exact ⟨_, execRepack_of_decode hp⟩
  | remap32 => exact ⟨_, exec_remap32_of_decode hp⟩
  | remapg => exact ⟨_, exec_remapg_of_decode hp⟩

/-- The invariant of a phase says that it belongs to the accepted command, and every phase of a command has a
step; in DECODE any word has one (30_encoding.md R93). -/
theorem exists_unitStep {s : State} (hb : s.unit.status.busy = true) (hne : s.unit.phase ≠ .idle)
    (h : s.unit.phaseInv) : ∃ t, unitStep s = .next t := by
  have hrepack {t : State} (hrun : s.unit.repackRunning) (ht : execRepack s = .next t) :
      ∃ t, unitStep s = .next t := ⟨t, (unitStep_eq_exec hb hrun.1).trans ht⟩
  have hremap {t : Instr → Width → State} (hlegal : s.unit.remapLegal)
      (ht : ∀ i w, s.unit.remapsWith i w → exec i s = .next (t i w)) : ∃ t, unitStep s = .next t := by
    obtain ⟨i, w, hc, hw⟩ := Dqba.remapsWith_of_remapLegal hlegal
    exact ⟨_, (unitStep_eq_exec hb hc).trans (ht i w hw)⟩
  cases hp : s.unit.phase <;> simp only [Dqba.phaseInv, hp] at h
  case idle => exact absurd hp hne
  case decode =>
    cases hd : decode s.unit.lopc with
    | ok i =>
      rw [unitStep_busy hb hd]
      exact exists_exec_of_decode i hp
    | error e => exact ⟨illegalCommand s, by simp only [unitStep, hb, if_true, hd, hp]⟩
  case sbWrite => exact ⟨_, (unitStep_eq_exec hb h).trans (execSetbs_of_sbWrite hp)⟩
  case rpCheck => exact hrepack h.1 (execRepack_of_rpCheck hp)
  case rpRead => exact hrepack h.1 (execRepack_of_rpRead hp)
  case rpBlock => exact hrepack h.1 (execRepack_of_rpBlock hp)
  case rpAnchor => exact hrepack h.1 (execRepack_of_rpAnchor hp)
  case rpEval => exact hrepack h.1 (execRepack_of_rpEval hp)
  case rpPack => exact hrepack h.1 (execRepack_of_rpPack hp)
  case rpRemap => exact hrepack h.1 (execRepack_of_rpRemap hp)
  case rpPad => exact hrepack h.1 (execRepack_of_rpPad hp)
  case rmCheck => exact hremap h.1 fun _ _ hw => exec_remap_of_rmCheck hw hp
  case rmRdIdx => exact hremap h.1 fun _ _ hw => exec_remap_of_rmRdIdx hw hp
  case rmRdTbl => exact hremap h.1 fun _ _ hw => exec_remap_of_rmRdTbl hw hp
  case rmWrIdx => exact hremap h.1 fun _ _ hw => exec_remap_of_rmWrIdx hw hp

/-- A busy unit that meets the invariant is in no idle phase (10_state.md R44). -/
theorem Dqba.Inv.phase_ne_idle {u : Dqba} (h : u.Inv) (hb : u.status.busy = true) : u.phase ≠ .idle := by
  obtain ⟨-, -, hidle, -⟩ := h
  intro hp
  rw [hidle.mp hp] at hb
  cases hb

/-- Settles O50: the invariant of the phase the unit is in. -/
theorem busyUnitAlwaysHasAStep : Obligations.BusyUnitAlwaysHasAStep := by
  intro s h hb
  have hne := h.phase_ne_idle hb
  obtain ⟨-, -, -, hinv⟩ := h
  exact exists_unitStep hb hne hinv

end Sys2Proof.Machine

namespace Sys2Proof.Machine
/-! ## How many steps a command can still take (70_reset_and_hazards.md R243)

A number that every step of the unit lowers until the command ends. An attempt at a vertex takes 11 steps at the
first slot of a block, where it succeeds, and elsewhere at most 6 before the padding, which ends at such a slot
after one step for each slot it fills and one more: 18 steps for a vertex, besides the slots. An element of a remap
command takes 4. The last step of either loop is its check. -/

/-- Steps left at the check of vertex `i`: at the first slot of a block it needs no retry. -/
def attemptSteps (n bs i p : Nat) : Nat := if p % bs = 0 then 18 * (n - i) - 7 else 18 * (n - i)

/-- Steps left in a phase of a command that takes `bound` steps from DECODE. -/
def stepBudget (bound n max bs i p : Nat) : Phase → Nat
  | .idle => 0
  | .decode => bound
  | .sbWrite => 1
  | .rpCheck => attemptSteps n bs i p + (max - p) + 1
  | .rpRead k => attemptSteps n bs i p - (1 + k) + (max - p) + 1
  | .rpBlock => attemptSteps n bs i p - 4 + (max - p) + 1
  | .rpAnchor k => 18 * (n - i) - (12 + k) + (max - p) + 1
  | .rpEval => (if p % bs = 0 then 18 * (n - i) - 15 else 18 * (n - i) - 5) + (max - p) + 1
  | .rpPack => 18 * (n - i) - 16 + (max - p) + 1
  | .rpRemap => 18 * (n - i) - 17 + (max - p) + 1
  | .rpPad => 18 * (n - i) - 6 + (max - p) + 1
  | .rmCheck => 4 * (n - i) + 1
  | .rmRdIdx => 4 * (n - i)
  | .rmRdTbl => 4 * (n - i) - 1
  | .rmWrIdx => 4 * (n - i) - 2

/-- Steps a unit can still take in its command. -/
def Dqba.stepsLeft (u : Dqba) : Nat :=
  stepBudget (stepBound u) u.count.toNat u.rpMax.toNat u.lbs.toNat u.i.toNat u.p.toNat u.phase

theorem Dqba.stepsLeft_of_phase {u : Dqba} {ph : Phase} (h : u.phase = ph) :
    u.stepsLeft =
      stepBudget (stepBound u) u.count.toNat u.rpMax.toNat u.lbs.toNat u.i.toNat u.p.toNat ph := by
  rw [Dqba.stepsLeft, h]

section Budget
variable {c c' n max bs i p : Nat}

theorem le_attemptSteps (h : i < n) : 11 ≤ attemptSteps n bs i p := by
  unfold attemptSteps
  split_ifs <;> omega

theorem attemptSteps_le (n bs i p : Nat) : attemptSteps n bs i p ≤ 18 * (n - i) := by
  unfold attemptSteps
  split_ifs <;> omega

theorem stepBudget_check (h : i < n) :
    stepBudget c' n max bs i p (.rpRead 0) < stepBudget c n max bs i p .rpCheck := by
  have := le_attemptSteps (bs := bs) (p := p) h
  simp only [stepBudget, Fin.val_zero]
  omega

theorem stepBudget_read (h : i < n) (k : Fin 3) :
    stepBudget c' n max bs i p (afterRead k) < stepBudget c n max bs i p (.rpRead k) := by
  have := le_attemptSteps (bs := bs) (p := p) h
  match k with
  | 0 | 1 | 2 =>
    simp only [stepBudget, afterRead, Fin.isValue, Fin.val_zero, Fin.val_one, Fin.val_two]
    omega

theorem stepBudget_block (h : i < n) (h0 : p % bs = 0) :
    stepBudget c' n max bs i p (.rpAnchor 0) < stepBudget c n max bs i p .rpBlock := by
  simp only [stepBudget, attemptSteps, if_pos h0, Fin.val_zero]
  omega

theorem stepBudget_noBlock (h : i < n) (h0 : p % bs ≠ 0) :
    stepBudget c' n max bs i p .rpEval < stepBudget c n max bs i p .rpBlock := by
  simp only [stepBudget, attemptSteps, if_neg h0]
  omega

theorem stepBudget_anchor (h : i < n) (h0 : p % bs = 0) (k : Fin 3) :
    stepBudget c' n max bs i p (afterAnchor k) < stepBudget c n max bs i p (.rpAnchor k) := by
  match k with
  | 0 | 1 | 2 =>
    simp only [stepBudget, afterAnchor, if_pos h0, Fin.isValue, Fin.val_zero, Fin.val_one, Fin.val_two]
    omega

theorem stepBudget_fits (h : i < n) :
    stepBudget c' n max bs i p .rpPack < stepBudget c n max bs i p .rpEval := by
  simp only [stepBudget]
  split_ifs <;> omega

theorem stepBudget_overflow (h : i < n) (h0 : p % bs ≠ 0) :
    stepBudget c' n max bs i p .rpPad < stepBudget c n max bs i p .rpEval := by
  simp only [stepBudget, if_neg h0]
  omega

theorem stepBudget_pack (h : i < n) :
    stepBudget c' n max bs i p .rpRemap < stepBudget c n max bs i p .rpPack := by
  simp only [stepBudget]
  omega

theorem stepBudget_remap (h : i < n) (hmax : p < max) :
    stepBudget c' n max bs (i + 1) (p + 1) .rpCheck < stepBudget c n max bs i p .rpRemap := by
  have := attemptSteps_le n bs (i + 1) (p + 1)
  simp only [stepBudget]
  omega

theorem stepBudget_pad (hmax : p < max) :
    stepBudget c' n max bs i (p + 1) .rpPad < stepBudget c n max bs i p .rpPad := by
  simp only [stepBudget]
  omega

/-- Padding ends at the first slot of a block, where the retry is the vertex's last attempt. -/
theorem stepBudget_retry (h : i < n) (h0 : p % bs = 0) :
    stepBudget c' n max bs i p .rpCheck < stepBudget c n max bs i p .rpPad := by
  simp only [stepBudget, attemptSteps, if_pos h0]
  omega

/-- Past its start a REPACK has less than its bound left, whatever its phase. -/
theorem stepBudget_repack_le (ph : Phase) (hph : ph ≠ .decode) :
    stepBudget c n max bs i p ph ≤ 18 * n + max + 1 := by
  have := attemptSteps_le n bs i p
  cases ph with
  | decode => exact absurd rfl hph
  | rpEval =>
    simp only [stepBudget]
    split_ifs <;> omega
  | idle | sbWrite | rpCheck | rpRead | rpBlock | rpAnchor | rpPack | rpRemap | rpPad | rmCheck | rmRdIdx
  | rmRdTbl | rmWrIdx =>
    simp only [stepBudget]
    omega

end Budget

end Sys2Proof.Machine

namespace Sys2Proof.Machine
/-! ## Every step of a command lowers the steps left -/

/-- A step ends the command or leaves it fewer steps. -/
def EndsOrAdvances (s t : State) : Prop := t.unit.phase = .idle ∨ t.unit.stepsLeft < s.unit.stepsLeft

/-- A step to a phase with less left. -/
theorem EndsOrAdvances.of_phase {s t : State} {ph : Phase} (hp : s.unit.phase = ph)
    (hlt : t.unit.stepsLeft <
      stepBudget (stepBound s.unit) s.unit.count.toNat s.unit.rpMax.toNat s.unit.lbs.toNat
        s.unit.i.toNat s.unit.p.toNat ph) : EndsOrAdvances s t :=
  .inr (hlt.trans_eq (Dqba.stepsLeft_of_phase hp).symm)

/-! The bound of each command. -/

theorem stepBound_setbs {u : Dqba} (hc : u.lopc = encode .setbs) : stepBound u = 2 := by
  simp only [stepBound, hc, decode_encode]

theorem stepBound_repack {u : Dqba} (hc : u.lopc = encode .repack) :
    stepBound u = 18 * u.count.toNat + u.rpMax.toNat + 2 := by
  simp only [stepBound, hc, decode_encode]

theorem stepBound_remap {u : Dqba} (hc : u.lopc = encode .remap32 ∨ u.lopc = encode .remapg) :
    stepBound u = 4 * u.count.toNat + 2 := by
  rcases hc with hc | hc <;> simp only [stepBound, hc, decode_encode]

theorem stepBound_pos (u : Dqba) : 0 < stepBound u := by
  unfold stepBound
  split <;> omega

theorem execSetbs_advances {s t : State} (hc : s.unit.lopc = encode .setbs) (ht : execSetbs s = .next t) :
    EndsOrAdvances s t := by
  rcases execSetbs_next ht with ⟨hp, rfl⟩ | ⟨-, rfl⟩
  · have hlt : 1 < stepBound s.unit := by rw [stepBound_setbs hc]; decide
    exact .of_phase hp hlt
  · exact .inl rfl

/-! ### REPACK -/

theorem repackStart_advances {s : State} (hc : s.unit.lopc = encode .repack) (hp : s.unit.phase = .decode) :
    EndsOrAdvances s (repackStart s) := by
  rcases repackStart_cases s with ⟨-, e⟩ | ⟨-, -, e⟩ | ⟨-, -, -, -, -, e⟩ <;> rw [e]
  · exact .inl rfl
  · exact .inl rfl
  · refine .of_phase hp ((Nat.lt_succ_of_le (stepBudget_repack_le .rpCheck (by decide))).trans_eq ?_)
    exact (stepBound_repack hc).symm

theorem repackCheck_advances {s : State} (hp : s.unit.phase = .rpCheck) (h : s.unit.phaseInv) :
    EndsOrAdvances s (repackCheck s) := by
  simp only [Dqba.phaseInv, hp] at h
  obtain ⟨-, -, hi, -⟩ := h
  rcases repackCheck_cases s with ⟨-, e⟩ | ⟨-, -, e⟩ | ⟨hne, -, e⟩ <;> rw [e]
  · exact .inl rfl
  · exact .inl rfl
  · have hlt : s.unit.i.toNat < s.unit.count.toNat :=
      lt_of_le_of_ne hi fun h => hne (BitVec.eq_of_toNat_eq h)
    exact .of_phase hp (stepBudget_check hlt)

theorem repackRead_advances {s : State} {k : Fin 3} (hp : s.unit.phase = .rpRead k) (h : s.unit.phaseInv) :
    EndsOrAdvances s (repackRead k s) := by
  simp only [Dqba.phaseInv, hp] at h
  obtain ⟨-, -, hi, -⟩ := h
  rcases repackRead_cases k s with ⟨-, e⟩ | ⟨-, e⟩ <;> rw [e]
  · exact .of_phase hp (stepBudget_read hi k)
  · exact .inl rfl

theorem repackBlock_advances {s : State} (hp : s.unit.phase = .rpBlock) (h : s.unit.phaseInv) :
    EndsOrAdvances s (repackBlock s) := by
  simp only [Dqba.phaseInv, hp] at h
  obtain ⟨-, -, hi, -⟩ := h
  rcases repackBlock_cases s with ⟨h0, e⟩ | ⟨h0, e⟩ <;> rw [e]
  · exact .of_phase hp (stepBudget_block hi h0)
  · exact .of_phase hp (stepBudget_noBlock hi h0)

theorem repackAnchor_advances {s : State} {k : Fin 3} (hp : s.unit.phase = .rpAnchor k)
    (h : s.unit.phaseInv) : EndsOrAdvances s (repackAnchor k s) := by
  simp only [Dqba.phaseInv, hp] at h
  obtain ⟨-, ⟨⟨hi, -⟩, -⟩, h0⟩ := h
  rcases repackAnchor_cases k s with ⟨-, e⟩ | ⟨-, e⟩ <;> rw [e]
  · exact .of_phase hp (stepBudget_anchor hi h0 k)
  · exact .inl rfl

theorem repackEval_advances {s : State} (hp : s.unit.phase = .rpEval) (h : s.unit.phaseInv) :
    EndsOrAdvances s (repackEval s) := by
  simp only [Dqba.phaseInv, hp] at h
  obtain ⟨-, hin⟩ := h
  have hi : s.unit.i.toNat < s.unit.count.toNat := hin.1.1
  rcases repackEval_cases s with ⟨ho, e⟩ | ⟨-, e⟩ <;> rw [e]
  · exact .of_phase hp (stepBudget_overflow hi (Dqba.inside_of_ovf hin ho))
  · exact .of_phase hp (stepBudget_fits hi)

theorem repackPack_advances {s : State} (hp : s.unit.phase = .rpPack) (h : s.unit.phaseInv) :
    EndsOrAdvances s (repackPack s) := by
  simp only [Dqba.phaseInv, hp] at h
  obtain ⟨-, ⟨⟨hi, -⟩, -⟩, -⟩ := h
  rcases repackPack_cases s with ⟨-, e⟩ | ⟨-, e⟩ <;> rw [e]
  · exact .of_phase hp (stepBudget_pack hi)
  · exact .inl rfl

theorem repackRemap_advances {s : State} (hp : s.unit.phase = .rpRemap) (h : s.unit.phaseInv) :
    EndsOrAdvances s (repackRemap s) := by
  simp only [Dqba.phaseInv, hp] at h
  obtain ⟨-, ⟨⟨hi, hmax, -⟩, -⟩, -⟩ := h
  rcases repackRemap_cases s with ⟨-, e⟩ | ⟨-, e⟩ <;> rw [e]
  · refine .of_phase hp (lt_of_eq_of_lt ?_ (stepBudget_remap (c' := stepBound s.unit) hi hmax))
    rw [← toNat_succ_of_lt hi, ← toNat_succ_of_lt hmax]
    rfl
  · exact .inl rfl

theorem repackPad_advances {s : State} (hp : s.unit.phase = .rpPad) (h : s.unit.phaseInv) :
    EndsOrAdvances s (repackPad s) := by
  simp only [Dqba.phaseInv, hp] at h
  obtain ⟨-, -, hi, -⟩ := h
  rcases repackPad_cases s with ⟨h0, e⟩ | ⟨-, -, e⟩ | ⟨-, hmax, -, e⟩ | ⟨-, -, -, e⟩ <;> rw [e]
  · exact .of_phase hp (stepBudget_retry hi h0)
  · exact .inl rfl
  · refine .of_phase hp (lt_of_eq_of_lt ?_ (stepBudget_pad (c' := stepBound s.unit) hmax))
    rw [← toNat_succ_of_lt hmax]
    exact Dqba.stepsLeft_of_phase hp
  · exact .inl rfl

theorem execRepack_advances {s t : State} (hc : s.unit.lopc = encode .repack) (h : s.unit.phaseInv)
    (ht : execRepack s = .next t) : EndsOrAdvances s t := by
  rcases execRepack_next ht with ⟨hp, rfl⟩ | ⟨hp, rfl⟩ | ⟨k, hp, rfl⟩ | ⟨hp, rfl⟩ | ⟨k, hp, rfl⟩ |
    ⟨hp, rfl⟩ | ⟨hp, rfl⟩ | ⟨hp, rfl⟩ | ⟨hp, rfl⟩
  · exact repackStart_advances hc hp
  · exact repackCheck_advances hp h
  · exact repackRead_advances hp h
  · exact repackBlock_advances hp h
  · exact repackAnchor_advances hp h
  · exact repackEval_advances hp h
  · exact repackPack_advances hp h
  · exact repackRemap_advances hp h
  · exact repackPad_advances hp h

/-! ### REMAP32 and REMAPG -/

theorem remapBegin_advances {s : State} (hp : s.unit.phase = .decode)
    (hbound : stepBound s.unit = 4 * s.unit.count.toNat + 2) : EndsOrAdvances s (remapBegin s) := by
  have hlt : 4 * s.unit.count.toNat + 1 < stepBound s.unit := by omega
  exact .of_phase hp hlt

theorem remapCheck_advances {s : State} (hp : s.unit.phase = .rmCheck) : EndsOrAdvances s (remapCheck s) := by
  rcases remapCheck_cases s with ⟨-, e⟩ | ⟨-, e⟩ <;> rw [e]
  · exact .inl rfl
  · exact .of_phase hp (Nat.lt_succ_self _)

theorem remapReadIndex_advances {cmd : Instr} {w : Width} {s : State} (hp : s.unit.phase = .rmRdIdx)
    (h : s.unit.phaseInv) : EndsOrAdvances s (remapReadIndex cmd w s) := by
  simp only [Dqba.phaseInv, hp] at h
  obtain ⟨-, hi⟩ := h
  rcases remapReadIndex_cases cmd w s with ⟨-, e⟩ | ⟨-, e⟩ <;> rw [e]
  · have hlt : 4 * (s.unit.count.toNat - s.unit.i.toNat) - 1 < 4 * (s.unit.count.toNat - s.unit.i.toNat) := by
      omega
    exact .of_phase hp hlt
  · exact .inl rfl

theorem remapReadTable_advances {cmd : Instr} {s : State} (hp : s.unit.phase = .rmRdTbl)
    (h : s.unit.phaseInv) : EndsOrAdvances s (remapReadTable cmd s) := by
  simp only [Dqba.phaseInv, hp] at h
  obtain ⟨-, hi⟩ := h
  rcases remapReadTable_cases cmd s with ⟨-, e⟩ | ⟨-, e⟩ <;> rw [e]
  · have hlt : 4 * (s.unit.count.toNat - s.unit.i.toNat) - 2 <
        4 * (s.unit.count.toNat - s.unit.i.toNat) - 1 := by omega
    exact .of_phase hp hlt
  · exact .inl rfl

theorem remapWriteIndex_advances {cmd : Instr} {w : Width} {s : State} (hp : s.unit.phase = .rmWrIdx)
    (h : s.unit.phaseInv) : EndsOrAdvances s (remapWriteIndex cmd w s) := by
  simp only [Dqba.phaseInv, hp] at h
  obtain ⟨-, hi⟩ := h
  rcases remapWriteIndex_cases cmd w s with ⟨-, e⟩ | ⟨-, e⟩ <;> rw [e]
  · have hlt : 4 * (s.unit.count.toNat - (s.unit.i + 1#32).toNat) + 1 <
        4 * (s.unit.count.toNat - s.unit.i.toNat) - 2 := by
      rw [toNat_succ_of_lt hi]
      omega
    exact .of_phase hp hlt
  · exact .inl rfl

theorem execRemap32_advances {s t : State} (hc : s.unit.lopc = encode .remap32) (h : s.unit.phaseInv)
    (ht : execRemap32 s = .next t) : EndsOrAdvances s t := by
  rcases execRemap32_next ht with ⟨hp, rfl⟩ | ⟨hp, rfl⟩ | ⟨hp, rfl⟩ | ⟨hp, rfl⟩ | ⟨hp, rfl⟩
  · rcases remap32Start_cases s with ⟨-, e⟩ | ⟨-, -, e⟩ <;> rw [e]
    · exact .inl rfl
    · exact remapBegin_advances hp (stepBound_remap (.inl hc))
  · exact remapCheck_advances hp
  · exact remapReadIndex_advances hp h
  · exact remapReadTable_advances hp h
  · exact remapWriteIndex_advances hp h

theorem execRemapg_advances {s t : State} (hc : s.unit.lopc = encode .remapg) (h : s.unit.phaseInv)
    (ht : execRemapg s = .next t) : EndsOrAdvances s t := by
  rcases execRemapg_next ht with ⟨hp, rfl⟩ | ⟨hp, rfl⟩ | ⟨w, -, hp, rfl⟩ | ⟨hp, rfl⟩ | ⟨w, -, hp, rfl⟩
  · rcases remapgStart_cases s with ⟨-, e⟩ | ⟨w, -, ⟨-, e⟩ | ⟨-, -, e⟩⟩ <;> rw [e]
    · exact .inl rfl
    · exact .inl rfl
    · exact remapBegin_advances hp (stepBound_remap (.inr hc))
  · exact remapCheck_advances hp
  · exact remapReadIndex_advances hp h
  · exact remapReadTable_advances hp h
  · exact remapWriteIndex_advances hp h

theorem exec_advances {i : Instr} {s t : State} (hc : s.unit.lopc = encode i) (h : s.unit.phaseInv)
    (ht : exec i s = .next t) : EndsOrAdvances s t := by
  cases i with
  | setbs => exact execSetbs_advances hc ht
  | repack => exact execRepack_advances hc h ht
  | remap32 => exact execRemap32_advances hc h ht
  | remapg => exact execRemapg_advances hc h ht

end Sys2Proof.Machine

namespace Sys2Proof.Machine
/-! ## Every command in flight ends (70_reset_and_hazards.md R243) -/

/-- The unit is anywhere in its command, the word it decodes legal or not. -/
structure Dqba.InFlight (u : Dqba) : Prop where
  busy : u.status.busy = true
  phase_ne_idle : u.phase ≠ .idle
  phaseInv : u.phaseInv

/-- The unit has ended its command, well or with an error (60_exceptions.md R205, R206). -/
structure Dqba.Ended (u : Dqba) : Prop where
  phase : u.phase = .idle
  busy : u.status.busy = false
  done : u.status.done = true

/-- A step in a command ends it or goes on with fewer steps left. -/
theorem Dqba.InFlight.unitStep {s t : State} (h : s.unit.InFlight) (ht : unitStep s = .next t) :
    t.unit.Ended ∨ (t.unit.InFlight ∧ t.unit.stepsLeft < s.unit.stepsLeft) := by
  obtain ⟨hb, -, hinv⟩ := h
  rcases unitStep_next ht with ⟨hb', -⟩ | ⟨-, i, hd, hi⟩ | ⟨-, -, -, rfl⟩
  · exact absurd (hb.symm.trans hb') (by decide)
  · have hc := eq_encode_of_decode hd
    have hf := exec_frame hi
    by_cases hp : t.unit.phase = .idle
    · rcases hf.ends hp with e | ⟨er, e⟩
      · exact .inl ⟨hp, by rw [e]; rfl, by rw [e]; rfl⟩
      · exact .inl ⟨hp, by rw [e]; rfl, by rw [e]; rfl⟩
    · obtain ⟨hst, -⟩ := hf.goesOn hp
      exact .inr ⟨⟨hst ▸ hb, hp, exec_phaseInv hc hinv hi⟩, (exec_advances hc hinv hi).resolve_left hp⟩
  · exact .inl ⟨rfl, rfl, rfl⟩

/-- A unit in a command has a step left. -/
theorem Dqba.InFlight.stepsLeft_pos {u : Dqba} (h : u.InFlight) : 0 < u.stepsLeft := by
  obtain ⟨-, hne, hinv⟩ := h
  cases hp : u.phase with
  | idle => exact absurd hp hne
  | decode =>
    rw [Dqba.stepsLeft_of_phase hp]
    exact stepBound_pos u
  | sbWrite | rpCheck | rpRead | rpBlock | rpAnchor | rpEval | rpPack | rpRemap | rpPad | rmCheck =>
    rw [Dqba.stepsLeft_of_phase hp]
    exact Nat.succ_pos _
  | rmRdIdx | rmRdTbl | rmWrIdx =>
    simp only [Dqba.phaseInv, hp] at hinv
    obtain ⟨-, hi⟩ := hinv
    rw [Dqba.stepsLeft_of_phase hp]
    simp only [stepBudget]
    omega

/-- A unit in a command has no more steps left than its bound. -/
theorem Dqba.InFlight.stepsLeft_le_stepBound {u : Dqba} (h : u.InFlight) : u.stepsLeft ≤ stepBound u := by
  obtain ⟨-, hne, hinv⟩ := h
  have hrepack (hc : u.lopc = encode .repack) (hp : u.phase ≠ .decode) : u.stepsLeft ≤ stepBound u := by
    rw [stepBound_repack hc]
    exact (stepBudget_repack_le u.phase hp).trans (Nat.le_succ _)
  cases hp : u.phase with
  | idle => exact absurd hp hne
  | decode => exact (Dqba.stepsLeft_of_phase hp).le
  | sbWrite =>
    simp only [Dqba.phaseInv, hp] at hinv
    rw [Dqba.stepsLeft_of_phase hp, stepBound_setbs hinv]
    exact Nat.le_succ 1
  | rpCheck | rpRead | rpBlock | rpAnchor | rpEval | rpPack | rpRemap | rpPad =>
    simp only [Dqba.phaseInv, hp] at hinv
    obtain ⟨⟨hc, -⟩, -⟩ := hinv
    exact hrepack hc (by simp [hp])
  | rmCheck | rmRdIdx | rmRdTbl | rmWrIdx =>
    simp only [Dqba.phaseInv, hp] at hinv
    obtain ⟨hlegal, -⟩ := hinv
    rw [Dqba.stepsLeft_of_phase hp, stepBound_remap (hlegal.imp And.left And.left)]
    simp only [stepBudget]
    omega

/-- Nobody else moves, so the step is the unit's (log 6). -/
theorem step_eq_unitStep {s : State} (hturns : s.turns = []) (hb : s.unit.status.busy = true) :
    step s = unitStep s := by
  have hs : s.withTurns s.turns.tail = s := by
    rw [hturns, List.tail_nil, ← hturns]
    rfl
  rw [step_eq_nextTurn, nextTurn_of_busy hturns hb, hs]
  rfl

/-- A command ends within any number of steps that covers those it has left. -/
theorem Dqba.InFlight.ends {k : Nat} {s : State} (h : s.unit.InFlight) (hturns : s.turns = [])
    (hk : s.unit.stepsLeft ≤ k) : ∃ j ≤ k, ∃ t, runSteps j s = .next t ∧ t.unit.Ended := by
  induction k generalizing s with
  | zero => exact absurd h.stepsLeft_pos (Nat.not_lt.mpr hk)
  | succ k ih =>
    obtain ⟨t, hunit⟩ := exists_unitStep h.busy h.phase_ne_idle h.phaseInv
    have hstep : step s = .next t := (step_eq_unitStep hturns h.busy).trans hunit
    rcases h.unitStep hunit with hended | ⟨ht, hlt⟩
    · exact ⟨1, Nat.succ_pos k, t, runSteps_succ 0 hstep, hended⟩
    · obtain ⟨hout, -, -⟩ := unitStep_outside hunit
      have hturns' : t.turns = [] := by rw [hout]; exact hturns
      obtain ⟨j, hj, t', hrun, hended⟩ := ih ht hturns' (Nat.le_of_lt_succ (hlt.trans_le hk))
      exact ⟨j + 1, Nat.succ_le_succ hj, t', (runSteps_succ j hstep).trans hrun, hended⟩

/-- Settles O54: the steps left of a command in flight are at most its bound. -/
theorem everyAcceptedCommandEnds : Obligations.EveryAcceptedCommandEnds := by
  intro s hturns hb hwhere
  have h : s.unit.InFlight := by
    rcases hwhere with hp | hinv
    · exact ⟨hb, by simp [hp], by simp only [Dqba.phaseInv, hp]⟩
    · have hne := hinv.phase_ne_idle hb
      obtain ⟨-, -, -, hphase⟩ := hinv
      exact ⟨hb, hne, hphase⟩
  obtain ⟨k, hk, t, hrun, hphase, hbusy, hdone⟩ := h.ends hturns h.stepsLeft_le_stepBound
  exact ⟨k, hk, t, hrun, hphase, hbusy, hdone⟩

end Sys2Proof.Machine
